-- ==== Sys2Proof/Word.lean ====
section
/-! DEFINITION. The bus word, the 8-bit symbol, and the two readings of the command word's `MODE` bit
(spec/00_scope.md R8, R11; spec/30_encoding.md R83). -/

namespace Sys2Proof

/-- One 32-bit bus word; bit 0 is the least significant (00_scope.md R8). -/
abbrev Word := BitVec 32

/-- One symbol of an operand or output buffer: an 8-bit character code (00_scope.md R11). -/
abbrev Symbol := BitVec 8

/-- `MODE` of PAR.GEN and PAR.CHK: 0 = even, 1 = odd (30_encoding.md R83). -/
inductive ParityMode where
  | even
  | odd
deriving DecidableEq, Repr

/-- `MODE` of CSUM.GEN and CSUM.VER: 0 = modulo-256 complement, 1 = one's complement with end-around
carry (30_encoding.md R83). -/
inductive ChecksumVariant where
  | mod256
  | ones
deriving DecidableEq, Repr

end Sys2Proof
end

