-- ==== Sys2Proof/Syntax.lean ====
section
/-! DEFINITION. The command set `EDC-CMD v1`: ten commands (spec/30_encoding.md R82; spec/opcode_table.json),
and the three fields of a command word (R80). A command has no register operands and no immediate (R81):
only `MODE` is assembled from command bits, and only four commands take it (R83). -/

namespace Sys2Proof

/-- One constructor per row of spec/opcode_table.json (30_encoding.md R82). -/
inductive Instr where
  /-- PAR.GEN, 41_parity.md R123. -/
  | parGen (mode : ParityMode)
  /-- PAR.CHK, 41_parity.md R124. -/
  | parChk (mode : ParityMode)
  /-- HAM.ENC, 42_hamming.md R146. -/
  | hamEnc
  /-- HAM.DEC, 42_hamming.md R150. -/
  | hamDec
  /-- CRC.GEN, 43_crc.md R175. -/
  | crcGen
  /-- CRC.CHK, 43_crc.md R176. -/
  | crcChk
  /-- CSUM.GEN, 44_checksum.md R196. -/
  | csumGen (variant : ChecksumVariant)
  /-- CSUM.VER, 44_checksum.md R197. -/
  | csumVer (variant : ChecksumVariant)
  /-- P2D.GEN, 45_twod_parity.md R224. -/
  | p2dGen
  /-- P2D.VER, 45_twod_parity.md R225. -/
  | p2dVer
deriving DecidableEq, Repr

/-- A command word split into its fields (30_encoding.md R80): the raw form, which can be ill-formed. -/
structure CmdFields where
  /-- `OPC`, bits [3:0]. -/
  opc : BitVec 4
  /-- `MODE`, bit [4]. -/
  mode : BitVec 1
  /-- `RSV`, bits [31:5]. -/
  rsv : BitVec 27
deriving DecidableEq, Repr

end Sys2Proof
end

