-- ==== Sys2Proof/WellFormed.lean ====
section
/-! DEFINITION. Well-formedness of a command word's fields, one check per condition of spec/30_encoding.md
R85, and of an instruction. `Instr` is typed so that every term is an instruction of the table: what can be
ill-formed is a command word, so the checks stand on its fields. -/

namespace Sys2Proof

/-- `RSV` must be 0 (30_encoding.md R80, R85). -/
def CmdFields.rsvOk (f : CmdFields) : Bool := f.rsv == 0

/-- `OPC` is not one of 0x0, 0x1, 0xC, 0xD, 0xE, 0xF (30_encoding.md R85). -/
def CmdFields.opcOk (f : CmdFields) : Bool :=
  !([0x0#4, 0x1#4, 0xC#4, 0xD#4, 0xE#4, 0xF#4].contains f.opc)

/-- `MODE = 1` does not stand with an `OPC` that takes no mode: 0x4, 0x5, 0x6, 0x7, 0xA, 0xB
(30_encoding.md R85). -/
def CmdFields.modeOk (f : CmdFields) : Bool :=
  !(f.mode == 1 && [0x4#4, 0x5#4, 0x6#4, 0x7#4, 0xA#4, 0xB#4].contains f.opc)

/-- The word is legal: none of the three conditions of 30_encoding.md R85 holds. -/
def CmdFields.wf (f : CmdFields) : Bool := f.rsvOk && f.opcOk && f.modeOk

/-- The family number of 30_encoding.md R82 (1 = parity to 5 = 2D parity). -/
def Instr.family : Instr → Nat
  | .parGen _ | .parChk _ => 1
  | .hamEnc | .hamDec => 2
  | .crcGen | .crcChk => 3
  | .csumGen _ | .csumVer _ => 4
  | .p2dGen | .p2dVer => 5

/-- 0 for the generate or encode operation, 1 for check, decode or verify (30_encoding.md R82). -/
def Instr.isCheck : Instr → Nat
  | .parGen _ | .hamEnc | .crcGen | .csumGen _ | .p2dGen => 0
  | .parChk _ | .hamDec | .crcChk | .csumVer _ | .p2dVer => 1

/-- The mode bit an instruction carries; 0 where the command takes no mode (30_encoding.md R83). -/
def Instr.modeBit : Instr → BitVec 1
  | .parGen .odd | .parChk .odd | .csumGen .ones | .csumVer .ones => 1
  | .parGen .even | .parChk .even | .csumGen .mod256 | .csumVer .mod256 => 0
  | .hamEnc | .hamDec | .crcGen | .crcChk | .p2dGen | .p2dVer => 0

/-- The fields R82 and R83 give an instruction: `OPC = 2*f + op`, `MODE`, `RSV = 0`. -/
def Instr.fields (i : Instr) : CmdFields :=
  { opc := BitVec.ofNat 4 (2 * i.family + i.isCheck), mode := i.modeBit, rsv := 0 }

/-- An instruction is well formed when its fields pass the checks of 30_encoding.md R85. -/
def Instr.wf (i : Instr) : Bool := i.fields.wf

end Sys2Proof
end

