-- ==== Sys2Proof/Decode.lean ====
section
/-! DEFINITION. Decoding a command word, total on all 32-bit words, and AFTER it the encoder
(spec/30_encoding.md R80 to R86). The block fetches no instruction bytes (20_memory.md R66, R70): a command
word is the 32-bit data of one write, so there is no byte string to decode (log 9). -/

namespace Sys2Proof

/-- Which condition of 30_encoding.md R85 makes a word illegal. All three end in the one error
ILLEGAL_COMMAND. -/
inductive IllegalReason where
  /-- `RSV != 0`. -/
  | reservedBits
  /-- `OPC` is 0x0, 0x1 or 0xC to 0xF. -/
  | unassignedOpcode
  /-- `MODE = 1` with an `OPC` that takes no mode. -/
  | strayMode
deriving DecidableEq, Repr

/-- `OPC`, bits [3:0] (30_encoding.md R80). -/
def opcOf (w : Word) : BitVec 4 := w.extractLsb' 0 4

/-- `MODE`, bit [4] (30_encoding.md R80). -/
def modeOf (w : Word) : BitVec 1 := w.extractLsb' 4 1

/-- `RSV`, bits [31:5] (30_encoding.md R80). -/
def rsvOf (w : Word) : BitVec 27 := w.extractLsb' 5 27

/-- The three fields of a command word. -/
def fieldsOf (w : Word) : CmdFields := { opc := opcOf w, mode := modeOf w, rsv := rsvOf w }

/-- `MODE` as a parity convention (30_encoding.md R83). -/
def parityModeOf (m : BitVec 1) : ParityMode := if m = 1 then .odd else .even

/-- `MODE` as a checksum variant (30_encoding.md R83). -/
def variantOf (m : BitVec 1) : ChecksumVariant := if m = 1 then .ones else .mod256

/-- A command that takes no mode: `MODE` must be 0 (30_encoding.md R83). -/
def modeless (i : Instr) (m : BitVec 1) : Except IllegalReason Instr :=
  if m = 1 then .error .strayMode else .ok i

/-- The opcode map of 30_encoding.md R82. -/
def decodeOpc (opc : Nat) (m : BitVec 1) : Except IllegalReason Instr :=
  match opc with
  | 0x2 => .ok (.parGen (parityModeOf m))
  | 0x3 => .ok (.parChk (parityModeOf m))
  | 0x4 => modeless .hamEnc m
  | 0x5 => modeless .hamDec m
  | 0x6 => modeless .crcGen m
  | 0x7 => modeless .crcChk m
  | 0x8 => .ok (.csumGen (variantOf m))
  | 0x9 => .ok (.csumVer (variantOf m))
  | 0xA => modeless .p2dGen m
  | 0xB => modeless .p2dVer m
  | _ => .error .unassignedOpcode

/-- The decoder: total, every word is one of the fourteen legal ones or rejected by name
(30_encoding.md R84, R85). -/
def decode (w : Word) : Except IllegalReason Instr :=
  if rsvOf w ≠ 0 then .error .reservedBits else decodeOpc (opcOf w).toNat (modeOf w)

/-- The decoder's answer without the reason. -/
def decode? (w : Word) : Option Instr :=
  match decode w with
  | .ok i => some i
  | .error _ => none

/-- The host's question about one row of the table: a command is one 32-bit word and bit 0 of `w` is its
bit 0; a number that does not fit 32 bits, or the row's `nbits`, is no command word. -/
def decodeTableWord (nbits w : Nat) : Option Instr :=
  if w < 2 ^ nbits ∧ w < 2 ^ 32 then decode? (BitVec.ofNat 32 w) else none

/-- `OPC` of each command, from the table of 30_encoding.md R82. -/
def opcEnc : Instr → BitVec 4
  | .parGen _ => 0x2
  | .parChk _ => 0x3
  | .hamEnc => 0x4
  | .hamDec => 0x5
  | .crcGen => 0x6
  | .crcChk => 0x7
  | .csumGen _ => 0x8
  | .csumVer _ => 0x9
  | .p2dGen => 0xA
  | .p2dVer => 0xB

/-- `MODE` of each command (30_encoding.md R83). -/
def modeEnc : Instr → BitVec 1
  | .parGen m | .parChk m => match m with | .even => 0 | .odd => 1
  | .csumGen v | .csumVer v => match v with | .mod256 => 0 | .ones => 1
  | .hamEnc | .hamDec | .crcGen | .crcChk | .p2dGen | .p2dVer => 0

/-- The command word of an instruction: `RSV = 0`, then `MODE`, then `OPC` (30_encoding.md R80). -/
def encode (i : Instr) : Word := (0#27 ++ modeEnc i) ++ opcEnc i

end Sys2Proof
end

