-- ==== Sys2Proof/Config.lean ====
section
/-! DEFINITION. The implementation parameters of spec/00_scope.md R6. `OMAX` and `TMAX` are functions of
`IMAX`. The spec leaves no value open (93_implementation_defined.md section 2), so there is no opaque
constant here; the parameters are plain data that a state carries (log 3). -/

namespace Sys2Proof

/-- The free parameters of 00_scope.md R6. -/
structure Params where
  /-- `IMAX`, capacity of `IBUF` in symbols. -/
  imax : Nat
  /-- `DMAX`, capacity of `DBUF` in symbols. -/
  dmax : Nat
  /-- `BASE`, bus address of the block's offset 0. -/
  base : Nat
deriving DecidableEq, Repr

/-- `OMAX = 2*IMAX + 4`, capacity of `OBUF` in symbols (00_scope.md R6). -/
def Params.omax (p : Params) : Nat := 2 * p.imax + 4

/-- `TMAX = IMAX`, capacity of `TBUF` in records (00_scope.md R6). -/
def Params.tmax (p : Params) : Nat := p.imax

/-- The distance of possible values of `BASE` (00_scope.md R6). -/
def Params.baseUnit : Nat := 0x200000

/-- The parameters lie in the ranges of 00_scope.md R6. -/
abbrev Params.wf (p : Params) : Prop :=
  8 ≤ p.imax ∧ p.imax ≤ 16384 ∧ 2 ≤ p.dmax ∧ p.dmax ≤ 64 ∧ p.base % Params.baseUnit = 0

/-- The defaults of 00_scope.md R6. `BASE` has no default there ("open (platform)"); 0 is a DESIGN CHOICE
(log 3), and no statement rests on it. -/
def Params.default : Params := { imax := 1024, dmax := 64, base := 0 }

end Sys2Proof
end

