-- ==== Sys2Proof/Machine/State.lean ====
section
/-! DEFINITION. The architectural state of the block (spec/10_state.md R20), as plain data, and the state
after reset (R42). The two groups of R22 are two records: what the host writes and what commands write. -/

namespace Sys2Proof.Machine

/-- A buffer of `w`-bit elements in canonical form: (index, value) pairs, indices strictly rising, and no
entry equal to 0, which is what an unlisted element reads as: the reset content of 10_state.md R42 (log 7).
`Memory 8` is a list of `Host.Cell`. -/
abbrev Memory (w : Nat) := List (Nat × BitVec w)

/-- `STATUS.ERR` (60_exceptions.md R250). -/
inductive ErrorCode where
  | none
  | invalidEmpty
  | invalidSymbol
  | invalidByte
  | rowLengthMismatch
  | tooShort
  | divisorTooLong
  | tooFewTokens
  /-- Assigned and unreachable (40_bitstring.md R105). -/
  | lengthMismatch
  | illegalCommand
  | bufferRange
  | divisorTooShort
deriving DecidableEq, Repr

/-- `STATUS.OUTCOME` (10_state.md R32). -/
inductive OutcomeCode where
  | none
  | generated
  | clean
  | detected
  | corrected
  | uncorrectable
deriving DecidableEq, Repr

/-- `STATUS.DETAIL` (10_state.md R33). -/
inductive DetailCode where
  | none
  | syndromeOutOfRange
  /-- Assigned and unreachable (42_hamming.md R152). -/
  | multiBit
  | mismatchPattern
deriving DecidableEq, Repr

/-- `STATUS` by its fields (10_state.md R31); the reserved bits read 0 and no write reaches them, so they are
not held (log 6). The 32-bit word the host reads is `statusWord` of Flags.lean. -/
structure Status where
  done    : Bool
  err     : ErrorCode
  outcome : OutcomeCode
  detail  : DetailCode
deriving DecidableEq, Repr

/-- Operand state: written only by the host, never by a command (10_state.md R22, R24, R25, R35, R36). -/
structure OperandState where
  ilen : BitVec 16
  dlen : BitVec 16
  ibuf : Memory 8
  dbuf : Memory 8
deriving DecidableEq, Repr

/-- Result state: written only by commands, never by the host (10_state.md R22, R26 to R28, R31, R37 to R39). -/
structure ResultState where
  status : Status
  olen   : Word
  tlen   : Word
  ones   : BitVec 16
  pbit   : BitVec 1
  rbit   : BitVec 1
  npar   : BitVec 4
  synd   : BitVec 16
  synd2  : BitVec 16
  epos   : BitVec 16
  rlen   : BitVec 16
  sum    : BitVec 32
  fsum   : BitVec 8
  csum   : BitVec 8
  nrows  : BitVec 16
  ncols  : BitVec 16
  rcnt   : BitVec 16
  ccnt   : BitVec 16
  erow   : BitVec 16
  ecol   : BitVec 16
  obuf   : Memory 8
  /-- Word `w` of record `j` is element `4*j + w` (10_state.md R38). -/
  tbuf   : Memory 32
  rmis   : Memory 1
  cmis   : Memory 1
deriving DecidableEq, Repr

/-- What the host can do at the block's port: an access of `width` bits at a byte address (20_memory.md R60,
R61), or the reset input (70_reset_and_hazards.md R280). Widths and addresses the block does not answer can be
asked for; the port refuses them. -/
inductive HostAction where
  | read (width : Nat) (addr : Nat)
  | write (width : Nat) (addr : Nat) (value : Word)
  | reset
deriving DecidableEq, Repr

/-- What the port answered to the last access: the model's own output side of the port (log 2). -/
inductive PortReply where
  /-- No access since reset. -/
  | idle
  /-- The last access was a write and it completed. -/
  | ack
  /-- The last access was a read and returned this word. -/
  | data (value : Word)
deriving DecidableEq, Repr

/-- Why the port answers with an access error (20_memory.md R61, R67, R63). -/
inductive AccessError where
  | width
  | misaligned
  | unmapped
deriving DecidableEq, Repr

/-- The block never faults: every command completes (70_reset_and_hazards.md R288) and nothing of the spec is
stuck (93_implementation_defined.md section 2). So there is no fault to name. -/
inductive Fault where
deriving DecidableEq, Repr

/-- Why a step is refused. -/
inductive Refusal where
  /-- Raised by the port for an access of 20_memory.md R61, R63 or R67: "a model treats the host action as
  refused". Safe: the hardware answers an access error and goes on unchanged, the model stops (log 4). -/
  | accessError (why : AccessError)
  /-- Raised by an arm of `exec` whose instruction has no meaning yet. Safe. No arm raises it. -/
  | notModelled (mnemonic : String)
deriving DecidableEq, Repr

/-- The whole machine (10_state.md R20), the parameters it was built with (log 3), and the two sides of the
host port, which are the model's own (log 1, log 2). -/
structure State where
  /-- Configuration, not state (R20); no step changes it. `CAP` (R34) is read from it. -/
  params  : Params
  /-- `CMD` (R30). -/
  cmd     : Word
  /-- Operand state (R22). -/
  op      : OperandState
  /-- Result state (R22). -/
  res     : ResultState
  /-- MODEL: the host's accesses not yet performed, oldest first (20_memory.md R68; log 1). -/
  pending : List HostAction
  /-- MODEL: the answer to the last access (log 2). -/
  reply   : PortReply
deriving DecidableEq, Repr

/-- `STATUS` after reset (10_state.md R31, R42). -/
def Status.zero : Status := { done := false, err := .none, outcome := .none, detail := .none }

/-- Operand state after reset (10_state.md R42). -/
def OperandState.zero : OperandState := { ilen := 0, dlen := 0, ibuf := [], dbuf := [] }

/-- Result state after reset (10_state.md R42). -/
def ResultState.zero : ResultState :=
  { status := Status.zero, olen := 0, tlen := 0, ones := 0, pbit := 0, rbit := 0, npar := 0, synd := 0,
    synd2 := 0, epos := 0, rlen := 0, sum := 0, fsum := 0, csum := 0, nrows := 0, ncols := 0, rcnt := 0,
    ccnt := 0, erow := 0, ecol := 0, obuf := [], tbuf := [], rmis := [], cmis := [] }

/-- The reset state of a block built with the parameters `p` (10_state.md R42). -/
def State.resetWith (p : Params) : State :=
  { params := p, cmd := 0, op := OperandState.zero, res := ResultState.zero, pending := [], reply := .idle }

/-- The machine right after reset, with the default parameters of 00_scope.md R6 (10_state.md R42). -/
def State.reset : State := State.resetWith Params.default

end Sys2Proof.Machine
end

