-- ==== Sys2Proof/Machine/Flags.lean ====
section
/-! DEFINITION. `STATUS`: the code of every error, outcome and detail, the word the host reads, and the three
ways a command ends (spec/10_state.md R29, R31 to R33; spec/60_exceptions.md R250). The block has no
arithmetic flags (R29). -/

namespace Sys2Proof.Machine

/-- `STATUS.ERR` codes (60_exceptions.md R250). -/
def ErrorCode.code : ErrorCode → BitVec 4
  | .none => 0
  | .invalidEmpty => 1
  | .invalidSymbol => 2
  | .invalidByte => 3
  | .rowLengthMismatch => 4
  | .tooShort => 5
  | .divisorTooLong => 6
  | .tooFewTokens => 7
  | .lengthMismatch => 8
  | .illegalCommand => 9
  | .bufferRange => 10
  | .divisorTooShort => 11

/-- `STATUS.OUTCOME` codes (10_state.md R32). -/
def OutcomeCode.code : OutcomeCode → BitVec 4
  | .none => 0
  | .generated => 1
  | .clean => 2
  | .detected => 3
  | .corrected => 4
  | .uncorrectable => 5

/-- `STATUS.DETAIL` codes (10_state.md R33). -/
def DetailCode.code : DetailCode → BitVec 4
  | .none => 0
  | .syndromeOutOfRange => 1
  | .multiBit => 2
  | .mismatchPattern => 3

/-- The word a read of `STATUS` returns: `DONE` [0], 0 [3:1], `ERR` [7:4], `OUTCOME` [11:8], `DETAIL` [15:12],
0 [31:16] (10_state.md R31). -/
def statusWord (st : Status) : Word :=
  0#16 ++ st.detail.code ++ st.outcome.code ++ st.err.code ++ 0#3 ++ BitVec.ofBool st.done

/-- A command that ended without error and without a detail (10_state.md R31, R32). -/
def Status.ok (st : Status) (o : OutcomeCode) : Status := { st with outcome := o }

/-- A command that ended UNCORRECTABLE with its sub-reason (10_state.md R33). -/
def Status.uncorrectable (st : Status) (d : DetailCode) : Status :=
  { st with outcome := .uncorrectable, detail := d }

/-- The verdict of a checker: CLEAN or DETECTED (10_state.md R32). -/
def verdict (ok : Bool) : OutcomeCode := if ok then .clean else .detected

end Sys2Proof.Machine
end

