-- ==== Sys2Proof/Machine/Ops.lean ====
section
/-! DEFINITION. The shared operations: buffers, `emit`, `trace`, clearing the result state, raising an error,
and the frame every command runs in (spec/00_scope.md R10; spec/30_encoding.md R86; spec/60_exceptions.md
R251, R252, R254). -/

namespace Sys2Proof.Machine

/-! ## Buffers -/

/-- The canonical form of a buffer (log 7). -/
abbrev Memory.wf {w : Nat} (m : Memory w) : Prop :=
  m.Pairwise (fun a b => a.1 < b.1) ∧ ∀ c ∈ m, c.2 ≠ 0

/-- The value of element `i`; an unlisted element reads 0, its reset content (10_state.md R42). -/
def Memory.read {w : Nat} : Memory w → Nat → BitVec w
  | [], _ => 0
  | (j, v) :: m, i => if i = j then v else Memory.read m i

/-- `BUF[i] <- v`, keeping the canonical form: writing 0 removes the entry. -/
def Memory.write {w : Nat} : Memory w → Nat → BitVec w → Memory w
  | [], i, v => if v = 0 then [] else [(i, v)]
  | (j, u) :: m, i, v =>
    if i < j then (if v = 0 then (j, u) :: m else (i, v) :: (j, u) :: m)
    else if i = j then (if v = 0 then m else (i, v) :: m)
    else (j, u) :: Memory.write m i v

/-- `BUF[i..] <- vs`, one element after another from index `i` upward (46_laws_and_absent_classes.md R303). -/
def Memory.writeSeq {w : Nat} : Memory w → Nat → List (BitVec w) → Memory w
  | m, _, [] => m
  | m, i, v :: vs => Memory.writeSeq (Memory.write m i v) (i + 1) vs

/-- Elements `0 .. n-1` in order: `BUF[0..n-1]` (00_scope.md R9, R10). -/
def Memory.take {w : Nat} (m : Memory w) (n : Nat) : List (BitVec w) := (List.range n).map m.read

/-! ## Result state -/

/-- Clearing (60_exceptions.md R251): all result state to 0, `STATUS.DONE` kept. -/
def clearResults (r : ResultState) : ResultState :=
  { ResultState.zero with status := { Status.zero with done := r.status.done } }

/-- `raise <Error>` on a result state that clearing left (60_exceptions.md R252): the code in `STATUS.ERR`,
`DONE` set, nothing else. There is no handler, nothing is saved, and there is no return (R257). -/
def raise (e : ErrorCode) (r : ResultState) : ResultState :=
  { r with status := { r.status with done := true, err := e } }

/-- `STATUS.DONE <- 1` (30_encoding.md R86). -/
def setDone (r : ResultState) : ResultState := { r with status := { r.status with done := true } }

/-- `emit(S)`: `OBUF[0..len(S)-1] <- S`, `OLEN <- len(S)` (00_scope.md R10). -/
def emit (S : List Symbol) (r : ResultState) : ResultState :=
  { r with obuf := r.obuf.writeSeq 0 S, olen := BitVec.ofNat 32 S.length }

/-- One trace record (10_state.md R38). -/
structure TraceRecord where
  flags : Word
  vlo   : Word
  vhi   : Word
  tot   : Word
deriving DecidableEq, Repr

/-- `trace(rec)`: `TBUF[TLEN] <- rec`, `TLEN <- TLEN + 1` (00_scope.md R10). -/
def trace (r : ResultState) (t : TraceRecord) : ResultState :=
  { r with tbuf := r.tbuf.writeSeq (4 * r.tlen.toNat) [t.flags, t.vlo, t.vhi, t.tot], tlen := r.tlen + 1 }

/-- A whole trace, in step order, record 0 first (60_exceptions.md R261). -/
def traceAll (r : ResultState) (ts : List TraceRecord) : ResultState := ts.foldl trace r

/-! ## The frame of a command -/

/-- A family rule: from the operand state and the cleared result state, either the error it raises or the
result state it leaves. It sees nothing else (10_state.md R23). -/
abbrev Rule := OperandState → ResultState → Except ErrorCode ResultState

/-- BUFFER_RANGE: `ILEN > IMAX`, or a CRC command and `DLEN > DMAX` (60_exceptions.md R254). -/
def outOfRange (usesDivisor : Bool) (p : Params) (op : OperandState) : Bool :=
  decide (p.imax < op.ilen.toNat) || (usesDivisor && decide (p.dmax < op.dlen.toNat))

/-- The result state a legal command leaves: clear, range checks, family rule, `DONE` (30_encoding.md R86). -/
def commandResult (usesDivisor : Bool) (rule : Rule) (p : Params) (op : OperandState) (r : ResultState) :
    ResultState :=
  let r0 := clearResults r
  if outOfRange usesDivisor p op then raise .bufferRange r0
  else match rule op r0 with
    | .error e => raise e r0
    | .ok r1 => setDone r1

/-- A legal command: it writes result state only (10_state.md R22) and always completes
(70_reset_and_hazards.md R288). -/
def runCommand (usesDivisor : Bool) (rule : Rule) (s : State) : Host.Outcome State Fault Refusal :=
  .next { s with res := commandResult usesDivisor rule s.params s.op s.res }

/-- An illegal command word: ILLEGAL_COMMAND, whatever the operand state is (60_exceptions.md R253). -/
def illegalCommand (s : State) : State :=
  { s with res := raise .illegalCommand (clearResults s.res) }

/-- Applying the reset input (70_reset_and_hazards.md R280, R281): every piece of state takes its reset value;
the parameters are not state, and the host's later accesses are still to come (log 8). -/
def applyReset (s : State) : State := { State.resetWith s.params with pending := s.pending }

end Sys2Proof.Machine
end

