-- ==== Sys2Proof/Machine/Operands.lean ====
section
/-! DEFINITION. The symbol front-end: symbol codes, the shared BitString utilities, and every operand form the
commands read, with its checks (spec/00_scope.md R11, R12; spec/40_bitstring.md; spec/44_checksum.md R190 to
R192; spec/45_twod_parity.md R220, R221). -/

namespace Sys2Proof.Machine

/-! ## Symbols (00_scope.md R11, R12) -/

/-- `'0'`. -/
def sym0 : Symbol := 0x30
/-- `'1'`. -/
def sym1 : Symbol := 0x31
/-- Space. -/
def symSpace : Symbol := 0x20
/-- Horizontal tab. -/
def symTab : Symbol := 0x09
/-- Line feed. -/
def symLF : Symbol := 0x0A
/-- Carriage return. -/
def symCR : Symbol := 0x0D

/-- `isbin(s)`. -/
def isBin (s : Symbol) : Bool := s == sym0 || s == sym1

/-- `bit(s) = s - 0x30`, as a Boolean; used only where `isBin s`. -/
def bitOf (s : Symbol) : Bool := s == sym1

/-- `sym(b) = 0x30 + b`. -/
def sym (b : Bool) : Symbol := if b then sym1 else sym0

/-- `bits(S)`. -/
def bits (S : List Symbol) : List Bool := S.map bitOf

/-- `syms(B)`. -/
def syms (B : List Bool) : List Symbol := B.map sym

/-! ## BitString utilities (40_bitstring.md) -/

/-- `validate(S)` (R101). -/
def validate (S : List Symbol) : Bool := decide (1 ≤ S.length) && S.all isBin

/-- `ones(B)` (R103). -/
def ones (B : List Bool) : Nat := B.count true

/-- `xor(a, b)`, which fails with LENGTH_MISMATCH (R104). -/
def xorBits (a b : List Bool) : Except ErrorCode (List Bool) :=
  if a.length ≠ b.length then .error .lengthMismatch else .ok (List.zipWith xor a b)

/-- `zeros(k)`: `k` zero bits. -/
def zeros (k : Nat) : List Bool := List.replicate k false

/-- `isPowerOfTwo(n)` (R106). -/
def isPowerOfTwo (n : Nat) : Bool := decide (0 < n) && (n &&& (n - 1)) == 0

/-- `par(B) = ones(B) mod 2` (R107). -/
def par (B : List Bool) : Bool := ones B % 2 == 1

/-- `flip(b) = 1 - b` (R107). -/
def flipBit (b : Bool) : Bool := !b

/-! ## Operand strings -/

/-- The operand string `S = IBUF[0..ILEN-1]` (00_scope.md R10). -/
def operand (op : OperandState) : List Symbol := op.ibuf.take op.ilen.toNat

/-- The divisor string `Gs = DBUF[0..DLEN-1]` (43_crc.md R170). -/
def divisor (op : OperandState) : List Symbol := op.dbuf.take op.dlen.toNat

/-- The string result `OBUF[0..OLEN-1]` (10_state.md R37). -/
def output (r : ResultState) : List Symbol := r.obuf.take r.olen.toNat

/-- One BitString operand (40_bitstring.md R102): INVALID_EMPTY, then INVALID_SYMBOL. -/
def checkBits (S : List Symbol) : Except ErrorCode (List Bool) :=
  if S.length = 0 then .error .invalidEmpty
  else if S.all isBin then .ok (bits S)
  else .error .invalidSymbol

/-- A Hamming operand (42_hamming.md R145, R149): a BitString, then TOO_SHORT below 4 symbols. -/
def checkHamming (S : List Symbol) : Except ErrorCode (List Bool) :=
  match checkBits S with
  | .error e => .error e
  | .ok B => if B.length < 4 then .error .tooShort else .ok B

/-- The two operands of a CRC command (43_crc.md R171). -/
def checkCrc (S G : List Symbol) : Except ErrorCode (List Bool × List Bool) :=
  if S.length = 0 ∨ G.length = 0 then .error .invalidEmpty
  else if !(S.all isBin && G.all isBin) then .error .invalidSymbol
  else if G.length < 2 then .error .divisorTooShort
  else if G.length ≥ S.length then .error .divisorTooLong
  else .ok (bits S, bits G)

/-! ## Splitting text -/

/-- The pieces of `S` between the symbols that satisfy `p`, empty pieces included: one more piece than there
are such symbols (45_twod_parity.md R220). -/
def splitText (p : Symbol → Bool) : List Symbol → List (List Symbol)
  | [] => [[]]
  | s :: S =>
    match p s, splitText p S with
    | true, rest => [] :: rest
    | false, [] => [[s]]
    | false, piece :: rest => (s :: piece) :: rest

/-! ## Hex byte tokens (44_checksum.md R190 to R192) -/

/-- The four separators of R190. -/
def isWhitespace (s : Symbol) : Bool := s == symSpace || s == symTab || s == symLF || s == symCR

/-- `tokens(S)`: the maximal runs of symbols that are not whitespace, in order (R190). -/
def tokens (S : List Symbol) : List (List Symbol) := (splitText isWhitespace S).filter (fun t => !t.isEmpty)

/-- `hexval(s)`, upper-case digits only (R191). -/
def hexval (s : Symbol) : Option Nat :=
  if 0x30 ≤ s.toNat ∧ s.toNat ≤ 0x39 then some (s.toNat - 0x30)
  else if 0x41 ≤ s.toNat ∧ s.toNat ≤ 0x46 then some (s.toNat - 0x37)
  else none

/-- `byteval(t)`; `none` stands for INVALID_BYTE (R191). -/
def byteval (t : List Symbol) : Option Nat :=
  match t with
  | [a] => hexval a
  | [a, b] =>
    match hexval a, hexval b with
    | some x, some y => some (16 * x + y)
    | _, _ => none
  | _ => none

/-- `[byteval(t) for t in ts]`, `none` if some token fails. -/
def bytevals : List (List Symbol) → Option (List Nat)
  | [] => some []
  | t :: ts =>
    match byteval t, bytevals ts with
    | some b, some bs => some (b :: bs)
    | _, _ => none

/-- Checks 1 and 2 of R192, then the byte list; `least` is the fewest tokens of check 3 (2 for CSUM.VER). -/
def checkBytes (least : Nat) (S : List Symbol) : Except ErrorCode (List Nat) :=
  if (tokens S).length = 0 then .error .invalidEmpty
  else match bytevals (tokens S) with
    | none => .error .invalidByte
    | some bs => if bs.length < least then .error .tooFewTokens else .ok bs

/-! ## Matrices (45_twod_parity.md R220 to R222) -/

/-- `rows(S)`: `S` split at every line feed (R220). -/
def rows (S : List Symbol) : List (List Symbol) := splitText (· == symLF) S

/-- The columns `C` of a matrix of equal rows. -/
def ncolsOf {α : Type} (M : List (List α)) : Nat := (M.headD []).length

/-- A matrix operand (R221). -/
def checkMatrix (S : List Symbol) : Except ErrorCode (List (List Bool)) :=
  if S.length = 0 ∨ (rows S).any (·.isEmpty) then .error .invalidEmpty
  else if !S.all (fun s => s == symLF || isBin s) then .error .invalidSymbol
  else if !(rows S).all (fun r => r.length == ncolsOf (rows S)) then .error .rowLengthMismatch
  else .ok ((rows S).map bits)

/-- `grid(A)`: the rows in order, one line feed between two rows and none after the last (R222). -/
def grid : List (List Bool) → List Symbol
  | [] => []
  | [r] => syms r
  | r :: rs => syms r ++ symLF :: grid rs

/-- Column `j` of a matrix. -/
def column (M : List (List Bool)) (j : Nat) : List Bool := M.map (fun r => r.getD j false)

end Sys2Proof.Machine
end

