-- ==== Sys2Proof/Machine/Checksum.lean ====
section
/-! DEFINITION. The unit `checksum_accum`: CSUM.GEN and CSUM.VER (spec/44_checksum.md). -/

namespace Sys2Proof.Machine

/-- A checksum step record (10_state.md R38): `KIND = 1`, the byte, the unreduced running total. -/
def csumRecord (b t : Nat) : TraceRecord :=
  { flags := 1, vlo := BitVec.ofNat 32 b, vhi := 0, tot := BitVec.ofNat 32 t }

/-- `accumulate` from the total `t` on: the final total and the records, exact (R193). -/
def accumulate (t : Nat) : List Nat → Nat × List TraceRecord
  | [] => (t, [])
  | b :: bs =>
    let rest := accumulate (t + b) bs
    (rest.1, csumRecord b (t + b) :: rest.2)

/-- The loop of `fold`, at most `fuel` passes (R194). -/
def foldFrom : Nat → Nat → Nat
  | 0, t => t
  | fuel + 1, t => if t > 0xFF then foldFrom fuel ((t &&& 0xFF) + (t >>> 8)) else t

/-- `fold(t)`: each pass strictly lowers a `t` above 0xFF, so `t` passes are enough (R194). -/
def fold (t : Nat) : Nat := foldFrom t t

/-- `reduce(t, v)` (R194). -/
def reduce (t : Nat) : ChecksumVariant → Nat
  | .mod256 => t % 256
  | .ones => fold t

/-- The checksum byte of a reduced sum (R196). -/
def checksumOf (f : Nat) : ChecksumVariant → Nat
  | .mod256 => (256 - f) % 256
  | .ones => 255 - f

/-- `expected(Bd, v)`: the checksum byte R196 computes for the byte list `Bd` (R197). -/
def expectedChecksum (Bd : List Nat) (v : ChecksumVariant) : Nat :=
  checksumOf (reduce (accumulate 0 Bd).1 v) v

/-- The reduced sum that CSUM.VER accepts (R197). -/
def acceptedSum : ChecksumVariant → Nat
  | .mod256 => 0
  | .ones => 0xFF

/-- `hexsym(d)` (R196). -/
def hexsym (d : Nat) : Symbol := if d ≤ 9 then BitVec.ofNat 8 (0x30 + d) else BitVec.ofNat 8 (0x37 + d)

/-- `hex2(c)` (R196). -/
def hex2 (c : Nat) : List Symbol := [hexsym (c >>> 4), hexsym (c &&& 0xF)]

/-- CSUM.GEN (R196). -/
def csumGenRule (v : ChecksumVariant) : Rule := fun op r =>
  match checkBytes 1 (operand op) with
  | .error e => .error e
  | .ok Bv =>
    let acc := accumulate 0 Bv
    let f := reduce acc.1 v
    let c := checksumOf f v
    let r := emit (hex2 c) (traceAll r acc.2)
    .ok { r with
      sum := BitVec.ofNat 32 acc.1
      fsum := BitVec.ofNat 8 f
      csum := BitVec.ofNat 8 c
      status := r.status.ok .generated }

/-- CSUM.VER (R197). -/
def csumVerRule (v : ChecksumVariant) : Rule := fun op r =>
  match checkBytes 2 (operand op) with
  | .error e => .error e
  | .ok Bv =>
    let acc := accumulate 0 Bv
    let f := reduce acc.1 v
    let valid := f == acceptedSum v
    let r := emit [] (traceAll r acc.2)
    .ok { r with
      sum := BitVec.ofNat 32 acc.1
      fsum := BitVec.ofNat 8 f
      csum := if valid then 0 else BitVec.ofNat 8 (expectedChecksum Bv.dropLast v)
      status := r.status.ok (verdict valid) }

/-- CSUM.GEN. -/
def execCsumGen (v : ChecksumVariant) (s : State) : Host.Outcome State Fault Refusal :=
  runCommand false (csumGenRule v) s

/-- CSUM.VER. -/
def execCsumVer (v : ChecksumVariant) (s : State) : Host.Outcome State Fault Refusal :=
  runCommand false (csumVerRule v) s

end Sys2Proof.Machine
end

