-- ==== Sys2Proof/Machine/Crc.lean ====
section
/-! DEFINITION. The unit `crc_poly_divider`: CRC.GEN and CRC.CHK (spec/43_crc.md). -/

namespace Sys2Proof.Machine

/-- The integer of a window, leading bit most significant (10_state.md R38). -/
def windowValue (W : List Bool) : Nat := W.foldl (fun v b => 2 * v + b.toNat) 0

/-- A CRC step record (10_state.md R38): `KIND = 0`, `SEL`, `INV`, `INB`, and the window before the XOR. -/
def crcRecord (W : List Bool) (sel : Bool) (shifted : Option Bool) : TraceRecord :=
  let inv := shifted.isSome
  let inb := shifted.getD false
  { flags := 0#28 ++ BitVec.ofBool inb ++ BitVec.ofBool inv ++ BitVec.ofBool sel ++ 0#1
    vlo := BitVec.ofNat 32 (windowValue W)
    vhi := BitVec.ofNat 32 (windowValue W >>> 32)
    tot := 0 }

/-- The row XORed in one step: the divisor when the leading bit is 1, else zeros (43_crc.md R172). -/
def crcRow (sel : Bool) (G : List Bool) : List Bool := if sel then G else zeros G.length

/-- The steps of R172 from the window `W` with the bits `pending` still to be shifted in: the remainder and the
records, in step order. -/
def crcSteps (G : List Bool) : List Bool → List Bool → Except ErrorCode (List Bool × List TraceRecord)
  | W, [] =>
    let sel := W.headD false
    match xorBits W (crcRow sel G) with
    | .error e => .error e
    | .ok T => .ok (T.tail, [crcRecord W sel none])
  | W, d :: pending =>
    let sel := W.headD false
    match xorBits W (crcRow sel G) with
    | .error e => .error e
    | .ok T =>
      match crcSteps G (T.tail ++ [d]) pending with
      | .error e => .error e
      | .ok (R, recs) => .ok (R, crcRecord W sel (some d) :: recs)

/-- `crcdiv(Dv, G)` (R172). -/
def crcdiv (Dv G : List Bool) : Except ErrorCode (List Bool × List TraceRecord) :=
  crcSteps G (Dv.take G.length) (Dv.drop G.length)

/-- CRC.GEN (R175). -/
def crcGenRule : Rule := fun op r =>
  let S := operand op
  match checkCrc S (divisor op) with
  | .error e => .error e
  | .ok (D, G) =>
    match crcdiv (D ++ zeros (G.length - 1)) G with
    | .error e => .error e
    | .ok (R, recs) =>
      let r := emit (S ++ syms R) (traceAll r recs)
      .ok { r with
        rlen := BitVec.ofNat 16 (G.length - 1)
        status := r.status.ok .generated }

/-- CRC.CHK (R176). -/
def crcChkRule : Rule := fun op r =>
  match checkCrc (operand op) (divisor op) with
  | .error e => .error e
  | .ok (D, G) =>
    match crcdiv D G with
    | .error e => .error e
    | .ok (R, recs) =>
      let r := emit (syms R) (traceAll r recs)
      .ok { r with
        rlen := BitVec.ofNat 16 (G.length - 1)
        status := r.status.ok (verdict (ones R == 0)) }

/-- CRC.GEN. -/
def execCrcGen (s : State) : Host.Outcome State Fault Refusal := runCommand true crcGenRule s

/-- CRC.CHK. -/
def execCrcChk (s : State) : Host.Outcome State Fault Refusal := runCommand true crcChkRule s

end Sys2Proof.Machine
end

