-- ==== Sys2Proof/Machine/Hamming.lean ====
section
/-! DEFINITION. The units `hamming_syndrome_calc` and `hamming_error_correct`: HAM.ENC and HAM.DEC
(spec/42_hamming.md). A codeword is a bit list; position `k` (1-indexed) is element `k-1` (R140). -/

namespace Sys2Proof.Machine

/-- The least `p' ≥ p` with `2^p' ≥ m + p' + 1`, looked for in at most `fuel` further steps. -/
def pcEncFrom (m : Nat) : Nat → Nat → Nat
  | 0, p => p
  | fuel + 1, p => if m + p + 1 ≤ 2 ^ p then p else pcEncFrom m fuel (p + 1)

/-- `pc_enc(m)`: the least `p` with `2^p ≥ m + p + 1` (R141); `m + 1` is always such a `p`. -/
def pcEnc (m : Nat) : Nat := pcEncFrom m (m + 1) 0

/-- `pc_dec(n) = floor(log2(n)) + 1` (R148). -/
def pcDec (n : Nat) : Nat := Nat.log2 n + 1

/-- `place` from position `pos` on, for `k` positions: 0 at the powers of two, the data bits in order
elsewhere (R142). -/
def placeFrom (pos : Nat) : Nat → List Bool → List Bool
  | 0, _ => []
  | k + 1, D =>
    if isPowerOfTwo pos then false :: placeFrom (pos + 1) k D
    else D.headD false :: placeFrom (pos + 1) k D.tail

/-- `place(D, n)` (R142). -/
def place (D : List Bool) (n : Nat) : List Bool := placeFrom 1 n D

/-- `extract` from position `pos` on: the bits at positions that are not powers of two (R142). -/
def extractFrom (pos : Nat) : List Bool → List Bool
  | [] => []
  | b :: C => if isPowerOfTwo pos then extractFrom (pos + 1) C else b :: extractFrom (pos + 1) C

/-- `extract(C, n)` with `n = len(C)` (R142). -/
def extract (C : List Bool) : List Bool := extractFrom 1 C

/-- The bits of `C`, standing from position `pos` on, whose position has bit `q` set (R143). -/
def covered (q : Nat) (pos : Nat) : List Bool → List Bool
  | [] => []
  | b :: C => if (pos >>> q) &&& 1 = 1 then b :: covered q (pos + 1) C else covered q (pos + 1) C

/-- `chk(C, n, q)`: the XOR of the covered bits, 0 when there is none (R143). -/
def chk (C : List Bool) (q : Nat) : Bool := par (covered q 1 C)

/-- `syn(C, n, P)`: the sum of `2^q` over the checks `q < P` that fail (R143). -/
def syn (C : List Bool) (P : Nat) : Nat := ((List.range P).map (fun q => if chk C q then 2 ^ q else 0)).sum

/-- Writing the parity bits in the order `q = 0 .. p-1`, each computed while its own position still holds 0
(R146). -/
def setParities (C : List Bool) (p : Nat) : List Bool :=
  (List.range p).foldl (fun C q => C.set (2 ^ q - 1) (chk C q)) C

/-- The codeword of the data bits `D` (R146). -/
def hammingEncode (D : List Bool) : List Bool :=
  let p := pcEnc D.length
  setParities (place D (D.length + p)) p

/-- `C` with position `k` flipped (R150). -/
def flipAt (C : List Bool) (k : Nat) : List Bool := C.set (k - 1) (flipBit (C.getD (k - 1) false))

/-- HAM.ENC (R146). -/
def hamEncRule : Rule := fun op r =>
  match checkHamming (operand op) with
  | .error e => .error e
  | .ok D =>
    let r := emit (syms (hammingEncode D)) r
    .ok { r with
      npar := BitVec.ofNat 4 (pcEnc D.length)
      status := r.status.ok .generated }

/-- HAM.DEC: the decision policy of R150. -/
def hamDecRule : Rule := fun op r =>
  match checkHamming (operand op) with
  | .error e => .error e
  | .ok C =>
    let n := C.length
    let P := pcDec n
    let s := syn C P
    let r := { r with npar := BitVec.ofNat 4 P, synd := BitVec.ofNat 16 s }
    if s = 0 then
      .ok (emit (syms (extract C)) { r with status := r.status.ok .clean })
    else if s ≤ n then
      let C2 := flipAt C s
      let s2 := syn C2 P
      let r := { r with synd2 := BitVec.ofNat 16 s2 }
      if s2 = 0 then
        .ok (emit (syms (extract C2)) { r with epos := BitVec.ofNat 16 s, status := r.status.ok .corrected })
      else
        .ok (emit (syms (extract C)) { r with status := r.status.uncorrectable .multiBit })
    else
      .ok (emit (syms (extract C)) { r with status := r.status.uncorrectable .syndromeOutOfRange })

/-- HAM.ENC. -/
def execHamEnc (s : State) : Host.Outcome State Fault Refusal := runCommand false hamEncRule s

/-- HAM.DEC. -/
def execHamDec (s : State) : Host.Outcome State Fault Refusal := runCommand false hamDecRule s

end Sys2Proof.Machine
end

