-- ==== Sys2Proof/Machine/Parity.lean ====
section
/-! DEFINITION. The unit `parity_gen`: PAR.GEN and PAR.CHK (spec/41_parity.md). -/

namespace Sys2Proof.Machine

/-- The convention as the bit `m` (41_parity.md R120; 30_encoding.md R83). -/
def isOdd : ParityMode → Bool
  | .even => false
  | .odd => true

/-- `pbit(B, m) = par(B) ^ m` (R120). -/
def pbit (B : List Bool) (m : ParityMode) : Bool := xor (par B) (isOdd m)

/-- PAR.GEN (R123). -/
def parGenRule (m : ParityMode) : Rule := fun op r =>
  let S := operand op
  match checkBits S with
  | .error e => .error e
  | .ok B =>
    let p := pbit B m
    let r := emit (S ++ [sym p]) r
    .ok { r with
      ones := BitVec.ofNat 16 (ones B)
      pbit := BitVec.ofBool p
      status := r.status.ok .generated }

/-- PAR.CHK (R124). -/
def parChkRule (m : ParityMode) : Rule := fun op r =>
  match checkBits (operand op) with
  | .error e => .error e
  | .ok B =>
    let body := B.dropLast
    let claimed := B.getLastD false
    let e := pbit body m
    let r := emit [] r
    .ok { r with
      ones := BitVec.ofNat 16 (ones body)
      pbit := BitVec.ofBool e
      rbit := BitVec.ofBool claimed
      status := r.status.ok (verdict (claimed == e)) }

/-- PAR.GEN. -/
def execParGen (m : ParityMode) (s : State) : Host.Outcome State Fault Refusal :=
  runCommand false (parGenRule m) s

/-- PAR.CHK. -/
def execParChk (m : ParityMode) (s : State) : Host.Outcome State Fault Refusal :=
  runCommand false (parChkRule m) s

end Sys2Proof.Machine
end

