-- ==== Sys2Proof/Machine/TwoDParity.lean ====
section
/-! DEFINITION. The unit `twod_parity_checker`: P2D.GEN and P2D.VER (spec/45_twod_parity.md). Rows and columns
are numbered from 0 (R223). -/

namespace Sys2Proof.Machine

/-- A row with its parity bit appended, even convention (R224). -/
def augmentRow (row : List Bool) : List Bool := row ++ [par row]

/-- The parity of every column `0 .. n-1` of a matrix. -/
def columnParities (M : List (List Bool)) (n : Nat) : List Bool := (List.range n).map (fun j => par (column M j))

/-- The generated matrix: row parities first, then the parity row over every column of the augmented matrix,
the parity column included (R224). -/
def augmentMatrix (M : List (List Bool)) : List (List Bool) :=
  let A := M.map augmentRow
  A ++ [columnParities A (ncolsOf M + 1)]

/-- `M` with cell (i, j) flipped (R225). -/
def flipCell (M : List (List Bool)) (i j : Nat) : List (List Bool) :=
  M.set i ((M.getD i []).set j (flipBit ((M.getD i []).getD j false)))

/-- `emit(grid(A))`, `NROWS`, `NCOLS` (R222). -/
def emitGrid (A : List (List Bool)) (r : ResultState) : ResultState :=
  { emit (grid A) r with nrows := BitVec.ofNat 16 A.length, ncols := BitVec.ofNat 16 (ncolsOf A) }

/-- P2D.GEN (R224). -/
def p2dGenRule : Rule := fun op r =>
  match checkMatrix (operand op) with
  | .error e => .error e
  | .ok M =>
    let r := emitGrid (augmentMatrix M) r
    .ok { r with status := r.status.ok .generated }

/-- P2D.VER (R225). -/
def p2dVerRule : Rule := fun op r =>
  match checkMatrix (operand op) with
  | .error e => .error e
  | .ok M =>
    let rs := M.map par
    let cs := columnParities M (ncolsOf M)
    let r := { r with
      rmis := r.rmis.writeSeq 0 (rs.map BitVec.ofBool)
      cmis := r.cmis.writeSeq 0 (cs.map BitVec.ofBool)
      rcnt := BitVec.ofNat 16 (ones rs)
      ccnt := BitVec.ofNat 16 (ones cs) }
    if ones rs = 0 ∧ ones cs = 0 then
      .ok (emitGrid M { r with status := r.status.ok .clean })
    else if ones rs = 1 ∧ ones cs = 1 then
      let i0 := rs.idxOf true
      let j0 := cs.idxOf true
      .ok (emitGrid (flipCell M i0 j0)
        { r with
          erow := BitVec.ofNat 16 i0
          ecol := BitVec.ofNat 16 j0
          status := r.status.ok .corrected })
    else
      .ok (emitGrid M { r with status := r.status.uncorrectable .mismatchPattern })

/-- P2D.GEN. -/
def execP2dGen (s : State) : Host.Outcome State Fault Refusal := runCommand false p2dGenRule s

/-- P2D.VER. -/
def execP2dVer (s : State) : Host.Outcome State Fault Refusal := runCommand false p2dVerRule s

end Sys2Proof.Machine
end

