-- ==== Sys2Proof/Machine/Dispatch.lean ====
section
/-! DEFINITION. The meaning of every command: what a write of its word to `CMD` does after the word is stored
(spec/30_encoding.md R82, R86). -/

namespace Sys2Proof.Machine

def exec (i : Instr) (s : State) : Host.Outcome State Fault Refusal :=
  match i with
  | .parGen mode => Sys2Proof.Machine.execParGen mode s
  | .parChk mode => Sys2Proof.Machine.execParChk mode s
  | .hamEnc => Sys2Proof.Machine.execHamEnc s
  | .hamDec => Sys2Proof.Machine.execHamDec s
  | .crcGen => Sys2Proof.Machine.execCrcGen s
  | .crcChk => Sys2Proof.Machine.execCrcChk s
  | .csumGen variant => Sys2Proof.Machine.execCsumGen variant s
  | .csumVer variant => Sys2Proof.Machine.execCsumVer variant s
  | .p2dGen => Sys2Proof.Machine.execP2dGen s
  | .p2dVer => Sys2Proof.Machine.execP2dVer s

end Sys2Proof.Machine
end

