-- ==== Sys2Proof/Machine/Port.lean ====
section
/-! DEFINITION. The host port: the address map, what a read returns, what a write does, and one host action
(spec/20_memory.md; spec/10_state.md R24 to R39; spec/30_encoding.md R86). -/

namespace Sys2Proof.Machine

/-- The scalar registers of 20_memory.md R62. -/
inductive Reg where
  | cmd | status | ilen | dlen | olen | tlen | ones | pbit | rbit | npar | synd | synd2
  | epos | rlen | sum | fsum | csum | nrows | ncols | rcnt | ccnt | erow | ecol | cap
deriving DecidableEq, Repr

/-- A location of the address map (20_memory.md R62). -/
inductive Loc where
  | reg (r : Reg)
  | ibuf (i : Nat)
  | dbuf (i : Nat)
  | obuf (i : Nat)
  /-- `TBUF[j]` word `w`. -/
  | tbuf (j w : Nat)
  | rmis (i : Nat)
  | cmis (i : Nat)
deriving DecidableEq, Repr

/-- The offset of a register (20_memory.md R62). -/
def Reg.off : Reg → Nat
  | .cmd => 0x00
  | .status => 0x04
  | .ilen => 0x08
  | .dlen => 0x0C
  | .olen => 0x10
  | .tlen => 0x14
  | .ones => 0x18
  | .pbit => 0x1C
  | .rbit => 0x20
  | .npar => 0x24
  | .synd => 0x28
  | .synd2 => 0x2C
  | .epos => 0x30
  | .rlen => 0x34
  | .sum => 0x38
  | .fsum => 0x3C
  | .csum => 0x40
  | .nrows => 0x44
  | .ncols => 0x48
  | .rcnt => 0x4C
  | .ccnt => 0x50
  | .erow => 0x54
  | .ecol => 0x58
  | .cap => 0x5C

/-- `off(loc)` (20_memory.md R62). For an index outside R62's range the spec gives no `off(loc)` and the formula of
the row is taken as it stands. DESIGN CHOICE (log 14): just past a window it gives an unmapped offset, R63's access
error; from index 0x10000 on `IBUF[i]` has the offset of an element of a later window. -/
def Loc.off : Loc → Nat
  | .reg r => r.off
  | .ibuf i => 0x040000 + 4 * i
  | .dbuf i => 0x080000 + 4 * i
  | .obuf i => 0x0C0000 + 4 * i
  | .tbuf j w => 0x100000 + 16 * j + 4 * w
  | .rmis i => 0x140000 + 4 * i
  | .cmis i => 0x180000 + 4 * i

/-- The location exists in a block with the parameters `p` (20_memory.md R62, column "elements"). -/
abbrev Loc.mapped (p : Params) : Loc → Prop
  | .reg _ => True
  | .ibuf i => i < p.imax
  | .dbuf i => i < p.dmax
  | .obuf i => i < p.omax
  | .tbuf j w => j < p.tmax ∧ w < 4
  | .rmis i => i < p.imax
  | .cmis i => i < p.imax

/-- The size of the register space (10_state.md R40; 20_memory.md R60). -/
def regSpace : Nat := 0x1C0000

/-- The registers in the order of their offsets 0x00, 0x04, ... (20_memory.md R62). -/
def regTable : List Reg :=
  [.cmd, .status, .ilen, .dlen, .olen, .tlen, .ones, .pbit, .rbit, .npar, .synd, .synd2, .epos, .rlen, .sum,
   .fsum, .csum, .nrows, .ncols, .rcnt, .ccnt, .erow, .ecol, .cap]

/-- Element `e` of the window that starts at `k * 0x40000` (20_memory.md R62). -/
def windowElement (p : Params) (k e : Nat) : Option Loc :=
  match k with
  | 0 => (regTable[e]?).map .reg
  | 1 => if e < p.imax then some (.ibuf e) else none
  | 2 => if e < p.dmax then some (.dbuf e) else none
  | 3 => if e < p.omax then some (.obuf e) else none
  | 4 => if e / 4 < p.tmax then some (.tbuf (e / 4) (e % 4)) else none
  | 5 => if e < p.imax then some (.rmis e) else none
  | 6 => if e < p.imax then some (.cmis e) else none
  | _ => none

/-- The location at an offset that is a multiple of 4; `none` is unmapped (20_memory.md R62, R63). -/
def locAt (p : Params) (off : Nat) : Option Loc := windowElement p (off / 0x40000) (off % 0x40000 / 4)

/-- The access the port performs, or its access error: width (20_memory.md R61), alignment (R67), mapping (R63).
Where several hold the first is named (log 4). -/
def locate (p : Params) (width addr : Nat) : Except AccessError Loc :=
  if width ≠ 32 then .error .width
  else if addr % 4 ≠ 0 then .error .misaligned
  else if addr < p.base then .error .unmapped
  else match locAt p (addr - p.base) with
    | none => .error .unmapped
    | some l => .ok l

/-- `CAP`: [15:0] = IMAX, [23:16] = DMAX, [31:24] = 0 (10_state.md R34). -/
def capWord (p : Params) : Word := 0#8 ++ BitVec.ofNat 8 p.dmax ++ BitVec.ofNat 16 p.imax

/-- What a read of a register returns; a register narrower than 32 bits reads with its upper bits zero
(10_state.md section 2, R24 to R34). -/
def readReg (s : State) : Reg → Word
  | .cmd => s.cmd
  | .status => statusWord s.res.status
  | .ilen => s.op.ilen.setWidth 32
  | .dlen => s.op.dlen.setWidth 32
  | .olen => s.res.olen
  | .tlen => s.res.tlen
  | .ones => s.res.ones.setWidth 32
  | .pbit => s.res.pbit.setWidth 32
  | .rbit => s.res.rbit.setWidth 32
  | .npar => s.res.npar.setWidth 32
  | .synd => s.res.synd.setWidth 32
  | .synd2 => s.res.synd2.setWidth 32
  | .epos => s.res.epos.setWidth 32
  | .rlen => s.res.rlen.setWidth 32
  | .sum => s.res.sum
  | .fsum => s.res.fsum.setWidth 32
  | .csum => s.res.csum.setWidth 32
  | .nrows => s.res.nrows.setWidth 32
  | .ncols => s.res.ncols.setWidth 32
  | .rcnt => s.res.rcnt.setWidth 32
  | .ccnt => s.res.ccnt.setWidth 32
  | .erow => s.res.erow.setWidth 32
  | .ecol => s.res.ecol.setWidth 32
  | .cap => capWord s.params

/-- What a read of a location returns, a buffer element zero-extended (10_state.md R35 to R39). -/
def readLoc (s : State) : Loc → Word
  | .reg r => readReg s r
  | .ibuf i => (s.op.ibuf.read i).setWidth 32
  | .dbuf i => (s.op.dbuf.read i).setWidth 32
  | .obuf i => (s.res.obuf.read i).setWidth 32
  | .tbuf j w => s.res.tbuf.read (4 * j + w)
  | .rmis i => (s.res.rmis.read i).setWidth 32
  | .cmis i => (s.res.cmis.read i).setWidth 32

/-- A write to `CMD`: the word is stored, then executed as a command (10_state.md R30; 30_encoding.md R86; log 11). -/
def writeCmd (c : Word) (s : State) : Host.Outcome State Fault Refusal :=
  let s := { s with cmd := c }
  match decode c with
  | .ok i => exec i s
  | .error _ => .next (illegalCommand s)

/-- What a write to a location does: `CMD` executes (R30), `ILEN` and `DLEN` keep bits [15:0] (R24, R25), an
element of `IBUF` or `DBUF` keeps bits [7:0] (R35, R36), and a read-only location ignores it
(20_memory.md R64). -/
def writeLoc (l : Loc) (v : Word) (s : State) : Host.Outcome State Fault Refusal :=
  match l with
  | .reg .cmd => writeCmd v s
  | .reg .ilen => .next { s with op := { s.op with ilen := v.setWidth 16 } }
  | .reg .dlen => .next { s with op := { s.op with dlen := v.setWidth 16 } }
  | .ibuf i => .next { s with op := { s.op with ibuf := s.op.ibuf.write i (v.setWidth 8) } }
  | .dbuf i => .next { s with op := { s.op with dbuf := s.op.dbuf.write i (v.setWidth 8) } }
  | .reg _ | .obuf _ | .tbuf _ _ | .rmis _ | .cmis _ => .next s

/-- One host action (20_memory.md R60 to R68; 70_reset_and_hazards.md R280). -/
def performAction (a : HostAction) (s : State) : Host.Outcome State Fault Refusal :=
  match a with
  | .reset => .next (applyReset s)
  | .read width addr =>
    match locate s.params width addr with
    | .error e => .refused (.accessError e)
    | .ok l => .next { s with reply := .data (readLoc s l) }
  | .write width addr v =>
    match locate s.params width addr with
    | .error e => .refused (.accessError e)
    | .ok l => writeLoc l v { s with reply := .ack }

/-- The block's next action: the oldest access of the host; with none waiting the block holds its state
(60_exceptions.md section 9; log 1). -/
def nextAction (s : State) : Host.Outcome State Fault Refusal :=
  match s.pending with
  | [] => .next s
  | a :: rest => performAction a { s with pending := rest }

/-- `MemRead(BASE + off(l), 4)` (00_scope.md R10; 20_memory.md R60). -/
def memRead (p : Params) (l : Loc) : HostAction := .read 32 (p.base + l.off)

/-- `MemWrite(BASE + off(l), 4, v)` (00_scope.md R10; 20_memory.md R60). -/
def memWrite (p : Params) (l : Loc) (v : Word) : HostAction := .write 32 (p.base + l.off) v

end Sys2Proof.Machine
end

