-- ==== Sys2Proof/Machine/HostOps.lean ====
section
/-! DEFINITION. The host notation: primitive and pseudo-operations, their expansion into accesses, and programs
(spec/30_encoding.md R87, R88, R92). -/

namespace Sys2Proof.Machine

/-- One operation of the host notation (30_encoding.md R87, R88). -/
inductive HostOp where
  /-- `WR loc, v`. A location outside the map is taken at the offset of `Loc.off` (log 14). -/
  | wr (l : Loc) (v : Word)
  /-- `RD loc`. As `wr` for a location outside the map (log 14). -/
  | rd (l : Loc)
  /-- A command mnemonic: `WR CMD, w` with `w` its word. -/
  | cmd (i : Instr)
  /-- `LDI "t"`. -/
  | ldi (t : List Symbol)
  /-- `LDD "t"`. -/
  | ldd (t : List Symbol)
  /-- `MVO`. -/
  | mvo
  /-- `FLIP i`. As `wr` for an element outside the map; what it writes there is a choice of the model (log 14). -/
  | flip (i : Nat)
deriving DecidableEq, Repr

/-- The writes that put a text into a buffer (30_encoding.md R88). -/
def loadText (p : Params) (place : Nat → Loc) (t : List Symbol) : List HostAction :=
  t.zipIdx.map (fun c => memWrite p (place c.2) (c.1.setWidth 32))

/-- The accesses an operation expands to when it starts in the state `s`. The reads of `MVO` and `FLIP` return
what `s` holds, since their own writes go to `IBUF` only (20_memory.md R65; log 10). `MVO` is defined only when
`OLEN <= IMAX` (30_encoding.md R88). For a `FLIP i` of an element that no block has (`i` from 0x10000 on) the value
written is the unlisted element's 0 with its lowest bit changed, 1, and not the word its own read returns from the
later window. DESIGN CHOICE (log 14). -/
def HostOp.expand (s : State) : HostOp → Option (List HostAction)
  | .wr l v => some [memWrite s.params l v]
  | .rd l => some [memRead s.params l]
  | .cmd i => some [memWrite s.params (.reg .cmd) (encode i)]
  | .ldi t => some (loadText s.params .ibuf t ++ [memWrite s.params (.reg .ilen) (BitVec.ofNat 32 t.length)])
  | .ldd t => some (loadText s.params .dbuf t ++ [memWrite s.params (.reg .dlen) (BitVec.ofNat 32 t.length)])
  | .mvo =>
    let n := s.res.olen.toNat
    if n ≤ s.params.imax then
      some (memRead s.params (.reg .olen) ::
        ((List.range n).flatMap (fun i =>
          [memRead s.params (.obuf i), memWrite s.params (.ibuf i) (readLoc s (.obuf i))])
        ++ [memWrite s.params (.reg .ilen) (BitVec.ofNat 32 n)]))
    else none
  | .flip i =>
    some [memRead s.params (.ibuf i), memWrite s.params (.ibuf i) (readLoc s (.ibuf i) ^^^ 1)]

/-- The state with an operation's accesses placed for the block to perform. An operation starts when every access
before it has been performed, so it is expanded from the state it starts in; `none` while accesses wait, and where
the operation is not defined (30_encoding.md R88; log 10). -/
def issue (o : HostOp) (s : State) : Option State :=
  if s.pending = [] then (o.expand s).map (fun as => { s with pending := as }) else none

/-! ## Programs (30_encoding.md R92) -/

/-- Accesses performed one after another, up to the first that is refused (20_memory.md R68). -/
def performAll : List HostAction → State → Host.Outcome State Fault Refusal
  | [], s => .next s
  | a :: as, s =>
    match performAction a s with
    | .next t => performAll as t
    | .fault f => .fault f
    | .refused r => .refused r

/-- A program from a start state: the accesses it expands to, each operation from the state the operations before
it leave, and the end state, the one after the last access. `none` where an operation is not defined; at an access
error the run stops (log 4), and the accesses are those up to the end of that operation. DESIGN CHOICE (log 15). -/
def runProgram : List HostOp → State → Option (List HostAction × Host.Outcome State Fault Refusal)
  | [], s => some ([], .next s)
  | o :: os, s =>
    match o.expand s with
    | none => none
    | some as =>
      match performAll as s with
      | .next t => (runProgram os t).map (fun r => (as ++ r.1, r.2))
      | .fault f => some (as, .fault f)
      | .refused r => some (as, .refused r)

/-- One entry of a program's encoding: the offset, and the value of a write. -/
structure BusAccess where
  off   : Nat
  value : Option Word
deriving DecidableEq, Repr

/-- An access as an entry of the encoding; reset is no operation of the notation. -/
def HostAction.encoded (p : Params) : HostAction → Option BusAccess
  | .read _ addr => some { off := addr - p.base, value := none }
  | .write _ addr v => some { off := addr - p.base, value := some v }
  | .reset => none

/-- The encoding of a program that starts in the state `s`: its writes as (offset, value) and its reads as
(offset), in order. DESIGN CHOICE (log 15): where an access is an access error the encoding ends with the operation
it belongs to, and the operations after it are left out. -/
def encodeProgram (os : List HostOp) (s : State) : Option (List BusAccess) :=
  (runProgram os s).map (fun r => r.1.filterMap (HostAction.encoded s.params))

end Sys2Proof.Machine
end

