-- ==== Sys2Proof/Machine/Step.lean ====
section
/-! DEFINITION. One step: the block performs the host's oldest waiting access (spec/20_memory.md R68), a write to
`CMD` with the whole command it starts (spec/70_reset_and_hazards.md R286). -/

namespace Sys2Proof.Machine

/-- One step of the machine. -/
def step (s : State) : Host.Outcome State Fault Refusal := nextAction s

/-- The state with the write of the word `w` to `CMD` placed as the host's next access: the block fetches no
instruction (20_memory.md R70), so this is how a command comes to it (log 9). -/
def State.withFetchWord (s : State) (nbits w : Nat) : State :=
  { s with pending := memWrite s.params (.reg .cmd) (BitVec.ofNat 32 (w % 2 ^ nbits)) :: s.pending }

end Sys2Proof.Machine
end

