-- ==== Sys2Proof/Safety.lean ====
section
/-! DEFINITION. What a legal state is and what a host in contract does, in the terms the statements use
(spec/00_scope.md R6, R7; spec/10_state.md R31 to R39; spec/20_memory.md R60; spec/60_exceptions.md
R252), and the tables of the spec that statements refer to. -/

namespace Sys2Proof.Machine

/-- Every listed element of a buffer has an index below `n`: elements from `n` on read 0. -/
abbrev Memory.below {w : Nat} (m : Memory w) (n : Nat) : Prop := ∀ c ∈ m, c.1 < n

/-- Every buffer is in canonical form (log 7). -/
abbrev State.canonical (s : State) : Prop :=
  (s.op.ibuf.wf ∧ s.op.dbuf.wf) ∧ s.res.obuf.wf ∧ s.res.tbuf.wf ∧ s.res.rmis.wf ∧ s.res.cmis.wf

/-- Every buffer lists only elements that exist, and the result buffers only valid ones: `OBUF` below `OLEN`,
`TBUF` below `TLEN` records, `RMIS` below `NROWS`, `CMIS` below `NCOLS` (10_state.md R35 to R39), with
`OLEN <= OMAX` and `TLEN <= TMAX` (R26, R27; 00_scope.md R7). -/
abbrev State.bounded (s : State) : Prop :=
  (s.op.ibuf.below s.params.imax ∧ s.op.dbuf.below s.params.dmax) ∧
  (s.res.obuf.below s.res.olen.toNat ∧ s.res.olen.toNat ≤ s.params.omax) ∧
  (s.res.tbuf.below (4 * s.res.tlen.toNat) ∧ s.res.tlen.toNat ≤ s.params.tmax) ∧
  s.res.rmis.below s.res.nrows.toNat ∧ s.res.cmis.below s.res.ncols.toNat

/-- The result state of a command that ended in the error `e` (60_exceptions.md R252). -/
def raised (e : ErrorCode) : ResultState :=
  { ResultState.zero with status := { Status.zero with done := true, err := e } }

/-- The discipline of `STATUS` and of the result state it reports on: before any command everything is at its
reset value; after an error everything but `ERR` and `DONE` is zero; after a command without error exactly one
outcome stands, with a detail exactly when it is UNCORRECTABLE (10_state.md R31 to R33; 60_exceptions.md R252). -/
abbrev ResultState.disciplined (r : ResultState) : Prop :=
  (r.status.done = false → r = ResultState.zero) ∧
  (r.status.done = true → r.status.err ≠ .none → r = raised r.status.err) ∧
  (r.status.done = true → r.status.err = .none → r.status.outcome ≠ .none) ∧
  (r.status.detail ≠ .none ↔ r.status.outcome = .uncorrectable)

/-- The codes the spec assigns and calls unreachable never stand: `ERR` LENGTH_MISMATCH (40_bitstring.md R105),
`DETAIL` MULTI_BIT, and with it `SYND2` reads 0 (42_hamming.md R152). -/
abbrev ResultState.reachable (r : ResultState) : Prop :=
  r.status.err ≠ .lengthMismatch ∧ r.status.detail ≠ .multiBit ∧ r.synd2 = 0

/-- The invariant of the machine. -/
structure State.Inv (s : State) : Prop where
  params : s.params.wf
  canonical : s.canonical
  bounded : s.bounded
  disciplined : s.res.disciplined
  reachable : s.res.reachable

/-- The host action is one the block performs: reset, or a 32-bit access to a mapped location
(20_memory.md R60, R62; 70_reset_and_hazards.md R280). -/
def HostAction.inContract (p : Params) : HostAction → Prop
  | .reset => True
  | .read width addr => width = 32 ∧ ∃ l : Loc, l.mapped p ∧ addr = p.base + l.off
  | .write width addr _ => width = 32 ∧ ∃ l : Loc, l.mapped p ∧ addr = p.base + l.off

/-- A safe state: the invariant holds and every waiting host action is in contract. A run from a safe state is
never refused. -/
structure State.Safe (s : State) : Prop where
  inv : s.Inv
  contract : ∀ a ∈ s.pending, a.inContract s.params

/-! ## The words the statements use -/

/-- Every symbol of the operand is `'0'` or `'1'` (00_scope.md R12). -/
abbrev State.binaryOperand (s : State) : Prop := ∀ x ∈ operand s.op, x = 0x30#8 ∨ x = 0x31#8

/-- Every symbol of the divisor is `'0'` or `'1'` (00_scope.md R12). -/
abbrev State.binaryDivisor (s : State) : Prop := ∀ x ∈ divisor s.op, x = 0x30#8 ∨ x = 0x31#8

/-- `S` with its symbol at index `k` turned from 0x30 to 0x31 or back: `FLIP k` (30_encoding.md R88). -/
def flipSymbol (S : List Symbol) (k : Nat) : List Symbol := S.set k (S.getD k 0 ^^^ 1)

/-- `OBUF` and `OLEN` hold exactly the string `S`: element `k` is `S[k]`, and 0x00 from `len(S)` on
(10_state.md R26, R37). -/
def ResultState.holdsOutput (r : ResultState) (S : List Symbol) : Prop :=
  r.olen.toNat = S.length ∧ ∀ k, r.obuf.read k = S.getD k 0

/-- The four words of a record in the order of their addresses (10_state.md R38). -/
def TraceRecord.words (t : TraceRecord) : List Word := [t.flags, t.vlo, t.vhi, t.tot]

/-- `TBUF` and `TLEN` hold exactly these records, and 0 from the last one on (10_state.md R27, R38). -/
def ResultState.holdsTrace (r : ResultState) (ts : List TraceRecord) : Prop :=
  r.tlen.toNat = ts.length ∧ ∀ k, r.tbuf.read k = (ts.flatMap TraceRecord.words).getD k 0

/-- The integer of a window: the sum over `i` of `W[i] * 2^(k-1-i)` (10_state.md R38). -/
def bitsValue : List Bool → Nat
  | [] => 0
  | b :: W => b.toNat * 2 ^ W.length + bitsValue W

/-- A window after the conditional XOR of one division step (43_crc.md R172). -/
def xorRow (W G : List Bool) : List Bool := if W.headD false then List.zipWith xor W G else W

/-- `recs` is the trace, and `R` the remainder, of the division of `Dv` by `G`: there are windows, the first the
leading bits of `Dv` and each next one the last after its XOR, with the leading bit dropped and the next bit of
`Dv` shifted in (43_crc.md R172), and record `j` reports window `j` before its XOR: `KIND = 0`, `SEL` the leading
bit, `INV` whether a bit is shifted in, `INB` that bit, the value in `VHI:VLO`, `TOT = 0` (10_state.md R38). -/
def divisionTrace (Dv G R : List Bool) (recs : List TraceRecord) : Prop :=
  ∃ W : Nat → List Bool,
    let last := Dv.length - G.length
    let next := fun j => Dv.getD (G.length + j) false
    W 0 = Dv.take G.length ∧
    (∀ j, j < last → W (j + 1) = (xorRow (W j) G).tail ++ [next j]) ∧
    R = (xorRow (W last) G).tail ∧
    recs.length = last + 1 ∧
    ∀ j, j ≤ last → ∃ r, recs[j]? = some r ∧
      r.flags.toNat = 2 * ((W j).headD false).toNat + (if j < last then 4 + 8 * (next j).toNat else 0) ∧
      r.vlo.toNat + 2 ^ 32 * r.vhi.toNat = bitsValue (W j) ∧ r.tot = 0

/-- The hex digits in the order of their values (44_checksum.md R191). -/
def hexDigits : List Symbol :=
  [0x30, 0x31, 0x32, 0x33, 0x34, 0x35, 0x36, 0x37, 0x38, 0x39, 0x41, 0x42, 0x43, 0x44, 0x45, 0x46]

/-- The whitespace symbols (44_checksum.md R190). -/
def whitespace : List Symbol := [0x20, 0x09, 0x0A, 0x0D]

/-- `ts` are the maximal runs of `S` that are not whitespace, in order: `S` is whitespace, then each of `ts` with
the whitespace after it, where some stands between every two (44_checksum.md R190). -/
def tokenRuns (S : List Symbol) (ts : List (List Symbol)) : Prop :=
  ∃ (lead : List Symbol) (gaps : List (List Symbol)),
    gaps.length = ts.length ∧
    S = lead ++ (List.zipWith (· ++ ·) ts gaps).flatten ∧
    (∀ x ∈ lead, x ∈ whitespace) ∧
    (∀ g ∈ gaps, ∀ x ∈ g, x ∈ whitespace) ∧
    (∀ g ∈ gaps.dropLast, g ≠ []) ∧
    ∀ t ∈ ts, t ≠ [] ∧ ∀ x ∈ t, x ∉ whitespace

/-- The flags of a mismatch array are exactly these bits, and 0 from the last one on (10_state.md R39). -/
def Memory.holdsFlags (m : Memory 1) (fs : List Bool) : Prop :=
  ∀ k, m.read k = BitVec.ofBool (fs.getD k false)

/-- `STATUS` after a command that ended without error. -/
def finished (o : OutcomeCode) (d : DetailCode) : Status := { done := true, err := .none, outcome := o, detail := d }

/-- The locations a host write changes: column "access" of 20_memory.md R62. -/
def Loc.writable : Loc → Bool
  | .reg .cmd | .reg .ilen | .reg .dlen | .ibuf _ | .dbuf _ => true
  | .reg _ | .obuf _ | .tbuf _ _ | .rmis _ | .cmis _ => false

/-- The locations of the operand state (10_state.md R22). -/
def Loc.isOperand : Loc → Bool
  | .reg .ilen | .reg .dlen | .ibuf _ | .dbuf _ => true
  | .reg _ | .obuf _ | .tbuf _ _ | .rmis _ | .cmis _ => false

/-- The result registers a command writes when it ends without error: column "written by" of 10_state.md R28. -/
def writtenRegs : Instr → List Reg
  | .parGen _ => [.ones, .pbit]
  | .parChk _ => [.ones, .pbit, .rbit]
  | .hamEnc => [.npar]
  | .hamDec => [.npar, .synd, .synd2, .epos]
  | .crcGen | .crcChk => [.rlen]
  | .csumGen _ | .csumVer _ => [.sum, .fsum, .csum]
  | .p2dGen => [.nrows, .ncols]
  | .p2dVer => [.nrows, .ncols, .rcnt, .ccnt, .erow, .ecol]

/-- The seventeen result registers of 10_state.md R28. -/
def resultRegs : List Reg :=
  [.ones, .pbit, .rbit, .npar, .synd, .synd2, .epos, .rlen, .sum, .fsum, .csum, .nrows, .ncols, .rcnt, .ccnt,
   .erow, .ecol]

/-- The commands with a string output (10_state.md R37). -/
def hasOutput : Instr → Bool
  | .parChk _ | .csumVer _ => false
  | .parGen _ | .hamEnc | .hamDec | .crcGen | .crcChk | .csumGen _ | .p2dGen | .p2dVer => true

/-- The commands with a trace (60_exceptions.md R261). -/
def hasTrace : Instr → Bool
  | .crcGen | .crcChk | .csumGen _ | .csumVer _ => true
  | .parGen _ | .parChk _ | .hamEnc | .hamDec | .p2dGen | .p2dVer => false

/-- The outcomes a command can set without error: column "set by" of 10_state.md R32. -/
def outcomesOf : Instr → List OutcomeCode
  | .parGen _ | .hamEnc | .crcGen | .csumGen _ | .p2dGen => [.generated]
  | .parChk _ | .crcChk | .csumVer _ => [.clean, .detected]
  | .hamDec | .p2dVer => [.clean, .corrected, .uncorrectable]

/-- The errors a legal command can raise: column "raised by" of 60_exceptions.md R250. -/
def errorsOf : Instr → List ErrorCode
  | .parGen _ | .parChk _ => [.bufferRange, .invalidEmpty, .invalidSymbol]
  | .hamEnc | .hamDec => [.bufferRange, .invalidEmpty, .invalidSymbol, .tooShort]
  | .crcGen | .crcChk => [.bufferRange, .invalidEmpty, .invalidSymbol, .divisorTooShort, .divisorTooLong]
  | .csumGen _ => [.bufferRange, .invalidEmpty, .invalidByte]
  | .csumVer _ => [.bufferRange, .invalidEmpty, .invalidByte, .tooFewTokens]
  | .p2dGen | .p2dVer => [.bufferRange, .invalidEmpty, .invalidSymbol, .rowLengthMismatch]

/-- The CRC commands, which alone read `DLEN` and `DBUF` (10_state.md R25, R36). -/
def isCrc : Instr → Bool
  | .crcGen | .crcChk => true
  | .parGen _ | .parChk _ | .hamEnc | .hamDec | .csumGen _ | .csumVer _ | .p2dGen | .p2dVer => false

/-- The bit a parity convention asks of the total 1-count: 0 even, 1 odd (30_encoding.md R83). -/
def parityBit : ParityMode → Nat
  | .even => 0
  | .odd => 1

/-- The XOR of the position numbers, counted from `pos` on, of all the 1 bits (42_hamming.md R144). -/
def xorOfPositions (pos : Nat) : List Bool → Nat
  | [] => 0
  | b :: C => (if b then pos else 0) ^^^ xorOfPositions (pos + 1) C

end Sys2Proof.Machine
end

