-- ==== Sys2Proof/Certificates/Slice0/Obligations.lean ====
section
/-! DEFINITION. The statements for the provers. Each docstring names the rule of spec/ it formalises. A
hypothesis `s.params.wf` says that the parameters lie in the ranges of 00_scope.md R6; every statement holds for
all of them. -/

open Sys2Proof Sys2Proof.Machine

/-! ## Command words -/

/-- 30_encoding.md R80, R82, R83: a 32-bit word decodes to an instruction exactly when it is that instruction's
word, over all 2^32 words. -/
def Obligations.DecodeIsExactlyEncode : Prop :=
  ∀ (w : Word) (i : Instr), decode w = .ok i ↔ w = encode i

/-- 30_encoding.md R84: the fourteen legal words, each with its command; every other word is illegal. -/
def Obligations.LegalWordsAreTheFourteen : Prop :=
  let table : List (Word × Instr) :=
    [(0x00000002, .parGen .even), (0x00000012, .parGen .odd), (0x00000003, .parChk .even),
     (0x00000013, .parChk .odd), (0x00000004, .hamEnc), (0x00000005, .hamDec), (0x00000006, .crcGen),
     (0x00000007, .crcChk), (0x00000008, .csumGen .mod256), (0x00000018, .csumGen .ones),
     (0x00000009, .csumVer .mod256), (0x00000019, .csumVer .ones), (0x0000000A, .p2dGen), (0x0000000B, .p2dVer)]
  (∀ e ∈ table, decode e.1 = .ok e.2) ∧
  ∀ w : Word, w ∉ table.map Prod.fst → ∃ r, decode w = .error r

/-- Words written out bit by bit from the pattern of 30_encoding.md R80 and the table of R82. -/
def Obligations.WrittenWordsDecode : Prop :=
  decode 0b00000000000000000000000000010010#32 = .ok (.parGen .odd) ∧
  decode 0b00000000000000000000000000000011#32 = .ok (.parChk .even) ∧
  decode 0b00000000000000000000000000000101#32 = .ok .hamDec ∧
  decode 0b00000000000000000000000000000110#32 = .ok .crcGen ∧
  decode 0b00000000000000000000000000011001#32 = .ok (.csumVer .ones) ∧
  decode 0b00000000000000000000000000001011#32 = .ok .p2dVer

/-- 30_encoding.md R85, 60_exceptions.md R253: a word is illegal exactly under the three conditions, and writing
an illegal word stores it, clears all result state, and ends with ILLEGAL_COMMAND and `DONE`, whatever the
operand state, which stays untouched. -/
def Obligations.IllegalWordEndsInIllegalCommand : Prop :=
  (∀ w : Word, (∃ r, decode w = .error r) ↔
    (rsvOf w ≠ 0 ∨ opcOf w ∈ [0x0#4, 0x1#4, 0xC#4, 0xD#4, 0xE#4, 0xF#4] ∨
      (modeOf w = 1 ∧ opcOf w ∈ [0x4#4, 0x5#4, 0x6#4, 0x7#4, 0xA#4, 0xB#4]))) ∧
  ∀ (s : State) (rest : List HostAction) (w : Word) (r : IllegalReason), s.params.wf →
    s.pending = memWrite s.params (.reg .cmd) w :: rest → decode w = .error r →
    step s = .next { s with
      cmd := w
      res := { ResultState.zero with
        status := { done := true, err := .illegalCommand, outcome := .none, detail := .none } }
      pending := rest
      reply := .ack }

/-! ## Steps and the host port -/

/-- 10_state.md R30, 30_encoding.md R86: when the host's next access writes a word that decodes to `i` to `CMD`,
the step stores the word and is `exec i` from there; the access is taken off the host's list and acknowledged
(those two are the model's own port, log 1 and log 2). -/
def Obligations.StepRunsTheDecodedCommand : Prop :=
  ∀ (s : State) (rest : List HostAction) (w : Word) (i : Instr), s.params.wf →
    s.pending = memWrite s.params (.reg .cmd) w :: rest → decode w = .ok i →
    step s = exec i { s with pending := rest, reply := .ack, cmd := w }

/-- 10_state.md R42: after reset, for every block, every register reads 0 but the constant `CAP`, and every
buffer element reads 0. That the model's one reset state has the default parameters of 00_scope.md R6 and
`BASE = 0` is the model's choice (log 3). -/
def Obligations.ResetStateReadsZero : Prop :=
  (∀ p : Params, p.wf →
    (∀ r : Reg, r ≠ .cap → readLoc (State.resetWith p) (.reg r) = 0) ∧
    (readLoc (State.resetWith p) (.reg .cap)).toNat = p.dmax * 2 ^ 16 + p.imax ∧
    ∀ j w, readLoc (State.resetWith p) (.ibuf j) = 0 ∧ readLoc (State.resetWith p) (.dbuf j) = 0 ∧
      readLoc (State.resetWith p) (.obuf j) = 0 ∧ readLoc (State.resetWith p) (.tbuf j w) = 0 ∧
      readLoc (State.resetWith p) (.rmis j) = 0 ∧ readLoc (State.resetWith p) (.cmis j) = 0) ∧
  State.reset = State.resetWith Params.default

/-- 70_reset_and_hazards.md R280: applying reset gives every piece of state its reset value, whatever the state
was. That the model's answer field becomes idle (log 2), that the parameters stay (log 3), and that the host's
later accesses still wait (log 1, log 8) are the model's choices. -/
def Obligations.ResetInputRestoresTheResetState : Prop :=
  ∀ (s : State) (rest : List HostAction), s.pending = .reset :: rest →
    step s = .next { State.resetWith s.params with pending := rest }

/-- 10_state.md R22: operand state changes only by a host write to an operand location of
the map, result state and `CMD`
only by a write to `CMD`; reset is the one other event, and alone returns `DONE` to 0 (70_reset_and_hazards.md R281;
R31). -/
def Obligations.OnlyTheRightAccessChangesState : Prop :=
  ∀ s t : State, s.params.wf → step s = .next t →
    (t.op ≠ s.op → (∃ rest, s.pending = .reset :: rest) ∨
      ∃ (l : Loc) (v : Word) (rest : List HostAction), l.mapped s.params ∧ l.isOperand = true ∧
        s.pending = memWrite s.params l v :: rest) ∧
    (t.res ≠ s.res ∨ t.cmd ≠ s.cmd → (∃ rest, s.pending = .reset :: rest) ∨
      ∃ w rest, s.pending = memWrite s.params (.reg .cmd) w :: rest) ∧
    (s.res.status.done = true → t.res.status.done = false → ∃ rest, s.pending = .reset :: rest)

/-- 10_state.md R34: `CAP`, at offset 0x5C, is a read-only constant with `IMAX` and `DMAX` in its fields, whatever happens, and
reads 0x00400400 with the defaults. -/
def Obligations.CapIsAConstant : Prop :=
  (Loc.reg .cap).off = 0x5C ∧
  (∀ s : State, s.params.wf →
    ((readLoc s (.reg .cap)).extractLsb' 0 16).toNat = s.params.imax ∧
    ((readLoc s (.reg .cap)).extractLsb' 16 8).toNat = s.params.dmax ∧
    (readLoc s (.reg .cap)).extractLsb' 24 8 = 0) ∧
  (∀ s t : State, step s = .next t → readLoc t (.reg .cap) = readLoc s (.reg .cap)) ∧
  ∀ s : State, s.params = Params.default → readLoc s (.reg .cap) = 0x00400400

/-- 20_memory.md R60, R62: an access reaches the location `l` exactly when it is 32 bits wide, `l` is in the map,
and the address is `BASE + off(l)`. -/
def Obligations.AddressMapLocates : Prop :=
  ∀ (p : Params) (width addr : Nat) (l : Loc), p.wf →
    (locate p width addr = .ok l ↔ width = 32 ∧ l.mapped p ∧ addr = p.base + l.off)

/-- 20_memory.md R61, R63, R67: the host's next action is refused with an access error exactly when it is not a
reset and not a 32-bit access to the address of a location of the map. -/
def Obligations.AccessRefusedExactlyOutOfContract : Prop :=
  ∀ (s : State) (a : HostAction) (rest : List HostAction), s.params.wf → s.pending = a :: rest →
    ((∃ e, step s = .refused (.accessError e)) ↔ ¬ a.inContract s.params)

/-- 20_memory.md R65: a read returns what the location holds and changes nothing. What it holds (10_state.md R24 to
R30, R35 to R39): `CMD` the word last stored, each other register its own field with zeros above (`STATUS` and `CAP`
are said by `StatusWordLayout` and `CapIsAConstant`), each buffer element itself with zeros above, and word `w` of
trace record `j` that word. -/
def Obligations.ReadsHaveNoSideEffect : Prop :=
  (∀ (s : State) (rest : List HostAction) (l : Loc), s.params.wf → l.mapped s.params →
    s.pending = memRead s.params l :: rest →
    step s = .next { s with pending := rest, reply := .data (readLoc s l) }) ∧
  ∀ s : State,
    readLoc s (.reg .cmd) = s.cmd ∧
    (readLoc s (.reg .ilen)).toNat = s.op.ilen.toNat ∧
    (readLoc s (.reg .dlen)).toNat = s.op.dlen.toNat ∧
    readLoc s (.reg .olen) = s.res.olen ∧
    readLoc s (.reg .tlen) = s.res.tlen ∧
    (readLoc s (.reg .ones)).toNat = s.res.ones.toNat ∧
    (readLoc s (.reg .pbit)).toNat = s.res.pbit.toNat ∧
    (readLoc s (.reg .rbit)).toNat = s.res.rbit.toNat ∧
    (readLoc s (.reg .npar)).toNat = s.res.npar.toNat ∧
    (readLoc s (.reg .synd)).toNat = s.res.synd.toNat ∧
    (readLoc s (.reg .synd2)).toNat = s.res.synd2.toNat ∧
    (readLoc s (.reg .epos)).toNat = s.res.epos.toNat ∧
    (readLoc s (.reg .rlen)).toNat = s.res.rlen.toNat ∧
    readLoc s (.reg .sum) = s.res.sum ∧
    (readLoc s (.reg .fsum)).toNat = s.res.fsum.toNat ∧
    (readLoc s (.reg .csum)).toNat = s.res.csum.toNat ∧
    (readLoc s (.reg .nrows)).toNat = s.res.nrows.toNat ∧
    (readLoc s (.reg .ncols)).toNat = s.res.ncols.toNat ∧
    (readLoc s (.reg .rcnt)).toNat = s.res.rcnt.toNat ∧
    (readLoc s (.reg .ccnt)).toNat = s.res.ccnt.toNat ∧
    (readLoc s (.reg .erow)).toNat = s.res.erow.toNat ∧
    (readLoc s (.reg .ecol)).toNat = s.res.ecol.toNat ∧
    (∀ i, (readLoc s (.ibuf i)).toNat = (s.op.ibuf.read i).toNat) ∧
    (∀ i, (readLoc s (.dbuf i)).toNat = (s.op.dbuf.read i).toNat) ∧
    (∀ i, (readLoc s (.obuf i)).toNat = (s.res.obuf.read i).toNat) ∧
    (∀ j w, readLoc s (.tbuf j w) = s.res.tbuf.read (4 * j + w)) ∧
    (∀ i, (readLoc s (.rmis i)).toNat = (s.res.rmis.read i).toNat) ∧
    ∀ i, (readLoc s (.cmis i)).toNat = (s.res.cmis.read i).toNat

/-- 20_memory.md R64: a write to a read-only location completes and changes nothing. -/
def Obligations.ReadOnlyWritesAreIgnored : Prop :=
  ∀ (s : State) (rest : List HostAction) (l : Loc) (v : Word), s.params.wf → l.mapped s.params →
    l.writable = false → s.pending = memWrite s.params l v :: rest →
    step s = .next { s with pending := rest, reply := .ack }

/-- 10_state.md R24, R25, R35, R36; 20_memory.md R65: a write to `ILEN` or `DLEN` keeps bits [15:0], a write to a
buffer element bits [7:0], and every other location reads as before. -/
def Obligations.OperandWriteChangesOnlyItsLocation : Prop :=
  ∀ (s : State) (rest : List HostAction) (l : Loc) (v : Word), s.params.wf → s.canonical →
    l.mapped s.params → l.isOperand = true → s.pending = memWrite s.params l v :: rest →
    ∃ t, step s = .next t ∧
      (l = .reg .ilen ∨ l = .reg .dlen → readLoc t l = v &&& 0x0000FFFF) ∧
      ((∃ i, l = .ibuf i ∨ l = .dbuf i) → readLoc t l = v &&& 0x000000FF) ∧
      ∀ l', l' ≠ l → readLoc t l' = readLoc s l'

/-- 10_state.md R31, R32, R33; 60_exceptions.md R250: the word a read of `STATUS` returns, field by field, and
every code. -/
def Obligations.StatusWordLayout : Prop :=
  (∀ s : State,
    (readLoc s (.reg .status)).extractLsb' 0 1 = BitVec.ofBool s.res.status.done ∧
    (readLoc s (.reg .status)).extractLsb' 1 3 = 0 ∧
    (readLoc s (.reg .status)).extractLsb' 4 4 = s.res.status.err.code ∧
    (readLoc s (.reg .status)).extractLsb' 8 4 = s.res.status.outcome.code ∧
    (readLoc s (.reg .status)).extractLsb' 12 4 = s.res.status.detail.code ∧
    (readLoc s (.reg .status)).extractLsb' 16 16 = 0) ∧
  [ErrorCode.none, .invalidEmpty, .invalidSymbol, .invalidByte, .rowLengthMismatch, .tooShort, .divisorTooLong,
    .tooFewTokens, .lengthMismatch, .illegalCommand, .bufferRange, .divisorTooShort].map
      (fun e => e.code.toNat) = [0, 1, 2, 3, 4, 5, 6, 7, 8, 9, 10, 11] ∧
  [OutcomeCode.none, .generated, .clean, .detected, .corrected, .uncorrectable].map
      (fun o => o.code.toNat) = [0, 1, 2, 3, 4, 5] ∧
  [DetailCode.none, .syndromeOutOfRange, .multiBit, .mismatchPattern].map
      (fun d => d.code.toNat) = [0, 1, 2, 3]

/-- 30_encoding.md R88: from a state with no access waiting, performing the accesses `LDI "t"` and `LDD "t"` expand
to makes `t` the operand or the divisor; `MVO`, defined exactly when `OLEN <= IMAX`, makes the output string the
operand; `FLIP i` changes the lowest bit of `IBUF[i]`. Nothing else changes: not an element beyond the text, not the
other operand's length or buffer, not `CMD`, not result state. R92: a program performs its operations in order, each
expanded from the state those before it leave. (The list of waiting accesses and the answer field are the model's:
log 1, log 2, log 10.) -/
def Obligations.PseudoOperationsLoadAndMove : Prop :=
  ∀ s : State, s.params.wf → s.canonical → s.pending = [] →
    (∀ t : List Symbol, t.length ≤ s.params.imax →
      ∃ s' u, issue (.ldi t) s = some s' ∧ Host.Core.run Sys2Proof.core s'.pending.length s' = .next u ∧
        operand u.op = t ∧ (∀ k, t.length ≤ k → u.op.ibuf.read k = s.op.ibuf.read k) ∧
        u = { s with op := { s.op with ilen := u.op.ilen, ibuf := u.op.ibuf }, reply := .ack }) ∧
    (∀ t : List Symbol, t.length ≤ s.params.dmax →
      ∃ s' u, issue (.ldd t) s = some s' ∧ Host.Core.run Sys2Proof.core s'.pending.length s' = .next u ∧
        divisor u.op = t ∧ (∀ k, t.length ≤ k → u.op.dbuf.read k = s.op.dbuf.read k) ∧
        u = { s with op := { s.op with dlen := u.op.dlen, dbuf := u.op.dbuf }, reply := .ack }) ∧
    ((issue .mvo s).isSome = true ↔ s.res.olen.toNat ≤ s.params.imax) ∧
    (∀ s', issue .mvo s = some s' →
      ∃ u, Host.Core.run Sys2Proof.core s'.pending.length s' = .next u ∧
        operand u.op = output s.res ∧
        (∀ k, s.res.olen.toNat ≤ k → u.op.ibuf.read k = s.op.ibuf.read k) ∧
        u = { s with op := { s.op with ilen := u.op.ilen, ibuf := u.op.ibuf }, reply := .ack }) ∧
    (∀ i, i < s.params.imax →
      ∃ s' u, issue (.flip i) s = some s' ∧ Host.Core.run Sys2Proof.core s'.pending.length s' = .next u ∧
        (∀ k, u.op.ibuf.read k = if k = i then s.op.ibuf.read i ^^^ 1 else s.op.ibuf.read k) ∧
        u = { s with op := { s.op with ibuf := u.op.ibuf }, reply := .ack }) ∧
    runProgram [] s = some ([], .next s) ∧
    ∀ (o : HostOp) (os : List HostOp),
      (issue o s = none → runProgram (o :: os) s = none) ∧
      ∀ s' t, issue o s = some s' → Host.Core.run Sys2Proof.core s'.pending.length s' = .next t →
        runProgram (o :: os) s = (runProgram os t).map (fun r => (s'.pending ++ r.1, r.2))

/-! ## Every command -/

/-- 70_reset_and_hazards.md R288, 10_state.md R22: every command completes, whatever the state, with `DONE`, and
leaves `CMD`, the operand state (every element of `IBUF` and `DBUF` with it), the parameters and the port alone. -/
def Obligations.CommandsCompleteAndWriteOnlyResults : Prop :=
  ∀ (i : Instr) (s : State), ∃ t, exec i s = .next t ∧ t.res.status.done = true ∧
    t = { s with res := t.res }

/-- 10_state.md R23: the result state after a write to `CMD` is a function of the command word and the operand
state it reads, `ILEN`, `DLEN`, `IBUF[0..ILEN-1]` and `DBUF[0..DLEN-1]`: not of the previous result state, nor of any
other element. -/
def Obligations.ResultsDependOnCommandAndOperandOnly : Prop :=
  ∀ (w : Word) (s s' : State), s.params = s'.params →
    s.op.ilen = s'.op.ilen → s.op.dlen = s'.op.dlen →
    (∀ k < s.op.ilen.toNat, s.op.ibuf.read k = s'.op.ibuf.read k) →
    (∀ k < s.op.dlen.toNat, s.op.dbuf.read k = s'.op.dbuf.read k) →
    ∃ t t', writeCmd w s = .next t ∧ writeCmd w s' = .next t' ∧ t.res = t'.res

/-- 10_state.md R25, R36: only the CRC commands read `DLEN` and `DBUF`; for every other command their values have
no effect on any result. -/
def Obligations.DivisorAffectsCrcOnly : Prop :=
  ∀ (i : Instr) (s : State) (d : BitVec 16) (m : Memory 8), isCrc i = false →
    ∃ t t', exec i s = .next t ∧ exec i { s with op := { s.op with dlen := d, dbuf := m } } = .next t' ∧
      t'.res = t.res

/-- 10_state.md R28, R26, R27, R39; 60_exceptions.md R261: after a command every result register it is not listed
for reads 0; `OLEN` reads 0 and `OBUF` is empty after PAR.CHK and CSUM.VER; `TLEN` reads 0 and `TBUF` is empty
after the six commands without a trace; `RMIS` and `CMIS` are empty after every command but P2D.VER. -/
def Obligations.UnlistedResultsReadZero : Prop :=
  ∀ (i : Instr) (s t : State), exec i s = .next t →
    (∀ r ∈ resultRegs, r ∉ writtenRegs i → readLoc t (.reg r) = 0) ∧
    (hasOutput i = false → t.res.holdsOutput []) ∧
    (hasTrace i = false → t.res.holdsTrace []) ∧
    (i ≠ .p2dVer → t.res.rmis.holdsFlags [] ∧ t.res.cmis.holdsFlags [])

/-- 60_exceptions.md R252: when a write of any word to `CMD` ends in an error, all result state is zero but `ERR`
and `DONE`, and nothing else has changed but `CMD`, which holds the word. -/
def Obligations.ErrorLeavesNothingElse : Prop :=
  ∀ (w : Word) (s t : State), writeCmd w s = .next t → t.res.status.err ≠ .none →
    t = { s with
      cmd := w
      res := { ResultState.zero with
        status := { done := true, err := t.res.status.err, outcome := .none, detail := .none } } }

/-- 10_state.md R32, R33: `ERR != 0` implies `OUTCOME = 0` and `DETAIL = 0`; without error the outcome is one the
table lists for the command; `DETAIL` is non-zero exactly when the outcome is UNCORRECTABLE. -/
def Obligations.ExactlyOneOutcome : Prop :=
  ∀ (i : Instr) (s t : State), exec i s = .next t →
    (t.res.status.err ≠ .none → t.res.status.outcome = .none ∧ t.res.status.detail = .none) ∧
    (t.res.status.err = .none → t.res.status.outcome ∈ outcomesOf i) ∧
    (t.res.status.detail ≠ .none ↔ t.res.status.outcome = .uncorrectable)

/-- 60_exceptions.md R250: a command raises only the errors whose row names it; codes 8 and 9 are not among them. -/
def Obligations.ErrorsRaisedOnlyByTheirCommands : Prop :=
  ∀ (i : Instr) (s t : State), exec i s = .next t → t.res.status.err ≠ .none → t.res.status.err ∈ errorsOf i

/-- 40_bitstring.md R105: no command raises LENGTH_MISMATCH, because the divider's two calls of `xor` always have
arguments of one length: a division of at least `k` bits by `k >= 2` bits answers a remainder. -/
def Obligations.NoCommandRaisesLengthMismatch : Prop :=
  (∀ (i : Instr) (s t : State), exec i s = .next t → t.res.status.err ≠ .lengthMismatch) ∧
  ∀ D G : List Bool, 2 ≤ G.length → G.length ≤ D.length → ∃ R recs, crcdiv D G = .ok (R, recs)

/-- 60_exceptions.md R254: BUFFER_RANGE is raised exactly when `ILEN > IMAX`, or the command is CRC.GEN or CRC.CHK
and `DLEN > DMAX`. -/
def Obligations.BufferRangeExactlyBeyondCapacity : Prop :=
  ∀ (i : Instr) (s : State), ∃ t, exec i s = .next t ∧
    (t.res.status.err = .bufferRange ↔
      s.params.imax < s.op.ilen.toNat ∨
      ((i = .crcGen ∨ i = .crcChk) ∧ s.params.dmax < s.op.dlen.toNat))

/-- 00_scope.md R7: no command produces more output symbols than `OBUF` holds or more trace records than `TBUF`
holds. -/
def Obligations.OutputsFitTheirBuffers : Prop :=
  ∀ (i : Instr) (s t : State), s.params.wf → exec i s = .next t →
    t.res.olen.toNat ≤ s.params.omax ∧ t.res.tlen.toNat ≤ s.params.tmax

/-! ## Errors of each family, in the order of their checks (60_exceptions.md R255) -/

/-- 41_parity.md R121: PAR.GEN and PAR.CHK on an empty operand end INVALID_EMPTY, on one with a non-binary symbol
INVALID_SYMBOL, and on any other operand without error. -/
def Obligations.ParityOperandChecks : Prop :=
  ∀ (m : ParityMode) (s : State) (i : Instr), i = .parGen m ∨ i = .parChk m →
    s.op.ilen.toNat ≤ s.params.imax →
    ∃ t, exec i s = .next t ∧
      (t.res.status.err = .invalidEmpty ↔ s.op.ilen.toNat = 0) ∧
      (t.res.status.err = .invalidSymbol ↔ s.op.ilen.toNat ≠ 0 ∧ ¬ s.binaryOperand) ∧
      (t.res.status.err = .none ↔ s.op.ilen.toNat ≠ 0 ∧ s.binaryOperand)

/-- 42_hamming.md R145, R149: HAM.ENC and HAM.DEC: INVALID_EMPTY, then INVALID_SYMBOL, then TOO_SHORT below 4
symbols; no other length is refused. -/
def Obligations.HammingOperandChecks : Prop :=
  ∀ (s : State) (i : Instr), i = .hamEnc ∨ i = .hamDec → s.op.ilen.toNat ≤ s.params.imax →
    ∃ t, exec i s = .next t ∧
      (t.res.status.err = .invalidEmpty ↔ s.op.ilen.toNat = 0) ∧
      (t.res.status.err = .invalidSymbol ↔ s.op.ilen.toNat ≠ 0 ∧ ¬ s.binaryOperand) ∧
      (t.res.status.err = .tooShort ↔ s.op.ilen.toNat ≠ 0 ∧ s.binaryOperand ∧ s.op.ilen.toNat < 4) ∧
      (t.res.status.err = .none ↔ s.binaryOperand ∧ 4 ≤ s.op.ilen.toNat)

/-- 43_crc.md R171: CRC.GEN and CRC.CHK: emptiness of either operand, then the alphabet of both, then
DIVISOR_TOO_SHORT, then DIVISOR_TOO_LONG. -/
def Obligations.CrcOperandChecks : Prop :=
  ∀ (s : State) (i : Instr), i = .crcGen ∨ i = .crcChk →
    s.op.ilen.toNat ≤ s.params.imax → s.op.dlen.toNat ≤ s.params.dmax →
    let nonempty := s.op.ilen.toNat ≠ 0 ∧ s.op.dlen.toNat ≠ 0
    let binary := s.binaryOperand ∧ s.binaryDivisor
    ∃ t, exec i s = .next t ∧
      (t.res.status.err = .invalidEmpty ↔ ¬ nonempty) ∧
      (t.res.status.err = .invalidSymbol ↔ nonempty ∧ ¬ binary) ∧
      (t.res.status.err = .divisorTooShort ↔ nonempty ∧ binary ∧ s.op.dlen.toNat < 2) ∧
      (t.res.status.err = .divisorTooLong ↔
        nonempty ∧ binary ∧ 2 ≤ s.op.dlen.toNat ∧ s.op.ilen.toNat ≤ s.op.dlen.toNat) ∧
      (t.res.status.err = .none ↔ binary ∧ 2 ≤ s.op.dlen.toNat ∧ s.op.dlen.toNat < s.op.ilen.toNat)

/-- 44_checksum.md R190, R191: the tokens are the maximal runs that are not whitespace; a token has a byte value
exactly when it is one or two of the digits 0 to 9 and A to F, and then theirs; a token list has its byte list
exactly when every token has a value. R192: CSUM.GEN and CSUM.VER: no token, then a token that is no hex byte, then, for CSUM.VER
only, fewer than 2 tokens. -/
def Obligations.ChecksumOperandChecks : Prop :=
  (∀ S : List Symbol, tokenRuns S (tokens S)) ∧
  (∀ (tok : List Symbol) (b : Nat), byteval tok = some b ↔
    (∃ x, hexDigits[b]? = some x ∧ tok = [x]) ∨
    ∃ d e x y, hexDigits[d]? = some x ∧ hexDigits[e]? = some y ∧ tok = [x, y] ∧ b = 16 * d + e) ∧
  (∀ (ts : List (List Symbol)) (Bv : List Nat), bytevals ts = some Bv ↔ ts.map byteval = Bv.map some) ∧
  ∀ (v : ChecksumVariant) (s : State) (i : Instr), i = .csumGen v ∨ i = .csumVer v →
    s.op.ilen.toNat ≤ s.params.imax →
    let ts := tokens (operand s.op)
    let allBytes := ∀ tok ∈ ts, (byteval tok).isSome = true
    ∃ t, exec i s = .next t ∧
      (t.res.status.err = .invalidEmpty ↔ ts = []) ∧
      (t.res.status.err = .invalidByte ↔ ts ≠ [] ∧ ¬ allBytes) ∧
      (t.res.status.err = .tooFewTokens ↔ i = .csumVer v ∧ ts.length = 1 ∧ allBytes) ∧
      (t.res.status.err = .none ↔ ts ≠ [] ∧ allBytes ∧ (i = .csumVer v → 2 ≤ ts.length))

/-- 45_twod_parity.md R220: the rows are the pieces between the line feeds, one more than there are line feeds. R221:
P2D.GEN and P2D.VER: an empty operand or row, then a symbol that is neither binary nor
a line feed, then two rows of different length. -/
def Obligations.MatrixOperandChecks : Prop :=
  (∀ S : List Symbol, (rows S).length = S.count 0x0A#8 + 1 ∧ (∀ r ∈ rows S, 0x0A#8 ∉ r) ∧
    [0x0A#8].intercalate (rows S) = S) ∧
  ∀ (s : State) (i : Instr), i = .p2dGen ∨ i = .p2dVer → s.op.ilen.toNat ≤ s.params.imax →
    let S := operand s.op
    let nonempty := S ≠ [] ∧ ∀ r ∈ rows S, r ≠ []
    let binary := ∀ x ∈ S, x = 0x0A#8 ∨ x = 0x30#8 ∨ x = 0x31#8
    let equalRows := ∀ r ∈ rows S, ∀ r' ∈ rows S, r.length = r'.length
    ∃ t, exec i s = .next t ∧
      (t.res.status.err = .invalidEmpty ↔ ¬ nonempty) ∧
      (t.res.status.err = .invalidSymbol ↔ nonempty ∧ ¬ binary) ∧
      (t.res.status.err = .rowLengthMismatch ↔ nonempty ∧ binary ∧ ¬ equalRows) ∧
      (t.res.status.err = .none ↔ nonempty ∧ binary ∧ equalRows)

/-- 70_reset_and_hazards.md R282: after reset every legal command ends INVALID_EMPTY and every illegal word
ILLEGAL_COMMAND; with `ILEN = n > 0` and `IBUF` unwritten the operand is `n` symbols 0x00, so PAR, HAM and P2D end INVALID_SYMBOL, CSUM INVALID_BYTE, and CRC
INVALID_EMPTY while `DLEN` is 0 and INVALID_SYMBOL once it is not. -/
def Obligations.CommandsOnUnwrittenOperands : Prop :=
  ∀ p : Params, p.wf →
    (∀ (w : Word) (r : IllegalReason), decode w = .error r →
      ∃ t, writeCmd w (State.resetWith p) = .next t ∧ t.res.status.err = .illegalCommand) ∧
    ∀ i : Instr, (∃ t, exec i (State.resetWith p) = .next t ∧ t.res.status.err = .invalidEmpty) ∧
    ∀ (n d : BitVec 16) (g : Memory 8), n ≠ 0 → n.toNat ≤ p.imax → d.toNat ≤ p.dmax →
      ∃ t, exec i { State.resetWith p with op := { ilen := n, dlen := d, ibuf := [], dbuf := g } } = .next t ∧
        t.res.status.err =
          (match i with
          | .csumGen _ | .csumVer _ => .invalidByte
          | .crcGen | .crcChk => if d = 0 then .invalidEmpty else .invalidSymbol
          | .parGen _ | .parChk _ | .hamEnc | .hamDec | .p2dGen | .p2dVer => .invalidSymbol)

/-! ## Results of each command: it completes, and what it leaves -/

/-- 00_scope.md R12: a bit's symbol is 0x30 or 0x31, and back. 41_parity.md R123: PAR.GEN appends one bit that makes the total 1-count even (`even`) or odd (`odd`), reports
the 1-count and the bit, and writes nothing else. -/
def Obligations.ParGenAppendsTheParityBit : Prop :=
  (∀ b, (sym b).toNat = 0x30 + b.toNat) ∧ (∀ x, bitOf x = true ↔ x = 0x31#8) ∧
  ∀ (m : ParityMode) (s : State), s.params.wf → s.op.ilen.toNat ≠ 0 → s.op.ilen.toNat ≤ s.params.imax →
    s.binaryOperand →
    ∃ (t : State) (p : Bool), exec (.parGen m) s = .next t ∧
      t.res.holdsOutput (operand s.op ++ [sym p]) ∧
      (ones (bits (operand s.op)) + p.toNat) % 2 = parityBit m ∧
      t.res.ones.toNat = ones (bits (operand s.op)) ∧
      t.res.pbit.toNat = p.toNat ∧
      t = { s with res := { ResultState.zero with
        status := finished .generated .none, olen := t.res.olen, obuf := t.res.obuf, ones := t.res.ones,
        pbit := t.res.pbit } }

/-- 41_parity.md R124: PAR.CHK splits off the last bit, computes the expected bit over the rest, and reports CLEAN
or DETECTED. -/
def Obligations.ParChkComparesTheLastBit : Prop :=
  ∀ (m : ParityMode) (s : State) (body : List Bool) (r : Bool), s.params.wf →
    s.op.ilen.toNat ≤ s.params.imax → s.binaryOperand → bits (operand s.op) = body ++ [r] →
    ∃ (t : State) (e : Bool), exec (.parChk m) s = .next t ∧
      (ones body + e.toNat) % 2 = parityBit m ∧
      t.res.ones.toNat = ones body ∧ t.res.pbit.toNat = e.toNat ∧ t.res.rbit.toNat = r.toNat ∧
      t = { s with res := { ResultState.zero with
        status := finished (if r = e then .clean else .detected) .none, ones := t.res.ones, pbit := t.res.pbit,
        rbit := t.res.rbit } }

/-- 41_parity.md R125: PAR.CHK reports CLEAN exactly when the 1-count of the whole received string is even
(`even`) or odd (`odd`). -/
def Obligations.ParChkCleanExactlyOnTotalParity : Prop :=
  ∀ (m : ParityMode) (s : State), s.op.ilen.toNat ≠ 0 → s.op.ilen.toNat ≤ s.params.imax → s.binaryOperand →
    ∃ t, exec (.parChk m) s = .next t ∧
      (t.res.status.outcome = .clean ↔ ones (bits (operand s.op)) % 2 = parityBit m) ∧
      (t.res.status.outcome = .detected ↔ ones (bits (operand s.op)) % 2 ≠ parityBit m)

/-- 41_parity.md R126: checking a generated string with the same mode is CLEAN, with the other mode DETECTED; with
one symbol flipped it is DETECTED, with two flipped CLEAN. -/
def Obligations.ParityRoundTrip : Prop :=
  ∀ (m : ParityMode) (s t u : State), s.params.wf → exec (.parGen m) s = .next t →
    t.res.status.err = .none → u.op.ilen.toNat ≤ u.params.imax →
    (operand u.op = output t.res → ∀ m', ∃ v, exec (.parChk m') u = .next v ∧
      v.res.status.outcome = (if m' = m then .clean else .detected)) ∧
    ∀ k, k < t.res.olen.toNat →
      (operand u.op = flipSymbol (output t.res) k →
        ∃ v, exec (.parChk m) u = .next v ∧ v.res.status.outcome = .detected) ∧
      ∀ l, l < t.res.olen.toNat → l ≠ k → operand u.op = flipSymbol (flipSymbol (output t.res) k) l →
        ∃ v, exec (.parChk m) u = .next v ∧ v.res.status.outcome = .clean

/-- 42_hamming.md R141, R148: `pc_enc(m)` is the least `p` with `2^p >= m + p + 1`; `pc_dec(n)` is one more than the
`q` with `2^q <= n < 2^(q+1)`. -/
def Obligations.ParityCountIsLeast : Prop :=
  (∀ m : Nat, m + pcEnc m + 1 ≤ 2 ^ pcEnc m ∧ ∀ p < pcEnc m, ¬ m + p + 1 ≤ 2 ^ p) ∧
  ∀ n : Nat, n ≠ 0 → ∃ q, pcDec n = q + 1 ∧ 2 ^ q ≤ n ∧ n < 2 ^ (q + 1)

/-- 42_hamming.md R140, R142, R146, R147: the codeword of `m >= 1` data bits has `m + pc_enc(m)` bits, carries the
data unchanged and in order at the positions that are not powers of two, satisfies every check, and the decoder's
parity count on it equals the encoder's. `extract` takes the bits at the positions that are no power of two (R142),
and `isPowerOfTwo` is that (40_bitstring.md R106). -/
def Obligations.HammingCodewordIsSystematicAndValid : Prop :=
  (∀ n : Nat, isPowerOfTwo n = true ↔ ∃ k, n = 2 ^ k) ∧
  (∀ C : List Bool, extract C =
    ((List.range C.length).filter (fun k => !isPowerOfTwo (k + 1))).map (fun k => C.getD k false)) ∧
  ∀ D : List Bool, D ≠ [] →
    (hammingEncode D).length = D.length + pcEnc D.length ∧
    extract (hammingEncode D) = D ∧
    (∀ q, chk (hammingEncode D) q = false) ∧
    pcDec (hammingEncode D).length = pcEnc D.length ∧
    syn (hammingEncode D) (pcEnc D.length) = 0

/-- 42_hamming.md R146: HAM.ENC leaves the codeword in `OBUF` and the parity count in `NPAR`, and nothing else. -/
def Obligations.HamEncEmitsTheCodeword : Prop :=
  ∀ s : State, s.params.wf → 4 ≤ s.op.ilen.toNat → s.op.ilen.toNat ≤ s.params.imax → s.binaryOperand →
    ∃ t, exec .hamEnc s = .next t ∧
      t.res.holdsOutput (syms (hammingEncode (bits (operand s.op)))) ∧
      t.res.npar.toNat = pcEnc s.op.ilen.toNat ∧
      t = { s with res := { ResultState.zero with
        status := finished .generated .none, olen := t.res.olen, obuf := t.res.obuf, npar := t.res.npar } }

/-- 42_hamming.md R144: for `2^P > n` the syndrome is the XOR of the position numbers of all the 1 bits, bit `q` of
which is check `q`, and flipping the bit at position `k` changes it to `syn ^ k`. -/
def Obligations.SyndromeIsXorOfPositions : Prop :=
  ∀ (C : List Bool) (P : Nat), C.length < 2 ^ P →
    syn C P = xorOfPositions 1 C ∧
    (∀ q, (xorOfPositions 1 C).testBit q = chk C q) ∧
    ∀ k, 1 ≤ k → k ≤ C.length → syn (flipAt C k) P = syn C P ^^^ k

/-- 42_hamming.md R150, R151, R152: the three-way policy of HAM.DEC. A zero syndrome is CLEAN; a syndrome up to `n`
flips that position and is CORRECTED there; a larger one is UNCORRECTABLE with the data positions as received.
The MULTI_BIT branch is never reached and `SYND2` always reads 0. -/
def Obligations.HamDecThreeWayPolicy : Prop :=
  ∀ s : State, s.params.wf → 4 ≤ s.op.ilen.toNat → s.op.ilen.toNat ≤ s.params.imax → s.binaryOperand →
    let C := bits (operand s.op)
    let n := s.op.ilen.toNat
    let syndrome := syn C (pcDec n)
    ∃ t, exec .hamDec s = .next t ∧
      t.res.npar.toNat = pcDec n ∧ t.res.synd.toNat = syndrome ∧ t.res.synd2 = 0 ∧
      (syndrome = 0 → t.res.status = finished .clean .none ∧ t.res.epos = 0 ∧
        t.res.holdsOutput (syms (extract C))) ∧
      (0 < syndrome ∧ syndrome ≤ n → t.res.status = finished .corrected .none ∧
        t.res.epos.toNat = syndrome ∧ t.res.holdsOutput (syms (extract (flipAt C syndrome)))) ∧
      (n < syndrome → t.res.status = finished .uncorrectable .syndromeOutOfRange ∧ t.res.epos = 0 ∧
        t.res.holdsOutput (syms (extract C))) ∧
      t = { s with res := { ResultState.zero with
        status := t.res.status, olen := t.res.olen, obuf := t.res.obuf, npar := t.res.npar, synd := t.res.synd,
        epos := t.res.epos } }

/-- 42_hamming.md R154: decoding an encoded word unmodified gives the data, CLEAN; with the bit at index `k`
flipped it gives the data, CORRECTED at position `k + 1`. -/
def Obligations.HammingCorrectsOneError : Prop :=
  ∀ s t u : State, s.params.wf → exec .hamEnc s = .next t → t.res.status.err = .none →
    u.op.ilen.toNat ≤ u.params.imax → u.params.wf →
    (operand u.op = output t.res →
      ∃ v, exec .hamDec u = .next v ∧ v.res.status = finished .clean .none ∧
        v.res.holdsOutput (operand s.op)) ∧
    ∀ k, k < t.res.olen.toNat →
      operand u.op = flipSymbol (output t.res) k →
      ∃ v, exec .hamDec u = .next v ∧ v.res.status = finished .corrected .none ∧
        v.res.epos.toNat = k + 1 ∧ v.res.holdsOutput (operand s.op)

/-- A bit list as a polynomial over GF(2), the leading bit the highest coefficient (43_crc.md R174). -/
noncomputable def Sys2Proof.Machine.bitPoly (B : List Bool) : Polynomial (ZMod 2) :=
  B.foldl (fun q b => q * Polynomial.X + Polynomial.C (if b then 1 else 0)) 0

/-- 43_crc.md R174: when the divisor's leading bit is 1, the divider's remainder is the polynomial remainder over
GF(2), in exactly `k - 1` bits, with `N - k + 1` trace records (R172). -/
def Obligations.CrcRemainderIsPolynomialRemainder : Prop :=
  ∀ Dv G : List Bool, 2 ≤ G.length → G.length ≤ Dv.length → G.head? = some true →
    ∃ R recs, crcdiv Dv G = .ok (R, recs) ∧ R.length = G.length - 1 ∧
      recs.length = Dv.length - G.length + 1 ∧
      bitPoly R = bitPoly Dv %ₘ bitPoly G

/-- 43_crc.md R178: the divisor's leading bit has no effect on any result: remainder and trace are the same for
`0g` and `1g`. -/
def Obligations.DivisorLeadingBitHasNoEffect : Prop :=
  ∀ Dv g : List Bool, crcdiv Dv (false :: g) = crcdiv Dv (true :: g)

/-- 43_crc.md R175: CRC.GEN leaves data followed by the remainder of the padded data in `OBUF`, the remainder length
in `RLEN`, one trace record per data symbol in `TBUF`, and nothing else. R172 and 10_state.md R38: record `j` reports window
`j` of that division. -/
def Obligations.CrcGenEmitsDataAndRemainder : Prop :=
  ∀ s : State, s.params.wf → s.op.ilen.toNat ≤ s.params.imax → s.op.dlen.toNat ≤ s.params.dmax →
    s.binaryOperand → s.binaryDivisor → 2 ≤ s.op.dlen.toNat → s.op.dlen.toNat < s.op.ilen.toNat →
    ∃ t R recs, exec .crcGen s = .next t ∧
      divisionTrace (bits (operand s.op) ++ List.replicate (s.op.dlen.toNat - 1) false) (bits (divisor s.op))
        R recs ∧
      crcdiv (bits (operand s.op) ++ List.replicate (s.op.dlen.toNat - 1) false) (bits (divisor s.op)) =
        .ok (R, recs) ∧
      R.length = s.op.dlen.toNat - 1 ∧ recs.length = s.op.ilen.toNat ∧
      t.res.holdsOutput (operand s.op ++ syms R) ∧ t.res.holdsTrace recs ∧
      t.res.rlen.toNat = s.op.dlen.toNat - 1 ∧
      t = { s with res := { ResultState.zero with
        status := finished .generated .none, olen := t.res.olen, obuf := t.res.obuf, tlen := t.res.tlen,
        tbuf := t.res.tbuf, rlen := t.res.rlen } }

/-- 43_crc.md R176: CRC.CHK divides the received word itself, leaves the remainder in `OBUF`, and is CLEAN exactly
when the remainder is all zero, else DETECTED. R172 and 10_state.md R38: record `j` reports window `j` of
that division. -/
def Obligations.CrcChkReportsTheRemainder : Prop :=
  ∀ s : State, s.params.wf → s.op.ilen.toNat ≤ s.params.imax → s.op.dlen.toNat ≤ s.params.dmax →
    s.binaryOperand → s.binaryDivisor → 2 ≤ s.op.dlen.toNat → s.op.dlen.toNat < s.op.ilen.toNat →
    ∃ t R recs, exec .crcChk s = .next t ∧
      divisionTrace (bits (operand s.op)) (bits (divisor s.op)) R recs ∧
      crcdiv (bits (operand s.op)) (bits (divisor s.op)) = .ok (R, recs) ∧
      R.length = s.op.dlen.toNat - 1 ∧ recs.length = s.op.ilen.toNat - s.op.dlen.toNat + 1 ∧
      t.res.holdsOutput (syms R) ∧ t.res.holdsTrace recs ∧
      t.res.rlen.toNat = s.op.dlen.toNat - 1 ∧
      t = { s with res := { ResultState.zero with
        status := finished (if true ∈ R then .detected else .clean) .none, olen := t.res.olen,
        obuf := t.res.obuf, tlen := t.res.tlen, tbuf := t.res.tbuf, rlen := t.res.rlen } }

/-- 43_crc.md R179: checking a generated codeword with the same divisor is CLEAN, whatever the divisor's leading
bit. -/
def Obligations.CrcRoundTrip : Prop :=
  ∀ s t u : State, s.params.wf → exec .crcGen s = .next t → t.res.status.err = .none →
    operand u.op = output t.res → divisor u.op = divisor s.op →
    u.op.ilen.toNat ≤ u.params.imax → u.op.dlen.toNat ≤ u.params.dmax →
    ∃ v, exec .crcChk u = .next v ∧ v.res.status = finished .clean .none

/-- 43_crc.md R180: a flip of any single bit of a generated codeword leaves a non-zero remainder, except under a
divisor whose bits after the first are all 0, where the remainder is the last `k - 1` received bits whatever the
others are. -/
def Obligations.CrcDetectsSingleFlips : Prop :=
  ∀ D G : List Bool, 2 ≤ G.length → G.length < D.length →
    (true ∈ G.tail → ∀ R recs, crcdiv (D ++ List.replicate (G.length - 1) false) G = .ok (R, recs) →
      ∀ k, k < D.length + R.length →
        ∃ R' recs', crcdiv ((D ++ R).set k (!((D ++ R).getD k false))) G = .ok (R', recs') ∧ true ∈ R') ∧
    (true ∉ G.tail → ∃ recs, crcdiv D G = .ok (D.drop (D.length - (G.length - 1)), recs))

/-- 44_checksum.md R194, R195: `fold` ends at most at 0xFF, is congruent to its argument modulo 255, is 0 only for 0,
and is 255 exactly for the positive multiples of 255; folding after every addition gives the same folded sum as
folding once at the end. -/
def Obligations.FoldIsEndAroundCarry : Prop :=
  (∀ t : Nat, fold t ≤ 0xFF ∧ fold t % 255 = t % 255 ∧ (fold t = 0 ↔ t = 0) ∧
    (fold t = 255 ↔ 0 < t ∧ t % 255 = 0)) ∧
  ∀ Bv : List Nat, Bv.foldl (fun f b => fold (f + b)) 0 = fold Bv.sum

/-- 44_checksum.md R193, R196: CSUM.GEN sums the byte values of all tokens exactly, reduces once, and leaves the
checksum byte in `CSUM` and as two upper-case hex symbols in `OBUF`, with one trace record per byte. -/
def Obligations.CsumGenEmitsTheChecksum : Prop :=
  ∀ (v : ChecksumVariant) (s : State) (Bv : List Nat), s.params.wf → s.op.ilen.toNat ≤ s.params.imax →
    Bv ≠ [] → bytevals (tokens (operand s.op)) = some Bv →
    ∃ t c, exec (.csumGen v) s = .next t ∧
      t.res.sum.toNat = Bv.sum ∧
      t.res.fsum.toNat = (match v with | .mod256 => Bv.sum % 256 | .ones => fold Bv.sum) ∧
      c = (match v with | .mod256 => (256 - Bv.sum % 256) % 256 | .ones => 255 - fold Bv.sum) ∧
      t.res.csum.toNat = c ∧
      (∃ x y, hexDigits[c / 16]? = some x ∧ hexDigits[c % 16]? = some y ∧ t.res.holdsOutput [x, y]) ∧
      t.res.holdsTrace (Bv.mapIdx (fun j b =>
        { flags := 1, vlo := BitVec.ofNat 32 b, vhi := 0, tot := BitVec.ofNat 32 (Bv.take (j + 1)).sum })) ∧
      t = { s with res := { ResultState.zero with
        status := finished .generated .none, olen := t.res.olen, obuf := t.res.obuf, tlen := t.res.tlen,
        tbuf := t.res.tbuf, sum := t.res.sum, fsum := t.res.fsum, csum := t.res.csum } }

/-- 44_checksum.md R193, R197: CSUM.VER sums all bytes, the checksum byte included; it is CLEAN exactly when the
total is divisible by 256 (variant 0) or folds to 0xFF (variant 1), with `CSUM = 0`, and else DETECTED with the
checksum of all bytes but the last in `CSUM`. -/
def Obligations.CsumVerAcceptsOrReportsExpected : Prop :=
  ∀ (v : ChecksumVariant) (s : State) (Bd : List Nat) (last : Nat), s.params.wf →
    s.op.ilen.toNat ≤ s.params.imax → Bd ≠ [] → bytevals (tokens (operand s.op)) = some (Bd ++ [last]) →
    let total := Bd.sum + last
    let valid := match v with | .mod256 => total % 256 = 0 | .ones => fold total = 0xFF
    ∃ t, exec (.csumVer v) s = .next t ∧
      t.res.sum.toNat = total ∧
      t.res.fsum.toNat = (match v with | .mod256 => total % 256 | .ones => fold total) ∧
      (valid → t.res.status = finished .clean .none ∧ t.res.csum = 0) ∧
      (¬ valid → t.res.status = finished .detected .none ∧ t.res.csum.toNat =
        (match v with | .mod256 => (256 - Bd.sum % 256) % 256 | .ones => 255 - fold Bd.sum)) ∧
      t.res.holdsTrace ((Bd ++ [last]).mapIdx (fun j b =>
        { flags := 1, vlo := BitVec.ofNat 32 b, vhi := 0,
          tot := BitVec.ofNat 32 ((Bd ++ [last]).take (j + 1)).sum })) ∧
      t = { s with res := { ResultState.zero with
        status := t.res.status, tlen := t.res.tlen, tbuf := t.res.tbuf, sum := t.res.sum, fsum := t.res.fsum,
        csum := t.res.csum } }

/-- 44_checksum.md R198, R199: which last bytes CSUM.VER accepts for the data bytes `Bd`: in variant 0 exactly the
expected checksum; in variant 1 both 0x00 and 0xFF when the data fold to 0xFF, and else exactly the expected one.
So all-zero bytes are accepted in variant 0 and not in variant 1. -/
def Obligations.AcceptedChecksumBytes : Prop :=
  ∀ (Bd : List Nat) (c : Nat), (∀ b ∈ Bd, b < 256) → c < 256 →
    (reduce (Bd.sum + c) .mod256 = acceptedSum .mod256 ↔ c = expectedChecksum Bd .mod256) ∧
    (fold Bd.sum = 0xFF →
      (reduce (Bd.sum + c) .ones = acceptedSum .ones ↔ c = 0x00 ∨ c = 0xFF) ∧ expectedChecksum Bd .ones = 0x00) ∧
    (fold Bd.sum ≠ 0xFF →
      (reduce (Bd.sum + c) .ones = acceptedSum .ones ↔ c = expectedChecksum Bd .ones))

/-- 44_checksum.md R200: CSUM.GEN on a token text, then CSUM.VER of the same variant on that text followed by a
space and the two symbols of `OBUF`, ends CLEAN. -/
def Obligations.ChecksumRoundTrip : Prop :=
  ∀ (v : ChecksumVariant) (s t u : State), s.params.wf → exec (.csumGen v) s = .next t →
    t.res.status.err = .none →
    operand u.op = operand s.op ++ [symSpace] ++ output t.res → u.op.ilen.toNat ≤ u.params.imax →
    ∃ w, exec (.csumVer v) u = .next w ∧ w.res.status = finished .clean .none

/-- 45_twod_parity.md R224: in the generated matrix of a matrix `M` of `R` rows and `C` columns the data stand
unchanged, there is one more row and one more column, and every row and every column has an even 1-count. -/
def Obligations.GeneratedMatrixIsEven : Prop :=
  ∀ (M : List (List Bool)) (C : Nat), M ≠ [] → (∀ r ∈ M, r.length = C) →
    (augmentMatrix M).length = M.length + 1 ∧
    (∀ r ∈ augmentMatrix M, r.length = C + 1 ∧ par r = false) ∧
    (∀ j, j < C + 1 → par (column (augmentMatrix M) j) = false) ∧
    (augmentMatrix M).dropLast.map List.dropLast = M

/-- 45_twod_parity.md R222, R224: a grid is the rows' symbols with one line feed between two rows; P2D.GEN leaves the
grid of the generated matrix in `OBUF` and its size in `NROWS`
and `NCOLS`, and nothing else. -/
def Obligations.P2dGenEmitsTheMatrix : Prop :=
  (∀ A : List (List Bool), grid A = [0x0A#8].intercalate (A.map syms)) ∧
  ∀ (s : State) (M : List (List Bool)) (C : Nat), s.params.wf → s.op.ilen.toNat ≤ s.params.imax →
    M ≠ [] → 1 ≤ C → (∀ r ∈ M, r.length = C) → operand s.op = grid M →
    ∃ t, exec .p2dGen s = .next t ∧
      t.res.holdsOutput (grid (augmentMatrix M)) ∧
      t.res.nrows.toNat = M.length + 1 ∧ t.res.ncols.toNat = C + 1 ∧
      t = { s with res := { ResultState.zero with
        status := finished .generated .none, olen := t.res.olen, obuf := t.res.obuf, nrows := t.res.nrows,
        ncols := t.res.ncols } }

/-- 45_twod_parity.md R225: P2D.VER flags every row and column of odd 1-count and counts them; no mismatch is CLEAN,
exactly one row and one column flips the cell where they meet and is CORRECTED there, anything else is
UNCORRECTABLE with the grid as received. The two counts always have the same parity (R226). -/
def Obligations.P2dVerThreeWayPolicy : Prop :=
  ∀ (s : State) (M : List (List Bool)) (C : Nat), s.params.wf → s.op.ilen.toNat ≤ s.params.imax →
    M ≠ [] → 1 ≤ C → (∀ r ∈ M, r.length = C) → operand s.op = grid M →
    let rs := M.map par
    let cs := (List.range C).map (fun j => par (column M j))
    ∃ t, exec .p2dVer s = .next t ∧
      t.res.rmis.holdsFlags rs ∧ t.res.cmis.holdsFlags cs ∧
      t.res.rcnt.toNat = ones rs ∧ t.res.ccnt.toNat = ones cs ∧ ones rs % 2 = ones cs % 2 ∧
      t.res.nrows.toNat = M.length ∧ t.res.ncols.toNat = C ∧
      (ones rs = 0 ∧ ones cs = 0 → t.res.status = finished .clean .none ∧ t.res.erow = 0 ∧ t.res.ecol = 0 ∧
        t.res.holdsOutput (grid M)) ∧
      (ones rs = 1 ∧ ones cs = 1 → t.res.status = finished .corrected .none ∧
        rs[t.res.erow.toNat]? = some true ∧ cs[t.res.ecol.toNat]? = some true ∧
        t.res.holdsOutput (grid (flipCell M t.res.erow.toNat t.res.ecol.toNat))) ∧
      (¬ (ones rs = 0 ∧ ones cs = 0) ∧ ¬ (ones rs = 1 ∧ ones cs = 1) →
        t.res.status = finished .uncorrectable .mismatchPattern ∧ t.res.erow = 0 ∧ t.res.ecol = 0 ∧
        t.res.holdsOutput (grid M)) ∧
      t = { s with res := { ResultState.zero with
        status := t.res.status, olen := t.res.olen, obuf := t.res.obuf, nrows := t.res.nrows,
        ncols := t.res.ncols, rcnt := t.res.rcnt, ccnt := t.res.ccnt, erow := t.res.erow, ecol := t.res.ecol,
        rmis := t.res.rmis, cmis := t.res.cmis } }

/-- 45_twod_parity.md R227: verifying a generated matrix is CLEAN with the operand in `OBUF`; with one cell flipped
it is CORRECTED at that cell, with the generated matrix restored in `OBUF`. -/
def Obligations.TwoDParityCorrectsOneCell : Prop :=
  ∀ (s t u : State) (M : List (List Bool)) (C : Nat), s.params.wf → u.params.wf →
    M ≠ [] → 1 ≤ C → (∀ r ∈ M, r.length = C) → operand s.op = grid M →
    exec .p2dGen s = .next t → t.res.status.err = .none → u.op.ilen.toNat ≤ u.params.imax →
    (operand u.op = output t.res →
      ∃ v, exec .p2dVer u = .next v ∧ v.res.status = finished .clean .none ∧
        v.res.holdsOutput (output t.res)) ∧
    ∀ i j, i ≤ M.length → j ≤ C → operand u.op = grid (flipCell (augmentMatrix M) i j) →
      ∃ v, exec .p2dVer u = .next v ∧ v.res.status = finished .corrected .none ∧
        v.res.erow.toNat = i ∧ v.res.ecol.toNat = j ∧ v.res.holdsOutput (output t.res)

/-! ## Invariants -/

/-- Every step keeps the machine's invariant: parameters in range, buffers canonical and within their bounds
(10_state.md R26, R27, R35 to R39; 00_scope.md R7), the `STATUS` discipline (R31 to R33; 60_exceptions.md R252),
and the unreachable codes unreached (40_bitstring.md R105; 42_hamming.md R152). -/
def Obligations.EveryStepKeepsTheInvariant : Prop :=
  ∀ s t : State, s.Inv → step s = .next t → t.Inv

/-- The invariant holds after reset, with any parameters in range (10_state.md R42). -/
def Obligations.ResetHasTheInvariant : Prop :=
  State.reset.Inv ∧ ∀ p : Params, p.wf → (State.resetWith p).Inv

/-- 20_memory.md R68, 70_reset_and_hazards.md R288: from a safe state, whose waiting accesses are all in contract,
the machine performs every one of them: as many steps as there are accesses end in a next state with none left. -/
def Obligations.SafeRunsComplete : Prop :=
  ∀ s : State, s.Safe → ∃ t, Host.Core.run Sys2Proof.core s.pending.length s = .next t ∧
    t.pending = [] ∧ t.Inv
end

