-- ==== Sys2Proof/Laws/Memory.lean ====
section
/-! SUPPORT. The laws of a buffer: a read after a write, the canonical form, the elements listed, and that two
canonical buffers with the same elements are the same data. -/

namespace Sys2Proof.Machine.Memory

variable {w : Nat}

@[simp] theorem read_nil (i : Nat) : read ([] : Memory w) i = 0 := rfl

theorem read_cons (j : Nat) (v : BitVec w) (m : Memory w) (i : Nat) :
    read ((j, v) :: m) i = if i = j then v else read m i := rfl

theorem wf_nil : wf ([] : Memory w) := ⟨List.Pairwise.nil, by simp⟩

theorem wf_tail {c : Nat × BitVec w} {m : Memory w} (h : wf (c :: m)) : wf m :=
  ⟨h.1.of_cons, fun x hx => h.2 x (List.mem_cons_of_mem c hx)⟩

theorem wf_head_lt {c : Nat × BitVec w} {m : Memory w} (h : wf (c :: m)) : ∀ x ∈ m, c.1 < x.1 :=
  fun _ hx => List.rel_of_pairwise_cons h.1 hx

/-- An element below every listed one reads 0. -/
theorem read_of_lt (m : Memory w) (i : Nat) (h : ∀ c ∈ m, i < c.1) : read m i = 0 := by
  induction m with
  | nil => rfl
  | cons c m ih =>
    have hc := h c (by simp)
    rw [read_cons, if_neg (by omega)]
    exact ih (fun x hx => h x (List.mem_cons_of_mem c hx))

/-- An element no entry lists reads 0. -/
theorem read_of_not_listed (m : Memory w) (i : Nat) (h : ∀ c ∈ m, c.1 ≠ i) : read m i = 0 := by
  induction m with
  | nil => rfl
  | cons c m ih =>
    have hc := h c (by simp)
    rw [read_cons, if_neg (fun e => hc e.symm)]
    exact ih (fun x hx => h x (List.mem_cons_of_mem c hx))

/-- Elements from the bound of a buffer on read 0. -/
theorem read_of_below {m : Memory w} {n i : Nat} (h : m.below n) (hi : n ≤ i) : read m i = 0 :=
  read_of_not_listed m i (fun c hc => by have := h c hc; omega)

/-- A write lists no index but the old ones and its own. -/
theorem write_mem (m : Memory w) (i : Nat) (v : BitVec w) :
    ∀ c ∈ write m i v, c ∈ m ∨ (c = (i, v) ∧ v ≠ 0) := by
  induction m with
  | nil =>
    intro c hc
    simp only [write] at hc
    split at hc <;> simp_all
  | cons e m ih =>
    obtain ⟨j, u⟩ := e
    intro c hc
    simp only [write] at hc
    split_ifs at hc with h1 h2 h3 h4 <;> simp only [List.mem_cons] at hc ⊢
    · exact .inl hc
    · rcases hc with rfl | hc
      · exact .inr ⟨rfl, h2⟩
      · exact .inl hc
    · exact .inl (.inr hc)
    · rcases hc with rfl | hc
      · exact .inr ⟨rfl, h4⟩
      · exact .inl (.inr hc)
    · rcases hc with rfl | hc
      · exact .inl (.inl rfl)
      · rcases ih c hc with h | h
        · exact .inl (.inr h)
        · exact .inr h

/-- A write keeps the canonical form. -/
theorem write_wf {m : Memory w} (h : wf m) (i : Nat) (v : BitVec w) : wf (write m i v) := by
  induction m with
  | nil =>
    by_cases hv : v = 0
    · simp only [write, if_pos hv]
      exact wf_nil
    · simp only [write, if_neg hv]
      exact ⟨List.pairwise_singleton _ _, by simpa using hv⟩
  | cons e m ih =>
    obtain ⟨j, u⟩ := e
    have hlt := wf_head_lt h
    have hne : u ≠ 0 := h.2 (j, u) (by simp)
    simp only [write]
    split_ifs with h1 h2 h3 h4
    · exact h
    · refine ⟨List.Pairwise.cons ?_ h.1, ?_⟩
      · intro c hc
        rcases List.mem_cons.1 hc with rfl | hc
        · exact h1
        · have := hlt c hc; simp only at this ⊢; omega
      · intro c hc
        rcases List.mem_cons.1 hc with rfl | hc
        · exact h2
        · exact h.2 c hc
    · exact wf_tail h
    · subst h3
      exact ⟨List.Pairwise.cons hlt h.1.of_cons, fun c hc => by
        rcases List.mem_cons.1 hc with rfl | hc
        · exact h4
        · exact h.2 c (List.mem_cons_of_mem _ hc)⟩
    · have iht := ih (wf_tail h)
      refine ⟨List.Pairwise.cons ?_ iht.1, ?_⟩
      · intro c hc
        rcases write_mem m i v c hc with hm | ⟨rfl, -⟩
        · exact hlt c hm
        · simp only; omega
      · intro c hc
        rcases List.mem_cons.1 hc with rfl | hc
        · exact hne
        · exact iht.2 c hc

/-- Read after write. -/
theorem read_write {m : Memory w} (h : wf m) (i : Nat) (v : BitVec w) (k : Nat) :
    read (write m i v) k = if k = i then v else read m k := by
  induction m with
  | nil =>
    by_cases hv : v = 0
    · simp only [write, if_pos hv, read]
      split <;> simp [hv]
    · simp only [write, if_neg hv, read]
  | cons e m ih =>
    obtain ⟨j, u⟩ := e
    have hlt := wf_head_lt h
    have iht := ih (wf_tail h)
    simp only [write]
    split_ifs with h1 h2 h3 h4 h5
    all_goals first
      | (subst_vars; rfl)
      | skip
    · -- writing 0 to an unlisted element
      subst h2; subst h3
      exact read_of_lt _ _ (fun c hc => by
        rcases List.mem_cons.1 hc with rfl | hc
        · exact h1
        · have := hlt c hc; simp only at this ⊢; omega)
    · simp [read_cons, h4]
    · simp [read_cons, h4]
    · -- writing 0 to a listed element
      subst_vars
      exact read_of_lt _ _ hlt
    · subst_vars; simp [read_cons, *]
    · subst_vars; simp [read_cons]
    · subst_vars; simp [read_cons, *]
    · rw [read_cons, iht]; simp [*]
    · rw [read_cons, iht, read_cons]; simp [*]

/-- A write of several elements keeps the canonical form. -/
theorem writeSeq_wf {m : Memory w} (h : wf m) (i : Nat) (vs : List (BitVec w)) : wf (writeSeq m i vs) := by
  induction vs generalizing m i with
  | nil => exact h
  | cons v vs ih => exact ih (write_wf h i v) (i + 1)

/-- Read after a write of several elements: the written one where there is one, else the old one. -/
theorem read_writeSeq {m : Memory w} (h : wf m) (i : Nat) (vs : List (BitVec w)) (k : Nat) :
    read (writeSeq m i vs) k = if i ≤ k ∧ k < i + vs.length then vs.getD (k - i) 0 else read m k := by
  induction vs generalizing m i with
  | nil => simp only [writeSeq, List.length_nil]; rw [if_neg (by omega)]
  | cons v vs ih =>
    rw [writeSeq, ih (write_wf h i v), read_write h]
    rw [List.length_cons]
    rcases Nat.lt_trichotomy k i with hk | hk | hk
    · rw [if_neg (by omega), if_neg (by omega), if_neg (by omega)]
    · subst hk
      rw [if_neg (by omega), if_pos rfl, if_pos (by omega)]
      simp
    · have hki : k - i = (k - (i + 1)) + 1 := by omega
      by_cases h2 : k < i + 1 + vs.length
      · rw [if_pos (by omega), if_pos (by omega), hki, List.getD_cons_succ]
      · rw [if_neg (by omega), if_neg (by omega), if_neg (by omega)]

/-- A write of several elements lists nothing from its end, or the old bound, on. -/
theorem writeSeq_below {m : Memory w} {n : Nat} (h : m.below n) (i : Nat) (vs : List (BitVec w))
    (hi : i + vs.length ≤ n) : (writeSeq m i vs).below n := by
  induction vs generalizing m i with
  | nil => exact h
  | cons v vs ih =>
    rw [List.length_cons] at hi
    refine ih ?_ (i + 1) (by omega)
    intro c hc
    rcases write_mem m i v c hc with hm | ⟨rfl, -⟩
    · exact h c hm
    · simp only; omega

/-- Two canonical buffers with the same elements are the same data. -/
theorem ext_of_read {m n : Memory w} (hm : wf m) (hn : wf n) (h : ∀ i, read m i = read n i) : m = n := by
  induction m generalizing n with
  | nil =>
    cases n with
    | nil => rfl
    | cons c n =>
      have h0 := h c.1
      rw [read_nil, show c = (c.1, c.2) from rfl, read_cons, if_pos rfl] at h0
      exact absurd h0.symm (hn.2 c (by simp))
  | cons c m ih =>
    cases n with
    | nil =>
      have h0 := h c.1
      rw [read_nil, show c = (c.1, c.2) from rfl, read_cons, if_pos rfl] at h0
      exact absurd h0 (hm.2 c (by simp))
    | cons d n =>
      obtain ⟨j, u⟩ := c
      obtain ⟨k, v⟩ := d
      have hmlt := wf_head_lt hm
      have hnlt := wf_head_lt hn
      have hu : u ≠ 0 := hm.2 (j, u) (by simp)
      have hv : v ≠ 0 := hn.2 (k, v) (by simp)
      have hjk : j = k := by
        rcases Nat.lt_trichotomy j k with hlt | heq | hgt
        · have h0 := h j
          rw [read_cons, if_pos rfl, read_cons, if_neg (by omega),
            read_of_lt n j (fun c hc => by have := hnlt c hc; simp only at this; omega)] at h0
          exact absurd h0 hu
        · exact heq
        · have h0 := h k
          rw [read_cons, if_neg (by omega), read_cons, if_pos rfl,
            read_of_lt m k (fun c hc => by have := hmlt c hc; simp only at this; omega)] at h0
          exact absurd h0.symm hv
      subst hjk
      have huv : u = v := by simpa [read_cons] using h j
      subst huv
      congr 1
      refine ih (wf_tail hm) (wf_tail hn) (fun i => ?_)
      by_cases hi : i = j
      · subst hi
        rw [read_of_lt m i hmlt, read_of_lt n i hnlt]
      · simpa [read_cons, hi] using h i

@[simp] theorem take_length (m : Memory w) (n : Nat) : (m.take n).length = n := by simp [take]

theorem take_getElem? (m : Memory w) (n i : Nat) (h : i < n) : (m.take n)[i]? = some (m.read i) := by
  simp [take, h]

/-- The elements `0 .. n-1` depend on nothing else. -/
theorem take_congr {m m' : Memory w} {n : Nat} (h : ∀ i < n, m.read i = m'.read i) : m.take n = m'.take n :=
  List.map_congr_left (fun i hi => h i (List.mem_range.1 hi))

/-- A text written into an empty buffer is read back. -/
theorem take_writeSeq (vs : List (BitVec w)) : (writeSeq ([] : Memory w) 0 vs).take vs.length = vs := by
  apply List.ext_getElem
  · simp
  · intro i h1 h2
    simp only [take, List.getElem_map, List.getElem_range]
    rw [read_writeSeq wf_nil, if_pos (by omega)]
    simp [List.getD_eq_getElem?_getD, h2]

end Sys2Proof.Machine.Memory
end

