-- ==== Sys2Proof/Laws/State.lean ====
section
/-! SUPPORT. One lemma per field per update of the result state, and the fields a command leaves alone. -/

namespace Sys2Proof.Machine

/-! ## Clearing (60_exceptions.md R251) -/

@[simp] theorem clearResults_olen (r : ResultState) : (clearResults r).olen = 0 := rfl
@[simp] theorem clearResults_tlen (r : ResultState) : (clearResults r).tlen = 0 := rfl
@[simp] theorem clearResults_ones (r : ResultState) : (clearResults r).ones = 0 := rfl
@[simp] theorem clearResults_pbit (r : ResultState) : (clearResults r).pbit = 0 := rfl
@[simp] theorem clearResults_rbit (r : ResultState) : (clearResults r).rbit = 0 := rfl
@[simp] theorem clearResults_npar (r : ResultState) : (clearResults r).npar = 0 := rfl
@[simp] theorem clearResults_synd (r : ResultState) : (clearResults r).synd = 0 := rfl
@[simp] theorem clearResults_synd2 (r : ResultState) : (clearResults r).synd2 = 0 := rfl
@[simp] theorem clearResults_epos (r : ResultState) : (clearResults r).epos = 0 := rfl
@[simp] theorem clearResults_rlen (r : ResultState) : (clearResults r).rlen = 0 := rfl
@[simp] theorem clearResults_sum (r : ResultState) : (clearResults r).sum = 0 := rfl
@[simp] theorem clearResults_fsum (r : ResultState) : (clearResults r).fsum = 0 := rfl
@[simp] theorem clearResults_csum (r : ResultState) : (clearResults r).csum = 0 := rfl
@[simp] theorem clearResults_nrows (r : ResultState) : (clearResults r).nrows = 0 := rfl
@[simp] theorem clearResults_ncols (r : ResultState) : (clearResults r).ncols = 0 := rfl
@[simp] theorem clearResults_rcnt (r : ResultState) : (clearResults r).rcnt = 0 := rfl
@[simp] theorem clearResults_ccnt (r : ResultState) : (clearResults r).ccnt = 0 := rfl
@[simp] theorem clearResults_erow (r : ResultState) : (clearResults r).erow = 0 := rfl
@[simp] theorem clearResults_ecol (r : ResultState) : (clearResults r).ecol = 0 := rfl
@[simp] theorem clearResults_obuf (r : ResultState) : (clearResults r).obuf = [] := rfl
@[simp] theorem clearResults_tbuf (r : ResultState) : (clearResults r).tbuf = [] := rfl
@[simp] theorem clearResults_rmis (r : ResultState) : (clearResults r).rmis = [] := rfl
@[simp] theorem clearResults_cmis (r : ResultState) : (clearResults r).cmis = [] := rfl
@[simp] theorem clearResults_done (r : ResultState) : (clearResults r).status.done = r.status.done := rfl
@[simp] theorem clearResults_err (r : ResultState) : (clearResults r).status.err = .none := rfl
@[simp] theorem clearResults_outcome (r : ResultState) : (clearResults r).status.outcome = .none := rfl
@[simp] theorem clearResults_detail (r : ResultState) : (clearResults r).status.detail = .none := rfl

/-! ## Raising an error (60_exceptions.md R252) -/

@[simp] theorem raise_olen (e : ErrorCode) (r : ResultState) : (raise e r).olen = r.olen := rfl
@[simp] theorem raise_tlen (e : ErrorCode) (r : ResultState) : (raise e r).tlen = r.tlen := rfl
@[simp] theorem raise_ones (e : ErrorCode) (r : ResultState) : (raise e r).ones = r.ones := rfl
@[simp] theorem raise_pbit (e : ErrorCode) (r : ResultState) : (raise e r).pbit = r.pbit := rfl
@[simp] theorem raise_rbit (e : ErrorCode) (r : ResultState) : (raise e r).rbit = r.rbit := rfl
@[simp] theorem raise_npar (e : ErrorCode) (r : ResultState) : (raise e r).npar = r.npar := rfl
@[simp] theorem raise_synd (e : ErrorCode) (r : ResultState) : (raise e r).synd = r.synd := rfl
@[simp] theorem raise_synd2 (e : ErrorCode) (r : ResultState) : (raise e r).synd2 = r.synd2 := rfl
@[simp] theorem raise_epos (e : ErrorCode) (r : ResultState) : (raise e r).epos = r.epos := rfl
@[simp] theorem raise_rlen (e : ErrorCode) (r : ResultState) : (raise e r).rlen = r.rlen := rfl
@[simp] theorem raise_sum (e : ErrorCode) (r : ResultState) : (raise e r).sum = r.sum := rfl
@[simp] theorem raise_fsum (e : ErrorCode) (r : ResultState) : (raise e r).fsum = r.fsum := rfl
@[simp] theorem raise_csum (e : ErrorCode) (r : ResultState) : (raise e r).csum = r.csum := rfl
@[simp] theorem raise_nrows (e : ErrorCode) (r : ResultState) : (raise e r).nrows = r.nrows := rfl
@[simp] theorem raise_ncols (e : ErrorCode) (r : ResultState) : (raise e r).ncols = r.ncols := rfl
@[simp] theorem raise_rcnt (e : ErrorCode) (r : ResultState) : (raise e r).rcnt = r.rcnt := rfl
@[simp] theorem raise_ccnt (e : ErrorCode) (r : ResultState) : (raise e r).ccnt = r.ccnt := rfl
@[simp] theorem raise_erow (e : ErrorCode) (r : ResultState) : (raise e r).erow = r.erow := rfl
@[simp] theorem raise_ecol (e : ErrorCode) (r : ResultState) : (raise e r).ecol = r.ecol := rfl
@[simp] theorem raise_obuf (e : ErrorCode) (r : ResultState) : (raise e r).obuf = r.obuf := rfl
@[simp] theorem raise_tbuf (e : ErrorCode) (r : ResultState) : (raise e r).tbuf = r.tbuf := rfl
@[simp] theorem raise_rmis (e : ErrorCode) (r : ResultState) : (raise e r).rmis = r.rmis := rfl
@[simp] theorem raise_cmis (e : ErrorCode) (r : ResultState) : (raise e r).cmis = r.cmis := rfl
@[simp] theorem raise_done (e : ErrorCode) (r : ResultState) : (raise e r).status.done = true := rfl
@[simp] theorem raise_err (e : ErrorCode) (r : ResultState) : (raise e r).status.err = e := rfl
@[simp] theorem raise_outcome (e : ErrorCode) (r : ResultState) : (raise e r).status.outcome = r.status.outcome := rfl
@[simp] theorem raise_detail (e : ErrorCode) (r : ResultState) : (raise e r).status.detail = r.status.detail := rfl

/-! ## `DONE` (30_encoding.md R86) -/

@[simp] theorem setDone_olen (r : ResultState) : (setDone r).olen = r.olen := rfl
@[simp] theorem setDone_tlen (r : ResultState) : (setDone r).tlen = r.tlen := rfl
@[simp] theorem setDone_ones (r : ResultState) : (setDone r).ones = r.ones := rfl
@[simp] theorem setDone_pbit (r : ResultState) : (setDone r).pbit = r.pbit := rfl
@[simp] theorem setDone_rbit (r : ResultState) : (setDone r).rbit = r.rbit := rfl
@[simp] theorem setDone_npar (r : ResultState) : (setDone r).npar = r.npar := rfl
@[simp] theorem setDone_synd (r : ResultState) : (setDone r).synd = r.synd := rfl
@[simp] theorem setDone_synd2 (r : ResultState) : (setDone r).synd2 = r.synd2 := rfl
@[simp] theorem setDone_epos (r : ResultState) : (setDone r).epos = r.epos := rfl
@[simp] theorem setDone_rlen (r : ResultState) : (setDone r).rlen = r.rlen := rfl
@[simp] theorem setDone_sum (r : ResultState) : (setDone r).sum = r.sum := rfl
@[simp] theorem setDone_fsum (r : ResultState) : (setDone r).fsum = r.fsum := rfl
@[simp] theorem setDone_csum (r : ResultState) : (setDone r).csum = r.csum := rfl
@[simp] theorem setDone_nrows (r : ResultState) : (setDone r).nrows = r.nrows := rfl
@[simp] theorem setDone_ncols (r : ResultState) : (setDone r).ncols = r.ncols := rfl
@[simp] theorem setDone_rcnt (r : ResultState) : (setDone r).rcnt = r.rcnt := rfl
@[simp] theorem setDone_ccnt (r : ResultState) : (setDone r).ccnt = r.ccnt := rfl
@[simp] theorem setDone_erow (r : ResultState) : (setDone r).erow = r.erow := rfl
@[simp] theorem setDone_ecol (r : ResultState) : (setDone r).ecol = r.ecol := rfl
@[simp] theorem setDone_obuf (r : ResultState) : (setDone r).obuf = r.obuf := rfl
@[simp] theorem setDone_tbuf (r : ResultState) : (setDone r).tbuf = r.tbuf := rfl
@[simp] theorem setDone_rmis (r : ResultState) : (setDone r).rmis = r.rmis := rfl
@[simp] theorem setDone_cmis (r : ResultState) : (setDone r).cmis = r.cmis := rfl
@[simp] theorem setDone_done (r : ResultState) : (setDone r).status.done = true := rfl
@[simp] theorem setDone_err (r : ResultState) : (setDone r).status.err = r.status.err := rfl
@[simp] theorem setDone_outcome (r : ResultState) : (setDone r).status.outcome = r.status.outcome := rfl
@[simp] theorem setDone_detail (r : ResultState) : (setDone r).status.detail = r.status.detail := rfl

/-! ## `emit` (00_scope.md R10) -/

@[simp] theorem emit_status (S : List Symbol) (r : ResultState) : (emit S r).status = r.status := rfl
@[simp] theorem emit_olen (S : List Symbol) (r : ResultState) : (emit S r).olen = BitVec.ofNat 32 S.length := rfl
@[simp] theorem emit_tlen (S : List Symbol) (r : ResultState) : (emit S r).tlen = r.tlen := rfl
@[simp] theorem emit_ones (S : List Symbol) (r : ResultState) : (emit S r).ones = r.ones := rfl
@[simp] theorem emit_pbit (S : List Symbol) (r : ResultState) : (emit S r).pbit = r.pbit := rfl
@[simp] theorem emit_rbit (S : List Symbol) (r : ResultState) : (emit S r).rbit = r.rbit := rfl
@[simp] theorem emit_npar (S : List Symbol) (r : ResultState) : (emit S r).npar = r.npar := rfl
@[simp] theorem emit_synd (S : List Symbol) (r : ResultState) : (emit S r).synd = r.synd := rfl
@[simp] theorem emit_synd2 (S : List Symbol) (r : ResultState) : (emit S r).synd2 = r.synd2 := rfl
@[simp] theorem emit_epos (S : List Symbol) (r : ResultState) : (emit S r).epos = r.epos := rfl
@[simp] theorem emit_rlen (S : List Symbol) (r : ResultState) : (emit S r).rlen = r.rlen := rfl
@[simp] theorem emit_sum (S : List Symbol) (r : ResultState) : (emit S r).sum = r.sum := rfl
@[simp] theorem emit_fsum (S : List Symbol) (r : ResultState) : (emit S r).fsum = r.fsum := rfl
@[simp] theorem emit_csum (S : List Symbol) (r : ResultState) : (emit S r).csum = r.csum := rfl
@[simp] theorem emit_nrows (S : List Symbol) (r : ResultState) : (emit S r).nrows = r.nrows := rfl
@[simp] theorem emit_ncols (S : List Symbol) (r : ResultState) : (emit S r).ncols = r.ncols := rfl
@[simp] theorem emit_rcnt (S : List Symbol) (r : ResultState) : (emit S r).rcnt = r.rcnt := rfl
@[simp] theorem emit_ccnt (S : List Symbol) (r : ResultState) : (emit S r).ccnt = r.ccnt := rfl
@[simp] theorem emit_erow (S : List Symbol) (r : ResultState) : (emit S r).erow = r.erow := rfl
@[simp] theorem emit_ecol (S : List Symbol) (r : ResultState) : (emit S r).ecol = r.ecol := rfl
@[simp] theorem emit_obuf (S : List Symbol) (r : ResultState) : (emit S r).obuf = r.obuf.writeSeq 0 S := rfl
@[simp] theorem emit_tbuf (S : List Symbol) (r : ResultState) : (emit S r).tbuf = r.tbuf := rfl
@[simp] theorem emit_rmis (S : List Symbol) (r : ResultState) : (emit S r).rmis = r.rmis := rfl
@[simp] theorem emit_cmis (S : List Symbol) (r : ResultState) : (emit S r).cmis = r.cmis := rfl

/-! ## `trace` (00_scope.md R10) -/

@[simp] theorem trace_status (r : ResultState) (t : TraceRecord) : (trace r t).status = r.status := rfl
@[simp] theorem trace_olen (r : ResultState) (t : TraceRecord) : (trace r t).olen = r.olen := rfl
@[simp] theorem trace_tlen (r : ResultState) (t : TraceRecord) : (trace r t).tlen = r.tlen + 1 := rfl
@[simp] theorem trace_ones (r : ResultState) (t : TraceRecord) : (trace r t).ones = r.ones := rfl
@[simp] theorem trace_pbit (r : ResultState) (t : TraceRecord) : (trace r t).pbit = r.pbit := rfl
@[simp] theorem trace_rbit (r : ResultState) (t : TraceRecord) : (trace r t).rbit = r.rbit := rfl
@[simp] theorem trace_npar (r : ResultState) (t : TraceRecord) : (trace r t).npar = r.npar := rfl
@[simp] theorem trace_synd (r : ResultState) (t : TraceRecord) : (trace r t).synd = r.synd := rfl
@[simp] theorem trace_synd2 (r : ResultState) (t : TraceRecord) : (trace r t).synd2 = r.synd2 := rfl
@[simp] theorem trace_epos (r : ResultState) (t : TraceRecord) : (trace r t).epos = r.epos := rfl
@[simp] theorem trace_rlen (r : ResultState) (t : TraceRecord) : (trace r t).rlen = r.rlen := rfl
@[simp] theorem trace_sum (r : ResultState) (t : TraceRecord) : (trace r t).sum = r.sum := rfl
@[simp] theorem trace_fsum (r : ResultState) (t : TraceRecord) : (trace r t).fsum = r.fsum := rfl
@[simp] theorem trace_csum (r : ResultState) (t : TraceRecord) : (trace r t).csum = r.csum := rfl
@[simp] theorem trace_nrows (r : ResultState) (t : TraceRecord) : (trace r t).nrows = r.nrows := rfl
@[simp] theorem trace_ncols (r : ResultState) (t : TraceRecord) : (trace r t).ncols = r.ncols := rfl
@[simp] theorem trace_rcnt (r : ResultState) (t : TraceRecord) : (trace r t).rcnt = r.rcnt := rfl
@[simp] theorem trace_ccnt (r : ResultState) (t : TraceRecord) : (trace r t).ccnt = r.ccnt := rfl
@[simp] theorem trace_erow (r : ResultState) (t : TraceRecord) : (trace r t).erow = r.erow := rfl
@[simp] theorem trace_ecol (r : ResultState) (t : TraceRecord) : (trace r t).ecol = r.ecol := rfl
@[simp] theorem trace_obuf (r : ResultState) (t : TraceRecord) : (trace r t).obuf = r.obuf := rfl
@[simp] theorem trace_tbuf (r : ResultState) (t : TraceRecord) :
    (trace r t).tbuf = r.tbuf.writeSeq (4 * r.tlen.toNat) [t.flags, t.vlo, t.vhi, t.tot] := rfl
@[simp] theorem trace_rmis (r : ResultState) (t : TraceRecord) : (trace r t).rmis = r.rmis := rfl
@[simp] theorem trace_cmis (r : ResultState) (t : TraceRecord) : (trace r t).cmis = r.cmis := rfl

theorem traceAll_nil (r : ResultState) : traceAll r [] = r := rfl

theorem traceAll_cons (r : ResultState) (t : TraceRecord) (ts : List TraceRecord) :
    traceAll r (t :: ts) = traceAll (trace r t) ts := rfl

/-- A trace leaves alone whatever one record leaves alone. -/
theorem traceAll_keeps {α : Type} (f : ResultState → α) (hf : ∀ r t, f (trace r t) = f r)
    (r : ResultState) (ts : List TraceRecord) : f (traceAll r ts) = f r := by
  induction ts generalizing r with
  | nil => rfl
  | cons t ts ih => rw [traceAll_cons, ih, hf]

@[simp] theorem traceAll_status (r : ResultState) (ts : List TraceRecord) : (traceAll r ts).status = r.status :=
  traceAll_keeps (·.status) (fun _ _ => rfl) r ts
@[simp] theorem traceAll_olen (r : ResultState) (ts : List TraceRecord) : (traceAll r ts).olen = r.olen :=
  traceAll_keeps (·.olen) (fun _ _ => rfl) r ts
@[simp] theorem traceAll_ones (r : ResultState) (ts : List TraceRecord) : (traceAll r ts).ones = r.ones :=
  traceAll_keeps (·.ones) (fun _ _ => rfl) r ts
@[simp] theorem traceAll_pbit (r : ResultState) (ts : List TraceRecord) : (traceAll r ts).pbit = r.pbit :=
  traceAll_keeps (·.pbit) (fun _ _ => rfl) r ts
@[simp] theorem traceAll_rbit (r : ResultState) (ts : List TraceRecord) : (traceAll r ts).rbit = r.rbit :=
  traceAll_keeps (·.rbit) (fun _ _ => rfl) r ts
@[simp] theorem traceAll_npar (r : ResultState) (ts : List TraceRecord) : (traceAll r ts).npar = r.npar :=
  traceAll_keeps (·.npar) (fun _ _ => rfl) r ts
@[simp] theorem traceAll_synd (r : ResultState) (ts : List TraceRecord) : (traceAll r ts).synd = r.synd :=
  traceAll_keeps (·.synd) (fun _ _ => rfl) r ts
@[simp] theorem traceAll_synd2 (r : ResultState) (ts : List TraceRecord) : (traceAll r ts).synd2 = r.synd2 :=
  traceAll_keeps (·.synd2) (fun _ _ => rfl) r ts
@[simp] theorem traceAll_epos (r : ResultState) (ts : List TraceRecord) : (traceAll r ts).epos = r.epos :=
  traceAll_keeps (·.epos) (fun _ _ => rfl) r ts
@[simp] theorem traceAll_rlen (r : ResultState) (ts : List TraceRecord) : (traceAll r ts).rlen = r.rlen :=
  traceAll_keeps (·.rlen) (fun _ _ => rfl) r ts
@[simp] theorem traceAll_sum (r : ResultState) (ts : List TraceRecord) : (traceAll r ts).sum = r.sum :=
  traceAll_keeps (·.sum) (fun _ _ => rfl) r ts
@[simp] theorem traceAll_fsum (r : ResultState) (ts : List TraceRecord) : (traceAll r ts).fsum = r.fsum :=
  traceAll_keeps (·.fsum) (fun _ _ => rfl) r ts
@[simp] theorem traceAll_csum (r : ResultState) (ts : List TraceRecord) : (traceAll r ts).csum = r.csum :=
  traceAll_keeps (·.csum) (fun _ _ => rfl) r ts
@[simp] theorem traceAll_nrows (r : ResultState) (ts : List TraceRecord) : (traceAll r ts).nrows = r.nrows :=
  traceAll_keeps (·.nrows) (fun _ _ => rfl) r ts
@[simp] theorem traceAll_ncols (r : ResultState) (ts : List TraceRecord) : (traceAll r ts).ncols = r.ncols :=
  traceAll_keeps (·.ncols) (fun _ _ => rfl) r ts
@[simp] theorem traceAll_rcnt (r : ResultState) (ts : List TraceRecord) : (traceAll r ts).rcnt = r.rcnt :=
  traceAll_keeps (·.rcnt) (fun _ _ => rfl) r ts
@[simp] theorem traceAll_ccnt (r : ResultState) (ts : List TraceRecord) : (traceAll r ts).ccnt = r.ccnt :=
  traceAll_keeps (·.ccnt) (fun _ _ => rfl) r ts
@[simp] theorem traceAll_erow (r : ResultState) (ts : List TraceRecord) : (traceAll r ts).erow = r.erow :=
  traceAll_keeps (·.erow) (fun _ _ => rfl) r ts
@[simp] theorem traceAll_ecol (r : ResultState) (ts : List TraceRecord) : (traceAll r ts).ecol = r.ecol :=
  traceAll_keeps (·.ecol) (fun _ _ => rfl) r ts
@[simp] theorem traceAll_obuf (r : ResultState) (ts : List TraceRecord) : (traceAll r ts).obuf = r.obuf :=
  traceAll_keeps (·.obuf) (fun _ _ => rfl) r ts
@[simp] theorem traceAll_rmis (r : ResultState) (ts : List TraceRecord) : (traceAll r ts).rmis = r.rmis :=
  traceAll_keeps (·.rmis) (fun _ _ => rfl) r ts
@[simp] theorem traceAll_cmis (r : ResultState) (ts : List TraceRecord) : (traceAll r ts).cmis = r.cmis :=
  traceAll_keeps (·.cmis) (fun _ _ => rfl) r ts

/-- `TLEN` counts the records (10_state.md R27). -/
theorem traceAll_tlen (r : ResultState) (ts : List TraceRecord) :
    (traceAll r ts).tlen = r.tlen + BitVec.ofNat 32 ts.length := by
  induction ts generalizing r with
  | nil => simp [traceAll_nil]
  | cons t ts ih =>
    rw [traceAll_cons, ih, trace_tlen, List.length_cons, BitVec.add_assoc]
    congr 1
    apply BitVec.eq_of_toNat_eq
    simp [Nat.add_comm]

/-! ## A command writes result state only (10_state.md R22) -/

/-- What a legal command does to the machine, whichever its rule. -/
theorem runCommand_eq (d : Bool) (rule : Rule) (s : State) :
    runCommand d rule s = .next { s with res := commandResult d rule s.params s.op s.res } := rfl

@[simp] theorem illegalCommand_params (s : State) : (illegalCommand s).params = s.params := rfl
@[simp] theorem illegalCommand_cmd (s : State) : (illegalCommand s).cmd = s.cmd := rfl
@[simp] theorem illegalCommand_op (s : State) : (illegalCommand s).op = s.op := rfl
@[simp] theorem illegalCommand_pending (s : State) : (illegalCommand s).pending = s.pending := rfl
@[simp] theorem illegalCommand_reply (s : State) : (illegalCommand s).reply = s.reply := rfl

@[simp] theorem applyReset_params (s : State) : (applyReset s).params = s.params := rfl
@[simp] theorem applyReset_cmd (s : State) : (applyReset s).cmd = 0 := rfl
@[simp] theorem applyReset_op (s : State) : (applyReset s).op = OperandState.zero := rfl
@[simp] theorem applyReset_res (s : State) : (applyReset s).res = ResultState.zero := rfl
@[simp] theorem applyReset_pending (s : State) : (applyReset s).pending = s.pending := rfl
@[simp] theorem applyReset_reply (s : State) : (applyReset s).reply = .idle := rfl

end Sys2Proof.Machine
end

