-- ==== Sys2Proof/Laws/Commands.lean ====
section
/-! SUPPORT. What a command can do, said once: it replaces the result state by `commandResult` of its rule and
leaves every other field alone; and `commandResult` is one of three results (spec/30_encoding.md R86). -/

namespace Sys2Proof.Machine

/-- The family rule of a command (30_encoding.md R82). -/
def ruleOf : Instr → Rule
  | .parGen m => parGenRule m
  | .parChk m => parChkRule m
  | .hamEnc => hamEncRule
  | .hamDec => hamDecRule
  | .crcGen => crcGenRule
  | .crcChk => crcChkRule
  | .csumGen v => csumGenRule v
  | .csumVer v => csumVerRule v
  | .p2dGen => p2dGenRule
  | .p2dVer => p2dVerRule

/-- Every command, in one equation. -/
theorem exec_eq (i : Instr) (s : State) :
    exec i s = .next { s with res := commandResult (isCrc i) (ruleOf i) s.params s.op s.res } := by
  cases i <;> rfl

/-- The inversion of a command's step. -/
theorem exec_next {i : Instr} {s t : State} (h : exec i s = .next t) :
    t = { s with res := commandResult (isCrc i) (ruleOf i) s.params s.op s.res } := by
  rw [exec_eq] at h
  exact (Host.Outcome.next.inj h).symm

section
variable {i : Instr} {s t : State}

theorem exec_params (h : exec i s = .next t) : t.params = s.params := by rw [exec_next h]
theorem exec_cmd (h : exec i s = .next t) : t.cmd = s.cmd := by rw [exec_next h]
theorem exec_op (h : exec i s = .next t) : t.op = s.op := by rw [exec_next h]
theorem exec_pending (h : exec i s = .next t) : t.pending = s.pending := by rw [exec_next h]
theorem exec_reply (h : exec i s = .next t) : t.reply = s.reply := by rw [exec_next h]
theorem exec_res (h : exec i s = .next t) :
    t.res = commandResult (isCrc i) (ruleOf i) s.params s.op s.res := by rw [exec_next h]

end

/-- Clearing and then raising leaves the error's result state, whatever stood before (60_exceptions.md R252). -/
theorem raise_clearResults (e : ErrorCode) (r : ResultState) : raise e (clearResults r) = raised e := rfl

/-- What the result state can be after a legal command: a BUFFER_RANGE error, an error the rule raises on the
cleared state, or what the rule leaves, with `DONE`. -/
theorem commandResult_cases (d : Bool) (rule : Rule) (p : Params) (op : OperandState) (r : ResultState) :
    (outOfRange d p op = true ∧ commandResult d rule p op r = raised .bufferRange) ∨
    (outOfRange d p op = false ∧ ∃ e, rule op (clearResults r) = .error e ∧
      commandResult d rule p op r = raised e) ∨
    (outOfRange d p op = false ∧ ∃ r1, rule op (clearResults r) = .ok r1 ∧
      commandResult d rule p op r = setDone r1) := by
  cases hr : outOfRange d p op with
  | true => exact .inl ⟨rfl, by simp [commandResult, hr, raise_clearResults]⟩
  | false =>
    refine .inr ?_
    cases hrule : rule op (clearResults r) with
    | error e => exact .inl ⟨rfl, e, rfl, by simp [commandResult, hr, hrule, raise_clearResults]⟩
    | ok r1 => exact .inr ⟨rfl, r1, rfl, by simp [commandResult, hr, hrule]⟩

/-- The operand is in range (60_exceptions.md R254). -/
theorem outOfRange_eq_false {d : Bool} {p : Params} {op : OperandState} :
    outOfRange d p op = false ↔ op.ilen.toNat ≤ p.imax ∧ (d = true → op.dlen.toNat ≤ p.dmax) := by
  cases d <;> simp [outOfRange]

/-- A command in range whose rule succeeds. -/
theorem commandResult_of_ok {d : Bool} {rule : Rule} {p : Params} {op : OperandState} {r r1 : ResultState}
    (hr : outOfRange d p op = false) (h : rule op (clearResults r) = .ok r1) :
    commandResult d rule p op r = setDone r1 := by
  simp [commandResult, hr, h]

/-- A command in range whose rule raises. -/
theorem commandResult_of_error {d : Bool} {rule : Rule} {p : Params} {op : OperandState} {r : ResultState}
    {e : ErrorCode} (hr : outOfRange d p op = false) (h : rule op (clearResults r) = .error e) :
    commandResult d rule p op r = raised e := by
  simp [commandResult, hr, h, raise_clearResults]

end Sys2Proof.Machine
end

