-- ==== Sys2Proof/Laws/Operands.lean ====
section
/-! SUPPORT. The symbol front-end: lengths, what each operand check accepts, and what it answers then. -/

namespace Sys2Proof.Machine

@[simp] theorem operand_length (op : OperandState) : (operand op).length = op.ilen.toNat := by simp [operand]

@[simp] theorem divisor_length (op : OperandState) : (divisor op).length = op.dlen.toNat := by simp [divisor]

@[simp] theorem output_length (r : ResultState) : (output r).length = r.olen.toNat := by simp [output]

/-- The operand string depends on `IBUF` below `ILEN` only (10_state.md R35). -/
theorem operand_congr {a b : OperandState} (hl : a.ilen = b.ilen)
    (h : ∀ k < a.ilen.toNat, a.ibuf.read k = b.ibuf.read k) : operand a = operand b := by
  rw [operand, operand, ← hl]
  exact Memory.take_congr h

/-- The divisor string depends on `DBUF` below `DLEN` only (10_state.md R36). -/
theorem divisor_congr {a b : OperandState} (hl : a.dlen = b.dlen)
    (h : ∀ k < a.dlen.toNat, a.dbuf.read k = b.dbuf.read k) : divisor a = divisor b := by
  rw [divisor, divisor, ← hl]
  exact Memory.take_congr h

/-- What `emit` wrote into a cleared buffer is the output string. -/
theorem output_emit (S : List Symbol) (r : ResultState) (h0 : r.obuf = []) (hS : S.length < 2 ^ 32) :
    output (emit S r) = S := by
  rw [output, emit_obuf, emit_olen, h0, BitVec.toNat_ofNat, Nat.mod_eq_of_lt hS]
  exact Memory.take_writeSeq S

/-! ## Symbols and bits -/

@[simp] theorem bitOf_sym (b : Bool) : bitOf (sym b) = b := by cases b <;> rfl

@[simp] theorem isBin_sym (b : Bool) : isBin (sym b) = true := by cases b <;> rfl

theorem isBin_iff {s : Symbol} : isBin s = true ↔ s = 0x30#8 ∨ s = 0x31#8 := by
  simp [isBin, sym0, sym1]

theorem sym_bitOf {s : Symbol} (h : isBin s = true) : sym (bitOf s) = s := by
  rcases Bool.or_eq_true _ _ |>.mp h with h | h <;> simp only [beq_iff_eq] at h <;> subst h <;> rfl

@[simp] theorem bits_length (S : List Symbol) : (bits S).length = S.length := by simp [bits]

@[simp] theorem syms_length (B : List Bool) : (syms B).length = B.length := by simp [syms]

@[simp] theorem bits_syms (B : List Bool) : bits (syms B) = B := by simp [bits, syms, Function.comp_def]

@[simp] theorem bits_append (S T : List Symbol) : bits (S ++ T) = bits S ++ bits T := by simp [bits]

@[simp] theorem syms_append (A B : List Bool) : syms (A ++ B) = syms A ++ syms B := by simp [syms]

theorem syms_bits {S : List Symbol} (h : ∀ s ∈ S, isBin s = true) : syms (bits S) = S := by
  rw [syms, bits, List.map_map]
  conv_rhs => rw [← List.map_id S]
  exact List.map_congr_left (fun s hs => sym_bitOf (h s hs))

theorem syms_all_bin (B : List Bool) : ∀ s ∈ syms B, isBin s = true := by
  intro s hs
  obtain ⟨b, -, rfl⟩ := List.mem_map.1 hs
  exact isBin_sym b

/-! ## Counting -/

theorem ones_append (A B : List Bool) : ones (A ++ B) = ones A + ones B := by simp [ones]

theorem ones_le_length (B : List Bool) : ones B ≤ B.length := List.count_le_length

theorem par_append (A B : List Bool) : par (A ++ B) = xor (par A) (par B) := by
  simp only [par, ones_append]
  rcases Nat.mod_two_eq_zero_or_one (ones A) with ha | ha <;>
    rcases Nat.mod_two_eq_zero_or_one (ones B) with hb | hb <;> simp [Nat.add_mod, ha, hb]

@[simp] theorem par_nil : par [] = false := rfl

@[simp] theorem par_singleton (b : Bool) : par [b] = b := by cases b <;> rfl

theorem par_cons (b : Bool) (B : List Bool) : par (b :: B) = xor b (par B) := by
  rw [show b :: B = [b] ++ B from rfl, par_append, par_singleton]

/-! ## What the operand checks answer -/

theorem checkBits_ok {S : List Symbol} {B : List Bool} :
    checkBits S = .ok B ↔ S.length ≠ 0 ∧ (∀ s ∈ S, isBin s = true) ∧ B = bits S := by
  unfold checkBits
  split_ifs with h1 h2
  · simp [h1]
  · simp only [Except.ok.injEq, ne_eq, h1, not_false_eq_true, true_and]
    exact ⟨fun h => ⟨List.all_eq_true.1 h2, h.symm⟩, fun h => h.2.symm⟩
  · have : ¬ ∀ s ∈ S, isBin s = true := fun h => h2 (List.all_eq_true.2 h)
    simp [this]

theorem checkBits_error {S : List Symbol} {e : ErrorCode} :
    checkBits S = .error e ↔
      (S.length = 0 ∧ e = .invalidEmpty) ∨
      (S.length ≠ 0 ∧ (¬ ∀ s ∈ S, isBin s = true) ∧ e = .invalidSymbol) := by
  rw [← List.all_eq_true (p := isBin)]
  unfold checkBits
  split_ifs with h1 h2
  · simp only [Except.error.injEq, h1, true_and, ne_eq, not_true_eq_false, false_and, or_false]
    exact eq_comm
  · constructor
    · intro h; cases h
    · rintro (⟨h, -⟩ | ⟨-, h, -⟩)
      · exact absurd h h1
      · exact absurd h2 h
  · simp only [Except.error.injEq]
    constructor
    · exact fun h => .inr ⟨h1, h2, h.symm⟩
    · rintro (⟨h, -⟩ | ⟨-, -, h⟩)
      · exact absurd h h1
      · exact h.symm

theorem checkHamming_ok {S : List Symbol} {B : List Bool} :
    checkHamming S = .ok B ↔ 4 ≤ S.length ∧ (∀ s ∈ S, isBin s = true) ∧ B = bits S := by
  unfold checkHamming
  cases h : checkBits S with
  | error e =>
    have := (checkBits_error (S := S) (e := e)).1 h
    constructor
    · intro h; cases h
    · rintro ⟨h4, hb, -⟩
      rcases this with ⟨h0, -⟩ | ⟨-, hn, -⟩
      · omega
      · exact absurd hb hn
  | ok B' =>
    obtain ⟨h0, hb, rfl⟩ := checkBits_ok.1 h
    simp only [bits_length]
    split_ifs with h4
    · constructor
      · intro h; cases h
      · rintro ⟨h, -⟩; omega
    · simp only [Except.ok.injEq]
      exact ⟨fun h => ⟨by omega, hb, h.symm⟩, fun h => h.2.2.symm⟩

theorem checkCrc_ok {S G : List Symbol} {p : List Bool × List Bool} :
    checkCrc S G = .ok p ↔
      2 ≤ G.length ∧ G.length < S.length ∧ (∀ s ∈ S, isBin s = true) ∧ (∀ s ∈ G, isBin s = true) ∧
        p = (bits S, bits G) := by
  unfold checkCrc
  split_ifs with h1 h2 h3 h4
  · constructor
    · intro h; cases h
    · rintro ⟨_, _, _⟩; omega
  · have : ¬ ((∀ s ∈ S, isBin s = true) ∧ ∀ s ∈ G, isBin s = true) := by
      rw [← List.all_eq_true, ← List.all_eq_true, ← Bool.and_eq_true]
      intro h
      simp [h] at h2
    constructor
    · intro h; cases h
    · rintro ⟨-, -, hS, hG, -⟩; exact absurd ⟨hS, hG⟩ this
  · constructor
    · intro h; cases h
    · rintro ⟨_, _⟩; omega
  · constructor
    · intro h; cases h
    · rintro ⟨_, _, _⟩; omega
  · have hb : (∀ s ∈ S, isBin s = true) ∧ ∀ s ∈ G, isBin s = true := by
      rw [← List.all_eq_true, ← List.all_eq_true, ← Bool.and_eq_true]
      exact by_contra fun h => h2 (by simp [h])
    simp only [Except.ok.injEq]
    exact ⟨fun h => ⟨by omega, by omega, hb.1, hb.2, h.symm⟩, fun h => h.2.2.2.2.symm⟩

theorem bytevals_length {ts : List (List Symbol)} {bs : List Nat} (h : bytevals ts = some bs) :
    bs.length = ts.length := by
  induction ts generalizing bs with
  | nil => cases h; rfl
  | cons t ts ih =>
    simp only [bytevals] at h
    split at h
    · cases h
      simp [ih ‹_›]
    · cases h

theorem checkBytes_ok {n : Nat} {S : List Symbol} {bs : List Nat} :
    checkBytes n S = .ok bs ↔ tokens S ≠ [] ∧ bytevals (tokens S) = some bs ∧ n ≤ bs.length := by
  unfold checkBytes
  split_ifs with h1
  · have : tokens S = [] := List.length_eq_zero_iff.1 h1
    simp [this]
  · have h0 : tokens S ≠ [] := fun h => h1 (by simp [h])
    cases hb : bytevals (tokens S) with
    | none => simp
    | some bs' =>
      simp only [Option.some.injEq]
      split_ifs with hn
      · constructor
        · intro h; cases h
        · rintro ⟨-, rfl, h⟩; omega
      · simp only [Except.ok.injEq]
        exact ⟨fun h => ⟨h0, h, by subst h; omega⟩, fun h => h.2.1⟩

/-! ## Splitting text -/

theorem splitText_ne_nil (p : Symbol → Bool) (S : List Symbol) : splitText p S ≠ [] := by
  cases S with
  | nil => simp [splitText]
  | cons s S =>
    rw [splitText]
    split <;> simp

/-- A separator starts an empty piece. -/
theorem splitText_sep {p : Symbol → Bool} {s : Symbol} (h : p s = true) (S : List Symbol) :
    splitText p (s :: S) = [] :: splitText p S := by
  rw [splitText]
  cases hS : splitText p S <;> simp [h]

/-- Any other symbol goes to the front of the first piece. -/
theorem splitText_other {p : Symbol → Bool} {s : Symbol} (h : p s = false) {S : List Symbol}
    {piece : List Symbol} {rest : List (List Symbol)} (hS : splitText p S = piece :: rest) :
    splitText p (s :: S) = (s :: piece) :: rest := by
  rw [splitText, hS]
  simp [h]

/-- One more piece than there are separators (45_twod_parity.md R220). -/
theorem splitText_length (p : Symbol → Bool) (S : List Symbol) :
    (splitText p S).length = S.countP p + 1 := by
  induction S with
  | nil => simp [splitText]
  | cons s S ih =>
    cases hp : p s with
    | true => rw [splitText_sep hp, List.length_cons, ih, List.countP_cons_of_pos hp]
    | false =>
      obtain ⟨piece, rest, hS⟩ := List.exists_cons_of_ne_nil (splitText_ne_nil p S)
      rw [splitText_other hp hS, List.countP_cons_of_neg (by simp [hp]), ← ih, hS]
      rfl

/-- No piece holds a separator. -/
theorem splitText_no_sep (p : Symbol → Bool) (S : List Symbol) :
    ∀ piece ∈ splitText p S, ∀ s ∈ piece, p s = false := by
  induction S with
  | nil => simp [splitText]
  | cons s S ih =>
    cases hp : p s with
    | true =>
      rw [splitText_sep hp]
      intro piece hm
      rcases List.mem_cons.1 hm with rfl | hm
      · simp
      · exact ih piece hm
    | false =>
      obtain ⟨piece, rest, hS⟩ := List.exists_cons_of_ne_nil (splitText_ne_nil p S)
      rw [splitText_other hp hS]
      rw [hS] at ih
      intro q hq
      rcases List.mem_cons.1 hq with rfl | hq
      · intro x hx
        rcases List.mem_cons.1 hx with rfl | hx
        · exact hp
        · exact ih piece (by simp) x hx
      · exact ih q (List.mem_cons_of_mem _ hq)

/-- The symbols of the pieces and the separators make up the text. -/
theorem splitText_total (p : Symbol → Bool) (S : List Symbol) :
    ((splitText p S).map List.length).sum + S.countP p = S.length := by
  induction S with
  | nil => simp [splitText]
  | cons s S ih =>
    cases hp : p s with
    | true =>
      rw [splitText_sep hp, List.map_cons, List.sum_cons, List.countP_cons_of_pos hp, List.length_cons]
      simp only [List.length_nil]
      omega
    | false =>
      obtain ⟨piece, rest, hS⟩ := List.exists_cons_of_ne_nil (splitText_ne_nil p S)
      rw [splitText_other hp hS, List.countP_cons_of_neg (by simp [hp])]
      rw [hS] at ih
      simp only [List.map_cons, List.sum_cons, List.length_cons] at ih ⊢
      omega

/-! ## Matrices -/

theorem checkMatrix_ok {S : List Symbol} {M : List (List Bool)} :
    checkMatrix S = .ok M ↔
      S.length ≠ 0 ∧ (∀ r ∈ rows S, r ≠ []) ∧ (∀ s ∈ S, s = symLF ∨ isBin s = true) ∧
        (∀ r ∈ rows S, r.length = ncolsOf (rows S)) ∧ M = (rows S).map bits := by
  have hE : (rows S).any (·.isEmpty) = true ↔ ¬ ∀ r ∈ rows S, r ≠ [] := by simp
  have hB : (S.all (fun s => s == symLF || isBin s)) = true ↔ ∀ s ∈ S, s = symLF ∨ isBin s = true := by
    simp [List.all_eq_true]
  have hL : ((rows S).all (fun r => r.length == ncolsOf (rows S))) = true ↔
      ∀ r ∈ rows S, r.length = ncolsOf (rows S) := by simp [List.all_eq_true]
  unfold checkMatrix
  split_ifs with h1 h2 h3
  · constructor
    · intro h; cases h
    · rintro ⟨h0, he, -⟩
      rcases h1 with h1 | h1
      · exact absurd h1 h0
      · exact absurd he (hE.1 h1)
  · have : ¬ ∀ s ∈ S, s = symLF ∨ isBin s = true := by
      rw [← hB]; intro h; simp [h] at h2
    constructor
    · intro h; cases h
    · rintro ⟨-, -, hb, -⟩; exact absurd hb this
  · have : ¬ ∀ r ∈ rows S, r.length = ncolsOf (rows S) := by
      rw [← hL]; intro h; simp [h] at h3
    constructor
    · intro h; cases h
    · rintro ⟨-, -, -, hl, -⟩; exact absurd hl this
  · have hb : ∀ s ∈ S, s = symLF ∨ isBin s = true := by
      rw [← hB]
      exact by_contra fun h => h2 (by simp [Bool.not_eq_true _ ▸ h])
    have hl : ∀ r ∈ rows S, r.length = ncolsOf (rows S) := by
      rw [← hL]
      exact by_contra fun h => h3 (by simp [Bool.not_eq_true _ ▸ h])
    have h0 : S.length ≠ 0 := fun h => h1 (.inl h)
    have he : ∀ r ∈ rows S, r ≠ [] := by
      by_contra hc
      exact h1 (.inr (hE.2 hc))
    simp only [Except.ok.injEq]
    exact ⟨fun h => ⟨h0, he, hb, hl, h.symm⟩, fun h => h.2.2.2.2.symm⟩

theorem grid_length (A : List (List Bool)) :
    (grid A).length = (A.map List.length).sum + (A.length - 1) := by
  induction A with
  | nil => rfl
  | cons r rs ih =>
    cases rs with
    | nil => simp [grid]
    | cons r' rs =>
      rw [grid, List.length_append, List.length_cons, ih, syms_length]
      · simp only [List.map_cons, List.sum_cons, List.length_cons]
        omega
      · simp

/-- A matrix whose rows hold no line feed is read back from its grid form, row by row (R222). -/
theorem rows_grid {A : List (List Bool)} (h : A ≠ []) : rows (grid A) = A.map syms := by
  have hsep : (symLF == symLF) = true := rfl
  have hbin : ∀ b : Bool, (sym b == symLF) = false := by decide
  have hrow : ∀ (r : List Bool) (T : List Symbol) (piece : List Symbol) (rest : List (List Symbol)),
      splitText (· == symLF) T = piece :: rest →
      splitText (· == symLF) (syms r ++ T) = (syms r ++ piece) :: rest := by
    intro r T piece rest hT
    induction r with
    | nil => exact hT
    | cons b r ih => exact splitText_other (p := (· == symLF)) (hbin b) ih
  unfold rows
  induction A with
  | nil => exact absurd rfl h
  | cons r rs ih =>
    cases rs with
    | nil =>
      have := hrow r [] [] [] rfl
      simpa [grid] using this
    | cons r' rs =>
      rw [grid]
      · rw [hrow r _ [] (splitText (· == symLF) (grid (r' :: rs))) (splitText_sep (p := (· == symLF)) hsep _), ih (by simp)]
        simp
      · simp

end Sys2Proof.Machine
end

