-- ==== Sys2Proof/Laws/PerInstr.lean ====
section
/-! SUPPORT. The family `Encoding`: for every instruction, the fields of its word are the fields the opcode map
gives it, they pass every check of WellFormed, and the word decodes to it (spec/30_encoding.md R80 to R85). -/

namespace Sys2Proof.Laws.Encoding

/-- What the family says of one instruction. -/
def Statement (i : Instr) : Prop :=
  fieldsOf (encode i) = i.fields ∧ i.wf = true ∧ decode (encode i) = .ok i

theorem parGen (mode : ParityMode) : Statement (.parGen mode) := by cases mode <;> exact ⟨by decide, by decide, by decide⟩
theorem parChk (mode : ParityMode) : Statement (.parChk mode) := by cases mode <;> exact ⟨by decide, by decide, by decide⟩
theorem hamEnc : Statement .hamEnc := ⟨by decide, by decide, by decide⟩
theorem hamDec : Statement .hamDec := ⟨by decide, by decide, by decide⟩
theorem crcGen : Statement .crcGen := ⟨by decide, by decide, by decide⟩
theorem crcChk : Statement .crcChk := ⟨by decide, by decide, by decide⟩
theorem csumGen (variant : ChecksumVariant) : Statement (.csumGen variant) := by
  cases variant <;> exact ⟨by decide, by decide, by decide⟩
theorem csumVer (variant : ChecksumVariant) : Statement (.csumVer variant) := by
  cases variant <;> exact ⟨by decide, by decide, by decide⟩
theorem p2dGen : Statement .p2dGen := ⟨by decide, by decide, by decide⟩
theorem p2dVer : Statement .p2dVer := ⟨by decide, by decide, by decide⟩

end Sys2Proof.Laws.Encoding
end

