-- ==== Sys2Proof/Laws/Step.lean ====
section
/-! SUPPORT. What one step can do, said once, what performing a list of accesses is, and that the buffers
of the reset state are canonical (spec/20_memory.md R60 to R68; log 1). -/

namespace Sys2Proof.Machine

/-- With no access waiting a step changes nothing. -/
theorem step_idle {s : State} (h : s.pending = []) : step s = .next s := by simp [step, nextAction, h]

/-- A step performs the oldest waiting access. -/
theorem step_action {s : State} {a : HostAction} {rest : List HostAction} (h : s.pending = a :: rest) :
    step s = performAction a { s with pending := rest } := by simp [step, nextAction, h]

/-- A write to `CMD` ends in a next state, which differs in `CMD` and the result state only. -/
theorem writeCmd_next (c : Word) (s : State) :
    ∃ t, writeCmd c s = .next t ∧ t = { s with cmd := c, res := t.res } := by
  unfold writeCmd
  split
  · exact ⟨_, exec_eq _ _, rfl⟩
  · exact ⟨_, rfl, rfl⟩

/-- A write to a location ends in a next state, and leaves the parameters and the port alone. -/
theorem writeLoc_next (l : Loc) (v : Word) (s : State) :
    ∃ t, writeLoc l v s = .next t ∧ t.params = s.params ∧ t.pending = s.pending ∧ t.reply = s.reply := by
  unfold writeLoc
  split
  · obtain ⟨t, h, ht⟩ := writeCmd_next v s
    exact ⟨t, h, by rw [ht], by rw [ht], by rw [ht]⟩
  all_goals exact ⟨_, rfl, rfl, rfl, rfl⟩

/-- Everything a step can do: hold the state, apply reset, answer a read, perform a write, or refuse an access. -/
theorem step_cases (s : State) :
    (s.pending = [] ∧ step s = .next s) ∨
    (∃ rest, s.pending = .reset :: rest ∧ step s = .next (applyReset { s with pending := rest })) ∨
    (∃ width addr l rest, s.pending = .read width addr :: rest ∧ locate s.params width addr = .ok l ∧
      step s = .next { s with pending := rest, reply := .data (readLoc { s with pending := rest } l) }) ∨
    (∃ width addr v l rest, s.pending = .write width addr v :: rest ∧ locate s.params width addr = .ok l ∧
      step s = writeLoc l v { s with pending := rest, reply := .ack }) ∨
    (∃ a rest e, s.pending = a :: rest ∧ step s = .refused (.accessError e)) := by
  cases hp : s.pending with
  | nil => exact .inl ⟨rfl, step_idle hp⟩
  | cons a rest =>
    have hs := step_action hp
    cases a with
    | reset => exact .inr (.inl ⟨rest, rfl, hs⟩)
    | read width addr =>
      cases hl : locate s.params width addr with
      | error e =>
        exact .inr (.inr (.inr (.inr ⟨_, rest, e, rfl, by rw [hs]; simp [performAction, hl]⟩)))
      | ok l =>
        exact .inr (.inr (.inl ⟨width, addr, l, rest, rfl, hl, by rw [hs]; simp [performAction, hl]⟩))
    | write width addr v =>
      cases hl : locate s.params width addr with
      | error e =>
        exact .inr (.inr (.inr (.inr ⟨_, rest, e, rfl, by rw [hs]; simp [performAction, hl]⟩)))
      | ok l =>
        exact .inr (.inr (.inr (.inl ⟨width, addr, v, l, rest, rfl, hl, by rw [hs]; simp [performAction, hl]⟩)))

/-! ## Programs (30_encoding.md R92) -/

/-- The outcome with the next state changed by `f`. -/
def mapNext (f : State → State) : Host.Outcome State Fault Refusal → Host.Outcome State Fault Refusal
  | .next t => .next (f t)
  | .fault e => .fault e
  | .refused r => .refused r

/-- What an access does, does not depend on the accesses that wait after it. -/
theorem performAction_pending (a : HostAction) (s : State) (q : List HostAction) :
    performAction a { s with pending := q } = mapNext (fun t => { t with pending := q }) (performAction a s) := by
  cases a with
  | reset => rfl
  | read width addr =>
    simp only [performAction]
    cases locate s.params width addr with
    | error e => rfl
    | ok l => cases l with
      | reg r => cases r <;> rfl
      | _ => rfl
  | write width addr v =>
    simp only [performAction]
    cases locate s.params width addr with
    | error e => rfl
    | ok l => cases l with
      | reg r =>
        cases r with
        | cmd =>
          simp only [writeLoc, writeCmd]
          cases decode v with
          | error e => rfl
          | ok i => simp only [exec_eq]; rfl
        | _ => rfl
      | _ => rfl

theorem run_succ_of_next {M : Host.Core} {k : Nat} {s t : M.State} (h : M.step s = .next t) :
    M.run (k + 1) s = M.run k t := by simp [Host.Core.run, h]

theorem run_succ_of_refused {M : Host.Core} {k : Nat} {s : M.State} {r : M.Refusal} (h : M.step s = .refused r) :
    M.run (k + 1) s = .refused r := by simp [Host.Core.run, h]

/-- Performing accesses one after another is running the machine on the list of them. -/
theorem run_eq_performAll (as : List HostAction) (s : State) :
    Host.Core.run Sys2Proof.core as.length { s with pending := as } =
      mapNext (fun t => { t with pending := [] }) (performAll as s) := by
  induction as generalizing s with
  | nil => rfl
  | cons a as ih =>
    have hstep : step { s with pending := a :: as } =
        mapNext (fun t => { t with pending := as }) (performAction a s) := by
      rw [step_action rfl]
      exact performAction_pending a s as
    rw [performAll]
    cases hp : performAction a s with
    | next t =>
      rw [hp] at hstep
      exact (run_succ_of_next hstep).trans (ih t)
    | fault f => cases f
    | refused r =>
      rw [hp] at hstep
      exact run_succ_of_refused hstep

/-- An operation is issued with no access waiting, and places exactly its expansion. -/
theorem issue_eq_some {o : HostOp} {s t : State} (h : issue o s = some t) :
    s.pending = [] ∧ ∃ as, o.expand s = some as ∧ t = { s with pending := as } := by
  unfold issue at h
  split at h
  · cases he : o.expand s with
    | none => simp [he] at h
    | some as =>
      rw [he] at h
      exact ⟨‹_›, as, rfl, (Option.some.inj h).symm⟩
  · exact absurd h (by simp)

theorem runProgram_nil (s : State) : runProgram [] s = some ([], .next s) := rfl

theorem runProgram_undefined {o : HostOp} {s : State} (os : List HostOp) (h : o.expand s = none) :
    runProgram (o :: os) s = none := by simp [runProgram, h]

theorem runProgram_next {o : HostOp} {s t : State} {as : List HostAction} (os : List HostOp)
    (h : o.expand s = some as) (ht : performAll as s = .next t) :
    runProgram (o :: os) s = (runProgram os t).map (fun r => (as ++ r.1, r.2)) := by
  simp [runProgram, h, ht]

/-- The buffers of the reset state are in canonical form (log 7). -/
theorem reset_canonical (p : Params) : (State.resetWith p).canonical :=
  ⟨⟨Memory.wf_nil, Memory.wf_nil⟩, Memory.wf_nil, Memory.wf_nil, Memory.wf_nil, Memory.wf_nil⟩

end Sys2Proof.Machine
end

