-- ==== Sys2Proof/Laws/Trace.lean ====
section
/-! SUPPORT. What `emit` and a whole trace leave in their buffers (spec/00_scope.md R10; spec/60_exceptions.md
R261). -/

namespace Sys2Proof.Machine

theorem Memory.writeSeq_append {w : Nat} (m : Memory w) (i : Nat) (us vs : List (BitVec w)) :
    m.writeSeq i (us ++ vs) = (m.writeSeq i us).writeSeq (i + us.length) vs := by
  induction us generalizing m i with
  | nil => rfl
  | cons u us ih =>
    rw [List.cons_append, Memory.writeSeq, ih, Memory.writeSeq, List.length_cons,
      show i + 1 + us.length = i + (us.length + 1) by omega]

@[simp] theorem words_length (t : TraceRecord) : t.words.length = 4 := rfl

theorem flatMap_words_length (ts : List TraceRecord) :
    (ts.flatMap TraceRecord.words).length = 4 * ts.length := by
  induction ts with
  | nil => rfl
  | cons t ts ih => rw [List.flatMap_cons, List.length_append, ih, words_length, List.length_cons]; omega

/-- A whole trace is one write of all its words, from the record `TLEN` on. -/
theorem traceAll_tbuf (r : ResultState) (ts : List TraceRecord) (h : r.tlen.toNat + ts.length < 2 ^ 32) :
    (traceAll r ts).tbuf = r.tbuf.writeSeq (4 * r.tlen.toNat) (ts.flatMap TraceRecord.words) := by
  induction ts generalizing r with
  | nil => rfl
  | cons t ts ih =>
    rw [List.length_cons] at h
    have hl : (trace r t).tlen.toNat = r.tlen.toNat + 1 := by
      rw [show (trace r t).tlen = r.tlen + 1 from rfl, BitVec.toNat_add]
      exact Nat.mod_eq_of_lt (by simp; omega)
    rw [traceAll_cons, ih (trace r t) (by omega), List.flatMap_cons, Memory.writeSeq_append, hl, words_length,
      show 4 * (r.tlen.toNat + 1) = 4 * r.tlen.toNat + 4 by omega]
    rfl

/-- On a cleared result state the trace is exactly the records. -/
theorem holdsTrace_traceAll {r : ResultState} (hb : r.tbuf = []) (hl : r.tlen = 0) (ts : List TraceRecord)
    (h : ts.length < 2 ^ 32) : (traceAll r ts).holdsTrace ts := by
  have h0 : r.tlen.toNat = 0 := by rw [hl]; rfl
  refine ⟨?_, fun k => ?_⟩
  · rw [traceAll_tlen, hl, BitVec.toNat_add, BitVec.toNat_ofNat, Nat.mod_eq_of_lt h]
    exact (Nat.mod_eq_of_lt (by simpa using h)).trans (by simp)
  · rw [traceAll_tbuf r ts (by omega), hb, h0, Memory.read_writeSeq Memory.wf_nil]
    split
    · simp
    · rw [Memory.read_nil, List.getD_eq_default _ _ (by omega)]

/-- On a cleared result state the output is exactly what was emitted. -/
theorem holdsOutput_emit {r : ResultState} (hb : r.obuf = []) (S : List Symbol) (h : S.length < 2 ^ 32) :
    (emit S r).holdsOutput S := by
  refine ⟨by rw [emit_olen, BitVec.toNat_ofNat, Nat.mod_eq_of_lt h], fun k => ?_⟩
  rw [emit_obuf, hb, Memory.read_writeSeq Memory.wf_nil]
  split
  · simp
  · rw [Memory.read_nil, List.getD_eq_default _ _ (by omega)]

/-- The string `OBUF[0..OLEN-1]` of a result state that holds exactly `S`. -/
theorem output_of_holdsOutput {r : ResultState} {S : List Symbol} (h : r.holdsOutput S) : output r = S := by
  refine List.ext_getElem? fun i => ?_
  by_cases hi : i < r.olen.toNat
  · rw [output, Memory.take_getElem? _ _ _ hi, h.2]
    rw [List.getD_eq_getElem?_getD, List.getElem?_eq_getElem (by rw [← h.1]; exact hi)]
    rfl
  · rw [List.getElem?_eq_none (by rw [output_length]; omega), List.getElem?_eq_none (by rw [← h.1]; omega)]

end Sys2Proof.Machine
end

