-- ==== Sys2Proof/Tests/Slice0.lean ====
section
/-! SUPPORT. Tests: ill-formed command words, decoding of words written out from the spec, one command on a small
state against the vectors of spec/95_test_vectors.md (named V1 to V303 there), and for every statement with
hypotheses a concrete state that meets them. -/

namespace Sys2Proof.Tests

open Sys2Proof Sys2Proof.Machine

/-! ## Helpers -/

/-- A text as symbols (00_scope.md R11). -/
def txt (s : String) : List Symbol := s.toList.map fun c => BitVec.ofNat 8 c.toNat

/-- The reset state with the operand `S` and the divisor `G` loaded. -/
def loaded (S G : String) : State :=
  { State.reset with
    op := { ilen := BitVec.ofNat 16 (txt S).length, dlen := BitVec.ofNat 16 (txt G).length
            ibuf := Memory.writeSeq [] 0 (txt S), dbuf := Memory.writeSeq [] 0 (txt G) } }

/-- The state after a command. -/
def after (i : Instr) (s : State) : State :=
  match exec i s with
  | .next t => t
  | .fault _ | .refused _ => s

/-- The result state after a command on the operand `S` and the divisor `G`. -/
def result (i : Instr) (S : String) (G : String := "") : ResultState := (after i (loaded S G)).res

/-- The error a command ends with. -/
def errOf (i : Instr) (S : String) (G : String := "") : ErrorCode := (result i S G).status.err

/-- The state with one host action waiting. -/
def waiting (s : State) (a : HostAction) : State := { s with pending := [a] }

/-- The state after a step. -/
def stepped (s : State) : State :=
  match step s with
  | .next t => t
  | .fault _ | .refused _ => s

/-- A block of the smallest sizes at a base address that is not 0 (00_scope.md R6). -/
def smallest : Params := { imax := 8, dmax := 2, base := 0x200000 }

/-- A step ends in a next state. -/
def completes (s : State) : Bool :=
  match step s with
  | .next _ => true
  | .fault _ | .refused _ => false

theorem step_stepped {s : State} (h : completes s = true) : step s = .next (stepped s) := by
  rw [stepped]
  rw [completes] at h
  split at h
  · simp_all
  · contradiction
  · contradiction

theorem exec_after (i : Instr) (s : State) : exec i s = .next (after i s) := by
  rw [after, exec_eq]

/-! ## Ill-formed command words (30_encoding.md R85) -/

theorem test_wf_rejects_reserved_bits : ({ opc := 0x2, mode := 0, rsv := 1 } : CmdFields).wf = false := by decide
theorem test_wf_rejects_unassigned_opcode : ({ opc := 0xC, mode := 0, rsv := 0 } : CmdFields).wf = false := by decide
theorem test_wf_rejects_stray_mode : ({ opc := 0x4, mode := 1, rsv := 0 } : CmdFields).wf = false := by decide
theorem test_wf_accepts_mode_where_taken : ({ opc := 0x9, mode := 1, rsv := 0 } : CmdFields).wf = true := by decide

/-! ## Decoding: RSV, MODE, OPC written out bit by bit (30_encoding.md R80, R82) -/

theorem test_decode_parGen_even : decode 0b000000000000000000000000000_0_0010 = .ok (.parGen .even) := by decide
theorem test_decode_parGen_odd : decode 0b000000000000000000000000000_1_0010 = .ok (.parGen .odd) := by decide
theorem test_decode_parChk_even : decode 0b000000000000000000000000000_0_0011 = .ok (.parChk .even) := by decide
theorem test_decode_parChk_odd : decode 0b000000000000000000000000000_1_0011 = .ok (.parChk .odd) := by decide
theorem test_decode_hamEnc : decode 0b000000000000000000000000000_0_0100 = .ok .hamEnc := by decide
theorem test_decode_hamDec : decode 0b000000000000000000000000000_0_0101 = .ok .hamDec := by decide
theorem test_decode_crcGen : decode 0b000000000000000000000000000_0_0110 = .ok .crcGen := by decide
theorem test_decode_crcChk : decode 0b000000000000000000000000000_0_0111 = .ok .crcChk := by decide
theorem test_decode_csumGen_mod256 : decode 0b000000000000000000000000000_0_1000 = .ok (.csumGen .mod256) := by decide
theorem test_decode_csumGen_ones : decode 0b000000000000000000000000000_1_1000 = .ok (.csumGen .ones) := by decide
theorem test_decode_csumVer_mod256 : decode 0b000000000000000000000000000_0_1001 = .ok (.csumVer .mod256) := by decide
theorem test_decode_csumVer_ones : decode 0b000000000000000000000000000_1_1001 = .ok (.csumVer .ones) := by decide
theorem test_decode_p2dGen : decode 0b000000000000000000000000000_0_1010 = .ok .p2dGen := by decide
theorem test_decode_p2dVer : decode 0b000000000000000000000000000_0_1011 = .ok .p2dVer := by decide

theorem test_decode_zero_is_illegal : decode 0x00000000 = .error .unassignedOpcode := by decide
theorem test_decode_opcode_12_is_illegal : decode 0x0000000C = .error .unassignedOpcode := by decide
theorem test_decode_hamEnc_with_mode_is_illegal : decode 0x00000014 = .error .strayMode := by decide
theorem test_decode_top_bit_is_illegal : decode 0x80000002 = .error .reservedBits := by decide
theorem test_decode_bit_5_is_illegal : decode 0x00000022 = .error .reservedBits := by decide

theorem test_decodeTableWord : decodeTableWord 32 0x12 = some (.parGen .odd) ∧ decodeTableWord 32 0x14 = none := by
  decide

/-- The word placed as the next write to `CMD` runs as the first command after reset; nothing is loaded, so it
ends INVALID_EMPTY (70_reset_and_hazards.md R282). -/
theorem test_withFetchWord_runs_the_word :
    step (State.reset.withFetchWord 32 0x0A) =
      exec .p2dGen { State.reset with cmd := 0x0A, reply := .ack } ∧
    (stepped (State.reset.withFetchWord 32 0x0A)).res = raised .invalidEmpty :=
  ⟨rfl, by decide⟩

/-! ## One command each, against spec/95_test_vectors.md -/

/-- V10. -/
theorem test_parGen_odd : output (result (.parGen .odd) "1011") = txt "10110" ∧
    (result (.parGen .odd) "1011").ones = 3 ∧ (result (.parGen .odd) "1011").pbit = 0 := by decide

/-- V13. -/
theorem test_parGen_one_symbol : output (result (.parGen .even) "1") = txt "11" ∧
    statusWord (result (.parGen .even) "1").status = 0x00000101 := by decide

/-- V23. -/
theorem test_parChk_detects : statusWord (result (.parChk .even) "10110").status = 0x00000301 ∧
    (result (.parChk .even) "10110").ones = 3 ∧ (result (.parChk .even) "10110").pbit = 1 ∧
    (result (.parChk .even) "10110").rbit = 0 := by decide

/-- V28: the body is empty. -/
theorem test_parChk_one_symbol : statusWord (result (.parChk .odd) "1").status = 0x00000201 ∧
    (result (.parChk .odd) "1").ones = 0 ∧ (result (.parChk .odd) "1").olen = 0 := by decide

/-- V1. -/
theorem test_hamEnc_worked_example : output (result .hamEnc "1011") = txt "0110011" ∧
    (result .hamEnc "1011").npar = 3 := by decide

/-- V52: the parity count steps up to 5 at twelve data bits. -/
theorem test_hamEnc_twelve_bits : output (result .hamEnc "110100111011") = txt "10111010001110111" ∧
    (result .hamEnc "110100111011").npar = 5 := by decide

/-- V3. -/
theorem test_hamDec_corrects : statusWord (result .hamDec "0100011").status = 0x00000401 ∧
    output (result .hamDec "0100011") = txt "1011" ∧ (result .hamDec "0100011").synd = 3 ∧
    (result .hamDec "0100011").epos = 3 := by decide

/-- V80: the syndrome names a position beyond the word. -/
theorem test_hamDec_out_of_range : statusWord (result .hamDec "0011").status = 0x00001501 ∧
    output (result .hamDec "0011") = txt "1" ∧ (result .hamDec "0011").synd = 7 ∧
    (result .hamDec "0011").epos = 0 := by decide

/-- V111: codeword, and the first and last of its raw records. -/
theorem test_crcGen_worked_example :
    output (result .crcGen "1101011011" "10011") = txt "11010110111110" ∧
    (result .crcGen "1101011011" "10011").tlen = 10 ∧
    (result .crcGen "1101011011" "10011").tbuf.take 8 = [0xE, 0x1A, 0, 0, 0xE, 0x13, 0, 0] ∧
    (result .crcGen "1101011011" "10011").tbuf.read 37 = 0xE := by decide

/-- V121: the divisor's leading bit has no effect. -/
theorem test_crcGen_leading_zero_divisor : output (result .crcGen "10110" "011") = txt "1011010" ∧
    (result .crcGen "10110" "011").rlen = 2 := by decide

/-- V134, with the flags of its first and its last trace record. -/
theorem test_crcChk_detects : statusWord (result .crcChk "001101" "111").status = 0x00000301 ∧
    output (result .crcChk "001101" "111") = txt "11" ∧
    (result .crcChk "001101" "111").tbuf.read 0 = 0xC ∧ (result .crcChk "001101" "111").tbuf.read 12 = 0x0 := by
  decide

/-- V142: a flip under the divisor `10` that goes undetected (43_crc.md R180). -/
theorem test_crcChk_divisor_without_tail : statusWord (result .crcChk "1110" "10").status = 0x00000201 := by decide

/-- V5. -/
theorem test_csumGen_ones : output (result (.csumGen .ones) "25 62 3F 52") = txt "E6" ∧
    (result (.csumGen .ones) "25 62 3F 52").sum = 0x118 ∧ (result (.csumGen .ones) "25 62 3F 52").fsum = 0x19 ∧
    (result (.csumGen .ones) "25 62 3F 52").tbuf.take 8 = [1, 0x25, 0, 0x25, 1, 0x62, 0, 0x87] := by decide

/-- V164: the sum is a multiple of 256. -/
theorem test_csumGen_mod256_wraps : output (result (.csumGen .mod256) "FF 01") = txt "00" ∧
    (result (.csumGen .mod256) "FF 01").sum = 0x100 ∧ (result (.csumGen .mod256) "FF 01").csum = 0 := by decide

/-- V6. -/
theorem test_csumVer_ones_clean : statusWord (result (.csumVer .ones) "25 62 3F 52 E6").status = 0x00000201 ∧
    (result (.csumVer .ones) "25 62 3F 52 E6").sum = 0x1FE ∧
    (result (.csumVer .ones) "25 62 3F 52 E6").fsum = 0xFF ∧
    (result (.csumVer .ones) "25 62 3F 52 E6").csum = 0 := by decide

/-- Program P4, steps 17 to 20: the same text under variant 0. -/
theorem test_csumVer_mod256_detects :
    statusWord (result (.csumVer .mod256) "25 62 3F 52 E6").status = 0x00000301 ∧
    (result (.csumVer .mod256) "25 62 3F 52 E6").fsum = 0xFE ∧
    (result (.csumVer .mod256) "25 62 3F 52 E6").csum = 0xE8 := by decide

/-- V7. -/
theorem test_p2dGen_worked_example :
    output (result .p2dGen "1010\n1101\n0110") = txt "10100\n11011\n01100\n00011" ∧
    (result .p2dGen "1010\n1101\n0110").nrows = 4 ∧ (result .p2dGen "1010\n1101\n0110").ncols = 5 := by decide

/-- V8. -/
theorem test_p2dVer_corrects :
    output (result .p2dVer "10100\n11111\n01100\n00011") = txt "10100\n11011\n01100\n00011" ∧
    (result .p2dVer "10100\n11111\n01100\n00011").rmis.take 4 = [0, 1, 0, 0] ∧
    (result .p2dVer "10100\n11111\n01100\n00011").cmis.take 5 = [0, 0, 1, 0, 0] ∧
    (result .p2dVer "10100\n11111\n01100\n00011").erow = 1 ∧
    (result .p2dVer "10100\n11111\n01100\n00011").ecol = 2 := by decide

/-! ## Programs (30_encoding.md R92) -/

/-- Operations 1, 2, 5, 6 and 7 of program P2 of spec/95_test_vectors.md. -/
def programP2 : List HostOp := [.ldi (txt "1011"), .cmd .hamEnc, .mvo, .flip 2, .cmd .hamDec]

/-- The first and the last accesses of that program's encoding, as P2 lists them. -/
theorem test_program_encoding :
    (encodeProgram programP2 State.reset).map (·.take 9) = some
      [⟨0x040000, some 0x31⟩, ⟨0x040004, some 0x30⟩, ⟨0x040008, some 0x31⟩, ⟨0x04000C, some 0x31⟩,
        ⟨0x000008, some 4⟩, ⟨0x000000, some 4⟩, ⟨0x000010, none⟩, ⟨0x0C0000, none⟩, ⟨0x040000, some 0x30⟩] ∧
    (encodeProgram programP2 State.reset).map (·.drop 20) = some
      [⟨0x040018, some 0x31⟩, ⟨0x000008, some 7⟩, ⟨0x040008, none⟩, ⟨0x040008, some 0x30⟩,
        ⟨0x000000, some 5⟩] := by decide

/-- The end state of a program. -/
def programEnd (os : List HostOp) (s : State) : Option State :=
  match runProgram os s with
  | some (_, .next t) => some t
  | some (_, .fault _) | some (_, .refused _) | none => none

/-- P2's end state: `CMD`, the operand with the flip in it, the corrected data. -/
theorem test_program_end_state :
    (programEnd programP2 State.reset).map (fun t => (t.cmd, operand t.op, output t.res, t.res.epos)) =
      some (5, txt "0100011", txt "1011", 3) := by decide

/-- 20_memory.md R63: a write to the element `IMAX` is an access error; it ends the run (log 4). -/
theorem test_program_beyond_the_buffer :
    programEnd [.wr (.ibuf 8) 0x31, .cmd .hamEnc] { State.reset with params := smallest } = none := by decide

/-! ## Witnesses: for each statement with hypotheses, a state and operands that meet all of them -/

theorem witness_legalWordsAreTheFourteen_other : (0x1A : Word) ∉ [(0x0A : Word), 0x0B] ∧
    decode 0x1A = .error .strayMode := by decide

theorem witness_illegalWordEndsInIllegalCommand :
    State.reset.params.wf ∧
    (waiting State.reset (memWrite Params.default (.reg .cmd) 0x14)).pending =
      memWrite State.reset.params (.reg .cmd) 0x14 :: [] ∧
    decode 0x14 = .error .strayMode := by decide

theorem witness_stepRunsTheDecodedCommand :
    let s := waiting (loaded "1011" "") (memWrite Params.default (.reg .cmd) 0x12)
    s.params.wf ∧ s.pending = memWrite s.params (.reg .cmd) 0x12 :: [] ∧ decode 0x12 = .ok (.parGen .odd) := by
  decide

theorem witness_resetStateReadsZero : smallest.wf ∧ Reg.ecol ≠ .cap := by decide

theorem witness_resetInputRestoresTheResetState :
    (waiting (after (.parGen .odd) (loaded "1011" "")) .reset).pending = .reset :: [] := rfl

theorem witness_onlyTheRightAccess_operand :
    let s := waiting State.reset (memWrite Params.default (.ibuf 1023) 0x31)
    s.params.wf ∧ step s = .next (stepped s) ∧ (stepped s).op ≠ s.op ∧ (Loc.ibuf 1023).mapped s.params :=
  ⟨by decide, step_stepped (by decide), by decide, by decide⟩

theorem witness_onlyTheRightAccess_result :
    let s := waiting State.reset (memWrite Params.default (.reg .cmd) 0x0B)
    s.params.wf ∧ step s = .next (stepped s) ∧ (stepped s).res ≠ s.res ∧ (stepped s).cmd ≠ s.cmd :=
  ⟨by decide, step_stepped (by decide), by decide, by decide⟩

theorem witness_onlyTheRightAccess_done :
    let s := waiting (after .hamEnc (loaded "1011" "")) .reset
    s.params.wf ∧ step s = .next (stepped s) ∧ s.res.status.done = true ∧ (stepped s).res.status.done = false :=
  ⟨by decide, step_stepped (by decide), by decide, by decide⟩

theorem witness_capIsAConstant :
    State.reset.params = Params.default ∧ readLoc State.reset (.reg .cap) = 0x00400400 ∧
    (let s := waiting State.reset (memWrite Params.default (.reg .cap) 0xFFFFFFFF)
     step s = .next (stepped s)) := ⟨rfl, by decide, step_stepped (by decide)⟩

/-- Both ends of every window of 20_memory.md R62, in the smallest block. -/
theorem witness_addressMapLocates :
    smallest.wf ∧
    locate smallest 32 0x200000 = .ok (.reg .cmd) ∧ locate smallest 32 0x20005C = .ok (.reg .cap) ∧
    locate smallest 32 0x200060 = .error .unmapped ∧
    locate smallest 32 0x24001C = .ok (.ibuf 7) ∧ locate smallest 32 0x240020 = .error .unmapped ∧
    locate smallest 32 0x280004 = .ok (.dbuf 1) ∧ locate smallest 32 0x280008 = .error .unmapped ∧
    locate smallest 32 0x2C004C = .ok (.obuf 19) ∧ locate smallest 32 0x2C0050 = .error .unmapped ∧
    locate smallest 32 0x30007C = .ok (.tbuf 7 3) ∧ locate smallest 32 0x300080 = .error .unmapped ∧
    locate smallest 32 0x34001C = .ok (.rmis 7) ∧ locate smallest 32 0x340020 = .error .unmapped ∧
    locate smallest 32 0x38001C = .ok (.cmis 7) ∧ locate smallest 32 0x380020 = .error .unmapped ∧
    locate smallest 32 0x1FFFFC = .error .unmapped :=
  ⟨by decide, rfl, rfl, rfl, rfl, rfl, rfl, rfl, rfl, rfl, rfl, rfl, rfl, rfl, rfl, rfl, rfl⟩

theorem witness_accessRefused_width :
    let s := waiting State.reset (.read 16 0x4)
    s.params.wf ∧ s.pending = .read 16 0x4 :: [] ∧ step s = .refused (.accessError .width) :=
  ⟨by decide, rfl, rfl⟩

theorem witness_accessRefused_misaligned :
    let s := waiting State.reset (.write 32 0x2 0x02)
    s.params.wf ∧ s.pending = .write 32 0x2 0x02 :: [] ∧ step s = .refused (.accessError .misaligned) :=
  ⟨by decide, rfl, rfl⟩

theorem witness_accessRefused_unmapped :
    let s := waiting State.reset (.read 32 0x1C0000)
    s.params.wf ∧ s.pending = .read 32 0x1C0000 :: [] ∧ step s = .refused (.accessError .unmapped) :=
  ⟨by decide, rfl, rfl⟩

theorem witness_readsHaveNoSideEffect :
    let s := waiting (after .crcGen (loaded "1001" "101")) (memRead Params.default (.tbuf 3 1))
    s.params.wf ∧ (Loc.tbuf 1023 3).mapped s.params ∧ (Loc.tbuf 3 1).mapped s.params ∧
    s.pending = memRead s.params (.tbuf 3 1) :: [] ∧ readLoc s (.tbuf 3 1) ≠ 0 := by decide

theorem witness_readOnlyWritesAreIgnored :
    let s := waiting (after .p2dVer (loaded "11\n10" "")) (memWrite Params.default (.cmis 1) 0)
    s.params.wf ∧ (Loc.cmis 1).mapped s.params ∧ (Loc.cmis 1).writable = false ∧
    s.pending = memWrite s.params (.cmis 1) 0 :: [] ∧ readLoc s (.cmis 1) = 1 := by decide

theorem witness_operandWrite_length :
    let s := waiting State.reset (memWrite Params.default (.reg .dlen) 0x12340000)
    s.params.wf ∧ s.canonical ∧ (Loc.reg .dlen).mapped s.params ∧ (Loc.reg .dlen).isOperand = true ∧
    s.pending = memWrite s.params (.reg .dlen) 0x12340000 :: [] := by decide

theorem witness_operandWrite_element :
    let s := waiting (loaded "1011" "") (memWrite Params.default (.ibuf 1023) 0xFFFFFFFF)
    s.params.wf ∧ s.canonical ∧ (Loc.ibuf 1023).mapped s.params ∧ (Loc.ibuf 1023).isOperand = true ∧
    s.pending = memWrite s.params (.ibuf 1023) 0xFFFFFFFF :: [] := by decide

/-- All clauses: texts of the full capacity, an output of the full capacity, the last element. -/
theorem witness_pseudoOperationsLoadAndMove :
    let s := { after (.parGen .even) { loaded "1011011" "" with params := smallest } with pending := [] }
    s.params.wf ∧ s.canonical ∧ s.pending = [] ∧ (txt "10110110").length ≤ s.params.imax ∧
    (txt "11").length ≤ s.params.dmax ∧ s.res.olen.toNat = s.params.imax ∧ (issue .mvo s).isSome = true ∧
    7 < s.params.imax := by decide

/-- The clause on programs: an operation that is issued and whose accesses are all performed. -/
theorem witness_pseudoOperations_program :
    State.reset.params.wf ∧ State.reset.canonical ∧ State.reset.pending = [] ∧
    issue (.flip 7) State.reset = some { State.reset with
      pending := [memRead Params.default (.ibuf 7), memWrite Params.default (.ibuf 7) 1] } ∧
    ∃ t, Host.Core.run Sys2Proof.core 2 { State.reset with
      pending := [memRead Params.default (.ibuf 7), memWrite Params.default (.ibuf 7) 1] } = .next t ∧
      t.op.ibuf = [(7, 1)] :=
  ⟨by decide, by decide, rfl, by decide,
    ⟨{ State.reset with op := { OperandState.zero with ibuf := [(7, 1)] }, reply := .ack }, by rfl, rfl⟩⟩

/-- Where `MVO` is not defined: one symbol more than `IMAX` (30_encoding.md R88). -/
theorem witness_mvo_undefined :
    let s := after (.parGen .even) { loaded "10110110" "" with params := smallest }
    s.params.wf ∧ s.canonical ∧ s.pending = [] ∧ issue .mvo s = none := by decide

/-- The two states differ in the old results, in `IBUF` at `ILEN`, and in `DBUF` at `DLEN`. -/
theorem witness_resultsDependOnCommandAndOperandOnly :
    let s := loaded "1001" "101"
    let s' := { after .hamEnc (loaded "1001" "101") with
      op := { s.op with ibuf := s.op.ibuf.write 4 0x31, dbuf := s.op.dbuf.write 3 0x31 } }
    s ≠ s' ∧ s.params = s'.params ∧ s.op.ilen = s'.op.ilen ∧ s.op.dlen = s'.op.dlen ∧
    (∀ k < s.op.ilen.toNat, s.op.ibuf.read k = s'.op.ibuf.read k) ∧
    (∀ k < s.op.dlen.toNat, s.op.dbuf.read k = s'.op.dbuf.read k) := by decide

theorem witness_divisorAffectsCrcOnly : isCrc .p2dVer = false ∧ isCrc (.parGen .odd) = false := by decide

theorem witness_unlistedResultsReadZero :
    exec (.csumVer .ones) (loaded "0 FF" "") = .next (after (.csumVer .ones) (loaded "0 FF" "")) ∧
    Reg.synd ∈ resultRegs ∧ Reg.synd ∉ writtenRegs (.csumVer .ones) ∧ hasOutput (.csumVer .ones) = false ∧
    Instr.csumVer .ones ≠ .p2dVer ∧ hasTrace (.parChk .odd) = false := ⟨exec_after _ _, by decide⟩

theorem witness_errorLeavesNothingElse :
    (∃ t, writeCmd 0x04 (loaded "101" "") = .next t ∧ t.res.status.err = .tooShort) ∧
    ∃ t, writeCmd 0x14 (loaded "101" "") = .next t ∧ t.res.status.err = .illegalCommand :=
  ⟨⟨after .hamEnc { loaded "101" "" with cmd := 0x04 }, rfl, by decide⟩,
    ⟨illegalCommand { loaded "101" "" with cmd := 0x14 }, rfl, by decide⟩⟩

theorem witness_exactlyOneOutcome :
    exec .hamDec (loaded "0011" "") = .next (after .hamDec (loaded "0011" "")) ∧ errOf .hamDec "0011" = .none ∧
    (result .hamDec "0011").status.detail = .syndromeOutOfRange ∧
    (result .hamDec "0011").status.outcome = .uncorrectable ∧ errOf .hamDec "001" ≠ .none :=
  ⟨exec_after _ _, by decide⟩

theorem witness_errorsRaisedOnlyByTheirCommands :
    exec .crcChk (loaded "1" "1") = .next (after .crcChk (loaded "1" "1")) ∧ errOf .crcChk "1" "1" ≠ .none :=
  ⟨exec_after _ _, by decide⟩

/-- The shortest divisor and the shortest dividend the divider takes. -/
theorem witness_noCommandRaisesLengthMismatch :
    exec .crcChk (loaded "111" "11") = .next (after .crcChk (loaded "111" "11")) ∧
    2 ≤ [true, true].length ∧ [true, true].length ≤ [false, true].length := ⟨exec_after _ _, by decide⟩

/-- The capacities and one beyond them. -/
theorem witness_bufferRangeExactlyBeyondCapacity :
    let s := { loaded "10110110" "11" with params := smallest }
    let longer := { loaded "101101101" "11" with params := smallest }
    let longDivisor := { loaded "10110110" "111" with params := smallest }
    (after .crcGen s).res.status.err = .none ∧ (after .crcGen longer).res.status.err = .bufferRange ∧
    (after .crcGen longDivisor).res.status.err = .bufferRange ∧
    (after .hamEnc longDivisor).res.status.err = .none := by decide

theorem witness_outputsFitTheirBuffers :
    let s := { loaded "1\n1\n1\n1" "11" with params := smallest }
    s.params.wf ∧ exec .p2dGen s = .next (after .p2dGen s) ∧ (after .p2dGen s).res.olen = 14 :=
  ⟨by decide, exec_after _ _, by decide⟩

/-- V37, V41 and an operand without error, for either command. -/
theorem witness_parityOperandChecks :
    (Instr.parGen .even = .parGen .even ∨ Instr.parGen .even = .parChk .even) ∧
    (loaded "10a1" "").op.ilen.toNat ≤ (loaded "10a1" "").params.imax ∧
    errOf (.parGen .even) "" = .invalidEmpty ∧ errOf (.parGen .even) "10a1" = .invalidSymbol ∧
    errOf (.parChk .even) "1" = .none := by decide

/-- V103, V108, V105 and the shortest operand without error. -/
theorem witness_hammingOperandChecks :
    (Instr.hamEnc = .hamEnc ∨ Instr.hamEnc = .hamDec) ∧
    (loaded "101" "").op.ilen.toNat ≤ (loaded "101" "").params.imax ∧
    errOf .hamEnc "" = .invalidEmpty ∧ errOf .hamEnc "1a" = .invalidSymbol ∧ errOf .hamDec "101" = .tooShort ∧
    errOf .hamDec "1010" = .none := by decide

/-- V146, V150, V152, V153 and the longest divisor without error. -/
theorem witness_crcOperandChecks :
    (Instr.crcGen = .crcGen ∨ Instr.crcGen = .crcChk) ∧
    (loaded "1011" "111").op.ilen.toNat ≤ (loaded "1011" "111").params.imax ∧
    (loaded "1011" "111").op.dlen.toNat ≤ (loaded "1011" "111").params.dmax ∧
    errOf .crcGen "1011" "" = .invalidEmpty ∧ errOf .crcGen "12" "1" = .invalidSymbol ∧
    errOf .crcChk "1" "1" = .divisorTooShort ∧ errOf .crcGen "101" "101" = .divisorTooLong ∧
    errOf .crcGen "1011" "101" = .none := by decide

/-- Whitespace only, three digits, one token under either command, two tokens. -/
theorem witness_checksumOperandChecks :
    (Instr.csumVer .ones = .csumGen .ones ∨ Instr.csumVer .ones = .csumVer .ones) ∧
    (loaded " \t" "").op.ilen.toNat ≤ (loaded " \t" "").params.imax ∧
    errOf (.csumGen .ones) " \t" = .invalidEmpty ∧ errOf (.csumGen .ones) "100" = .invalidByte ∧
    errOf (.csumVer .ones) "FF" = .tooFewTokens ∧ errOf (.csumGen .ones) "FF" = .none ∧
    errOf (.csumVer .ones) "FF 0" = .none := by decide

/-- An empty last row, a space, unequal rows, equal rows. -/
theorem witness_matrixOperandChecks :
    (Instr.p2dGen = .p2dGen ∨ Instr.p2dGen = .p2dVer) ∧
    (loaded "10\n" "").op.ilen.toNat ≤ (loaded "10\n" "").params.imax ∧
    errOf .p2dGen "10\n" = .invalidEmpty ∧ errOf .p2dVer "1 0" = .invalidSymbol ∧
    errOf .p2dVer "10\n1" = .rowLengthMismatch ∧ errOf .p2dGen "10\n11" = .none := by decide

theorem witness_commandsOnUnwrittenOperands :
    smallest.wf ∧ (8#16 ≠ 0 ∧ (8#16).toNat ≤ smallest.imax) ∧ (2#16).toNat ≤ smallest.dmax ∧
    (0#16).toNat ≤ smallest.dmax ∧ decode 0x22 = .error .reservedBits := by decide

/-- One symbol, the shortest operand. -/
theorem witness_parGenAppendsTheParityBit :
    let s := loaded "1" ""
    s.params.wf ∧ s.op.ilen.toNat ≠ 0 ∧ s.op.ilen.toNat ≤ s.params.imax ∧ s.binaryOperand := by decide

theorem witness_parChkComparesTheLastBit :
    let s := loaded "10110" ""
    s.params.wf ∧ s.op.ilen.toNat ≠ 0 ∧ s.op.ilen.toNat ≤ s.params.imax ∧ s.binaryOperand ∧
    bits (operand s.op) = [true, false, true, true] ++ [false] := by decide

/-- An operand of each parity. -/
theorem witness_parChkCleanExactlyOnTotalParity :
    (let s := loaded "0" ""
     s.op.ilen.toNat ≠ 0 ∧ s.op.ilen.toNat ≤ s.params.imax ∧ s.binaryOperand) ∧
    (let s := loaded "10110" ""
     s.op.ilen.toNat ≠ 0 ∧ s.op.ilen.toNat ≤ s.params.imax ∧ s.binaryOperand) := by decide

/-- Unmodified, with the first symbol flipped, with the first and the last flipped. -/
theorem witness_parityRoundTrip :
    let s := loaded "1011" ""
    let u := loaded "10110" ""
    s.params.wf ∧ exec (.parGen .odd) s = .next (after (.parGen .odd) s) ∧
    (after (.parGen .odd) s).res.status.err = .none ∧ operand u.op = output (after (.parGen .odd) s).res ∧
    u.op.ilen.toNat ≤ u.params.imax ∧ 4 < (after (.parGen .odd) s).res.olen.toNat ∧
    operand (loaded "00110" "").op = flipSymbol (output (after (.parGen .odd) s).res) 0 ∧
    operand (loaded "00111" "").op = flipSymbol (flipSymbol (output (after (.parGen .odd) s).res) 0) 4 := ⟨by decide, exec_after _ _, by decide⟩

theorem witness_parityCountIsLeast : pcEnc 4 = 3 ∧ 2 < pcEnc 4 ∧ pcEnc 11 = 4 ∧ pcEnc 12 = 5 := by decide

theorem witness_hammingCodewordIsSystematicAndValid : [true] ≠ [] ∧ hammingEncode [true] = [true, true, true] := by
  decide

theorem witness_hamEncEmitsTheCodeword :
    let s := loaded "1011" ""
    s.params.wf ∧ 4 ≤ s.op.ilen.toNat ∧ s.op.ilen.toNat ≤ s.params.imax ∧ s.binaryOperand := by decide

/-- The first and the last position. -/
theorem witness_syndromeIsXorOfPositions :
    let C := [false, true, true, false, false, true, true]
    C.length < 2 ^ 3 ∧ (1 ≤ 1 ∧ 1 ≤ C.length) ∧ 1 ≤ 7 ∧ 7 ≤ C.length := by decide

/-- V2, V74 and V80: a zero syndrome, one equal to `n`, one above `n`. -/
theorem witness_hamDecThreeWayPolicy :
    (let s := loaded "0110011" ""
     s.params.wf ∧ 4 ≤ s.op.ilen.toNat ∧ s.op.ilen.toNat ≤ s.params.imax ∧ s.binaryOperand ∧
     syn (bits (operand s.op)) (pcDec 7) = 0) ∧
    (let s := loaded "0110010" ""
     s.params.wf ∧ 4 ≤ s.op.ilen.toNat ∧ s.op.ilen.toNat ≤ s.params.imax ∧ s.binaryOperand ∧
     syn (bits (operand s.op)) (pcDec 7) = 7) ∧
    (let s := loaded "0011" ""
     s.params.wf ∧ 4 ≤ s.op.ilen.toNat ∧ s.op.ilen.toNat ≤ s.params.imax ∧ s.binaryOperand ∧
     4 < syn (bits (operand s.op)) (pcDec 4)) := by decide

/-- The codeword unmodified, and with its first and its last bit flipped. -/
theorem witness_hammingCorrectsOneError :
    let s := loaded "1011" ""
    let t := after .hamEnc s
    s.params.wf ∧ exec .hamEnc s = .next t ∧ t.res.status.err = .none ∧ (loaded "0110011" "").params.wf ∧
    (loaded "0110011" "").op.ilen.toNat ≤ (loaded "0110011" "").params.imax ∧
    operand (loaded "0110011" "").op = output t.res ∧ (0 < t.res.olen.toNat ∧ 6 < t.res.olen.toNat) ∧
    operand (loaded "1110011" "").op = flipSymbol (output t.res) 0 ∧
    operand (loaded "0110010" "").op = flipSymbol (output t.res) 6 :=
  ⟨by decide, exec_after _ _, by decide⟩

/-- A dividend no longer than the divisor, and one two bits longer. -/
theorem witness_crcRemainderIsPolynomialRemainder :
    let Dv := [true, false]
    let longer := [true, false, false, true]
    let G := [true, true]
    2 ≤ G.length ∧ G.length ≤ Dv.length ∧ G.length < longer.length ∧ G.head? = some true := by decide

/-- The longest divisor a four-symbol operand takes. -/
theorem witness_crcGenEmitsDataAndRemainder :
    let s := loaded "1001" "101"
    s.params.wf ∧ s.op.ilen.toNat ≤ s.params.imax ∧ s.op.dlen.toNat ≤ s.params.dmax ∧ s.binaryOperand ∧
    s.binaryDivisor ∧ 2 ≤ s.op.dlen.toNat ∧ s.op.dlen.toNat < s.op.ilen.toNat := by decide

theorem witness_crcChkReportsTheRemainder :
    let s := loaded "111" "11"
    s.params.wf ∧ s.op.ilen.toNat ≤ s.params.imax ∧ s.op.dlen.toNat ≤ s.params.dmax ∧ s.binaryOperand ∧
    s.binaryDivisor ∧ 2 ≤ s.op.dlen.toNat ∧ s.op.dlen.toNat < s.op.ilen.toNat := by decide

theorem witness_crcRoundTrip :
    let s := loaded "1001" "101"
    let t := after .crcGen s
    let u := loaded "100111" "101"
    s.params.wf ∧ exec .crcGen s = .next t ∧ t.res.status.err = .none ∧ operand u.op = output t.res ∧
    divisor u.op = divisor s.op ∧ u.op.ilen.toNat ≤ u.params.imax ∧ u.op.dlen.toNat ≤ u.params.dmax :=
  ⟨by decide, exec_after _ _, by decide⟩

/-- The first and the last bit of V113's codeword; and the divisor `10`. -/
theorem witness_crcDetectsSingleFlips :
    let D := [true, false, true, true]
    let G := [true, true, true]
    (2 ≤ G.length ∧ G.length < D.length ∧ true ∈ G.tail ∧
      (match crcdiv (D ++ List.replicate (G.length - 1) false) G with
        | .ok (R, _) => R == [false, true]
        | .error _ => false) = true ∧ 0 < D.length + 2 ∧ 5 < D.length + 2) ∧
    (2 ≤ [true, false].length ∧ [true, false].length < D.length ∧ true ∉ [true, false].tail) := by decide

theorem witness_csumGenEmitsTheChecksum :
    let s := loaded "FF 1" ""
    s.params.wf ∧ s.op.ilen.toNat ≤ s.params.imax ∧ [0xFF, 1] ≠ [] ∧
    bytevals (tokens (operand s.op)) = some [0xFF, 1] := by decide

/-- A text both variants accept in one form each, and one neither accepts. -/
theorem witness_csumVerAcceptsOrReportsExpected :
    (let s := loaded "FF 01" ""
     s.params.wf ∧ s.op.ilen.toNat ≤ s.params.imax ∧ [0xFF] ≠ [] ∧
     bytevals (tokens (operand s.op)) = some ([0xFF] ++ [1]) ∧ (0xFF + 1) % 256 = 0 ∧ fold (0xFF + 1) ≠ 0xFF) ∧
    (let s := loaded "FF 0" ""
     s.params.wf ∧ s.op.ilen.toNat ≤ s.params.imax ∧ [0xFF] ≠ [] ∧
     bytevals (tokens (operand s.op)) = some ([0xFF] ++ [0]) ∧ (0xFF + 0) % 256 ≠ 0 ∧ fold (0xFF + 0) = 0xFF) := by
  decide

/-- Data that fold to 0xFF and data that do not, with the largest byte. -/
theorem witness_acceptedChecksumBytes :
    ((∀ b ∈ [0xFF, 0], b < 256) ∧ 0xFF < 256 ∧ fold [0xFF, 0].sum = 0xFF) ∧
    ((∀ b ∈ [0, 0], b < 256) ∧ 0xFF < 256 ∧ fold [0, 0].sum ≠ 0xFF) := by decide

theorem witness_checksumRoundTrip :
    let s := loaded "25 62 3F 52" ""
    let t := after (.csumGen .ones) s
    let u := loaded "25 62 3F 52 E6" ""
    s.params.wf ∧ exec (.csumGen .ones) s = .next t ∧ t.res.status.err = .none ∧
    operand u.op = operand s.op ++ [symSpace] ++ output t.res ∧ u.op.ilen.toNat ≤ u.params.imax :=
  ⟨by decide, exec_after _ _, by decide⟩

/-- One row of one cell, with the first and the last column of its generated matrix. -/
theorem witness_generatedMatrixIsEven :
    [[true]] ≠ [] ∧ (∀ r ∈ [[true]], r.length = 1) ∧ 0 < 1 + 1 ∧ 1 < 1 + 1 ∧
    augmentMatrix [[true]] = [[true, true], [true, true]] := by decide

theorem witness_p2dGenEmitsTheMatrix :
    let s := loaded "10\n11" ""
    s.params.wf ∧ s.op.ilen.toNat ≤ s.params.imax ∧ [[true, false], [true, true]] ≠ [] ∧ 1 ≤ 2 ∧
    (∀ r ∈ [[true, false], [true, true]], r.length = 2) ∧ operand s.op = grid [[true, false], [true, true]] := by
  decide

/-- No mismatch, one row and one column, and two rows with no column. -/
theorem witness_p2dVerThreeWayPolicy :
    (let s := loaded "11\n11" ""
     let M := [[true, true], [true, true]]
     s.params.wf ∧ s.op.ilen.toNat ≤ s.params.imax ∧ M ≠ [] ∧ 1 ≤ 2 ∧ (∀ r ∈ M, r.length = 2) ∧
     operand s.op = grid M ∧ ones (M.map par) = 0 ∧
     ones ((List.range 2).map (fun j => par (column M j))) = 0) ∧
    (let s := loaded "11\n10" ""
     let M := [[true, true], [true, false]]
     s.params.wf ∧ s.op.ilen.toNat ≤ s.params.imax ∧ M ≠ [] ∧ 1 ≤ 2 ∧ (∀ r ∈ M, r.length = 2) ∧
     operand s.op = grid M ∧ ones (M.map par) = 1 ∧
     ones ((List.range 2).map (fun j => par (column M j))) = 1) ∧
    (let s := loaded "10\n10" ""
     let M := [[true, false], [true, false]]
     s.params.wf ∧ s.op.ilen.toNat ≤ s.params.imax ∧ M ≠ [] ∧ 1 ≤ 2 ∧ (∀ r ∈ M, r.length = 2) ∧
     operand s.op = grid M ∧ ones (M.map par) = 2 ∧
     ones ((List.range 2).map (fun j => par (column M j))) = 0) := by decide

/-- The generated matrix unmodified, and with its first and its last cell flipped. -/
theorem witness_twoDParityCorrectsOneCell :
    let s := loaded "10" ""
    let t := after .p2dGen s
    let M := [[true, false]]
    s.params.wf ∧ exec .p2dGen s = .next t ∧ M ≠ [] ∧ 1 ≤ 2 ∧ (∀ r ∈ M, r.length = 2) ∧ operand s.op = grid M ∧
    t.res.status.err = .none ∧ (loaded "101\n101" "").params.wf ∧
    (loaded "101\n101" "").op.ilen.toNat ≤ (loaded "101\n101" "").params.imax ∧
    operand (loaded "101\n101" "").op = output t.res ∧
    operand (loaded "001\n101" "").op = grid (flipCell (augmentMatrix M) 0 0) ∧
    operand (loaded "101\n100" "").op = grid (flipCell (augmentMatrix M) 1 2) :=
  ⟨by decide, exec_after _ _, by decide⟩

/-- A state with results of every kind of buffer but the mismatch flags, and a command waiting. -/
theorem witness_everyStepKeepsTheInvariant :
    let s := waiting (after .crcGen (loaded "1001" "101")) (memWrite Params.default (.reg .cmd) 0x04)
    s.Inv ∧ step s = .next (stepped s) ∧ (stepped s).res.status.outcome = .generated :=
  ⟨⟨by decide, by decide, by decide, by decide, by decide⟩, step_stepped (by decide), by decide⟩

theorem witness_resetHasTheInvariant : smallest.wf ∧ Params.default.wf := by decide

theorem witness_safeRunsComplete :
    let s := waiting (after .p2dVer (loaded "11\n10" "")) (memRead Params.default (.reg .erow))
    s.Safe ∧ s.pending ≠ [] :=
  ⟨⟨⟨by decide, by decide, by decide, by decide, by decide⟩, fun a ha => by
      obtain rfl := List.mem_singleton.mp ha
      exact ⟨rfl, .reg .erow, trivial, rfl⟩⟩, by decide⟩

end Sys2Proof.Tests
end

section
/-! PROOFS. The syndrome of a Hamming word (spec/42_hamming.md R143, R144, R152), and the lengths of what each
command emits and traces, which 00_scope.md R7 bounds. -/

namespace Sys2Proof.Machine

/-! ## The syndrome, bit by bit (42_hamming.md R143, R144) -/

theorem syn_succ (C : List Bool) (P : Nat) : syn C (P + 1) = 2 ^ P * (chk C P).toNat + syn C P := by
  cases h : chk C P <;> simp [syn, List.range_succ, h, Nat.add_comm]

theorem syn_lt_two_pow (C : List Bool) (P : Nat) : syn C P < 2 ^ P := by
  induction P with
  | zero => simp [syn]
  | succ P ih =>
    have hb : 2 ^ P * (chk C P).toNat ≤ 2 ^ P * 1 := Nat.mul_le_mul_left _ (Bool.toNat_le _)
    rw [syn_succ, Nat.pow_succ]
    omega

/-- Bit `q < P` of the syndrome is check `q`. -/
theorem testBit_syn (C : List Bool) (P q : Nat) : (syn C P).testBit q = (decide (q < P) && chk C q) := by
  induction P with
  | zero => simp [syn]
  | succ P ih =>
    rw [syn_succ, Nat.testBit_two_pow_mul_add _ (syn_lt_two_pow C P), ih]
    rcases Nat.lt_trichotomy q P with hq | rfl | hq
    · simp [hq, Nat.lt_succ_of_lt hq]
    · cases h : chk C q <;> simp
    · have hbit : (chk C P).toNat < 2 ^ (q - P) :=
        (Bool.toNat_lt _).trans_le (Nat.pow_le_pow_right (n := 2) (by decide) (by omega : 1 ≤ q - P))
      rw [if_neg (by omega), Nat.testBit_lt_two_pow hbit, decide_eq_false (by omega), Bool.false_and]

/-- A position is covered by check `q` exactly when its bit `q` is set. -/
theorem covered_cons (q pos : Nat) (b : Bool) (C : List Bool) :
    covered q pos (b :: C) = (if pos.testBit q then [b] else []) ++ covered q (pos + 1) C := by
  have h : (pos >>> q) &&& 1 = 1 ↔ pos.testBit q = true := by simp [Nat.testBit, Nat.and_comm]
  rw [covered]
  by_cases hp : pos.testBit q = true
  · rw [if_pos (h.2 hp), if_pos hp, List.singleton_append]
  · rw [if_neg (mt h.1 hp), if_neg hp, List.nil_append]

/-- Inverting the bit at index `i` inverts the parity of every check that covers its position. -/
theorem par_covered_set_not (q pos : Nat) (C : List Bool) (i : Nat) (hi : i < C.length) :
    par (covered q pos (C.set i (!C.getD i false))) = xor (par (covered q pos C)) ((pos + i).testBit q) := by
  induction C generalizing pos i with
  | nil => simp at hi
  | cons b C ih =>
    cases i with
    | zero => cases h : pos.testBit q <;> simp [covered_cons, h, par_cons]
    | succ i =>
      have := ih (pos + 1) i (by simpa using hi)
      simp only [List.set_cons_succ, List.getD_cons_succ, covered_cons, par_append, this, Bool.xor_assoc]
      rw [show pos + 1 + i = pos + (i + 1) by omega]

theorem chk_flipAt {C : List Bool} {k : Nat} (h1 : 1 ≤ k) (hk : k ≤ C.length) (q : Nat) :
    chk (flipAt C k) q = xor (chk C q) (k.testBit q) := by
  have := par_covered_set_not q 1 C (k - 1) (by omega)
  rwa [show 1 + (k - 1) = k by omega] at this

/-- Flipping the bit at position `k` changes the syndrome to `syn ^ k` (42_hamming.md R144). -/
theorem syn_flipAt {C : List Bool} {P k : Nat} (hP : C.length < 2 ^ P) (h1 : 1 ≤ k) (hk : k ≤ C.length) :
    syn (flipAt C k) P = syn C P ^^^ k := by
  refine Nat.eq_of_testBit_eq fun q => ?_
  rw [Nat.testBit_xor, testBit_syn, testBit_syn, chk_flipAt h1 hk]
  by_cases hq : q < P
  · simp [hq]
  · have hkq : k < 2 ^ q :=
      (Nat.lt_of_le_of_lt hk hP).trans_le (Nat.pow_le_pow_right (by decide) (Nat.le_of_not_lt hq))
    simp [hq, Nat.testBit_lt_two_pow hkq]

theorem lt_two_pow_pcDec (n : Nat) : n < 2 ^ pcDec n := Nat.lt_log2_self

/-- The second syndrome of HAM.DEC is always 0: MULTI_BIT is unreachable (42_hamming.md R152). -/
theorem syn_flipAt_syn {C : List Bool} (h0 : syn C (pcDec C.length) ≠ 0)
    (hn : syn C (pcDec C.length) ≤ C.length) :
    syn (flipAt C (syn C (pcDec C.length))) (pcDec C.length) = 0 := by
  rw [syn_flipAt (lt_two_pow_pcDec _) (Nat.pos_of_ne_zero h0) hn, Nat.xor_self]

/-! ## Lengths of Hamming words -/

theorem pcEncFrom_le (m fuel p : Nat) : pcEncFrom m fuel p ≤ p + fuel := by
  induction fuel generalizing p with
  | zero => simp [pcEncFrom]
  | succ fuel ih =>
    rw [pcEncFrom]
    split
    · omega
    · have := ih (p + 1); omega

/-- `m + 1` parity bits are always enough. -/
theorem pcEnc_le (m : Nat) : pcEnc m ≤ m + 1 := by
  simpa [pcEnc] using pcEncFrom_le m (m + 1) 0

theorem placeFrom_length (pos k : Nat) (D : List Bool) : (placeFrom pos k D).length = k := by
  induction k generalizing pos D with
  | zero => rfl
  | succ k ih => rw [placeFrom]; split <;> simp [ih]

theorem setParities_length (C : List Bool) (p : Nat) : (setParities C p).length = C.length := by
  induction p with
  | zero => rfl
  | succ p ih => simpa [setParities, List.range_succ] using ih

theorem hammingEncode_length (D : List Bool) : (hammingEncode D).length = D.length + pcEnc D.length := by
  simp [hammingEncode, setParities_length, place, placeFrom_length]

theorem extractFrom_length_le (pos : Nat) (C : List Bool) : (extractFrom pos C).length ≤ C.length := by
  induction C generalizing pos with
  | nil => simp [extractFrom]
  | cons b C ih =>
    have := ih (pos + 1)
    rw [extractFrom]
    split <;> simp only [List.length_cons] <;> omega

theorem extract_length_le (C : List Bool) : (extract C).length ≤ C.length := extractFrom_length_le 1 C

@[simp] theorem flipAt_length (C : List Bool) (k : Nat) : (flipAt C k).length = C.length := by simp [flipAt]

/-! ## The divider (43_crc.md R172) -/

@[simp] theorem zeros_length (k : Nat) : (zeros k).length = k := by simp [zeros]

@[simp] theorem crcRow_length (sel : Bool) (G : List Bool) : (crcRow sel G).length = G.length := by
  cases sel <;> simp [crcRow]

/-- `xor` on arguments of one length (40_bitstring.md R104). -/
theorem xorBits_of_length_eq {a b : List Bool} (h : a.length = b.length) :
    xorBits a b = .ok (List.zipWith xor a b) := by simp [xorBits, h]

/-- On a window as long as the divisor the steps never fail; they leave one bit less than the divisor has, and one
record for each bit shifted in and one for the last window. -/
theorem crcSteps_ok (G W pending : List Bool) (hW : W.length = G.length) (hG : 1 ≤ G.length) :
    ∃ R recs, crcSteps G W pending = .ok (R, recs) ∧ R.length = G.length - 1 ∧
      recs.length = pending.length + 1 := by
  have hx : xorBits W (crcRow (W.headD false) G) = .ok (List.zipWith xor W (crcRow (W.headD false) G)) :=
    xorBits_of_length_eq (by simp [hW])
  induction pending generalizing W with
  | nil => exact ⟨_, _, by simp only [crcSteps, hx]; rfl, by simp [hW], rfl⟩
  | cons d pending ih =>
    have hnext : ((List.zipWith xor W (crcRow (W.headD false) G)).tail ++ [d]).length = G.length := by
      simp [hW]; omega
    obtain ⟨R, recs, hs, hR, hrecs⟩ := ih _ hnext (xorBits_of_length_eq (by rw [hnext, crcRow_length]))
    exact ⟨R, _, by simp only [crcSteps, hx, hs]; rfl, hR, by simp [hrecs]⟩

/-- A division of at least `k` bits by `k >= 1` bits answers a remainder of `k - 1` bits, with `N - k + 1` records;
so the divider never raises LENGTH_MISMATCH (40_bitstring.md R105). -/
theorem crcdiv_ok {Dv G : List Bool} (hG : 1 ≤ G.length) (hD : G.length ≤ Dv.length) :
    ∃ R recs, crcdiv Dv G = .ok (R, recs) ∧ R.length = G.length - 1 ∧
      recs.length = Dv.length - G.length + 1 := by
  simpa [crcdiv] using crcSteps_ok G (Dv.take G.length) (Dv.drop G.length) (by simp [hD]) hG

/-! ## Checksum lengths -/

theorem accumulate_length (t : Nat) (bs : List Nat) : (accumulate t bs).2.length = bs.length := by
  induction bs generalizing t with
  | nil => rfl
  | cons b bs ih => simp [accumulate, ih]

theorem filter_nonempty_length_le {α : Type} (L : List (List α)) :
    (L.filter (fun t => !t.isEmpty)).length ≤ (L.map List.length).sum := by
  induction L with
  | nil => simp
  | cons t L ih =>
    cases t with
    | nil => simpa using ih
    | cons a t => simp only [List.filter_cons, List.map_cons, List.sum_cons, List.length_cons, List.isEmpty_cons,
        Bool.not_false, if_true]; omega

/-- A text has no more tokens than symbols (44_checksum.md R190). -/
theorem tokens_length_le (S : List Symbol) : (tokens S).length ≤ S.length := by
  have := splitText_total isWhitespace S
  exact (filter_nonempty_length_le _).trans (by omega)

/-! ## Matrix sizes (45_twod_parity.md R220 to R225) -/

/-- The cells and the line feeds between the rows make up a matrix operand. -/
theorem checkMatrix_size {S : List Symbol} {M : List (List Bool)} (h : checkMatrix S = .ok M) :
    M ≠ [] ∧ (M.map List.length).sum + (M.length - 1) = S.length := by
  obtain ⟨-, -, -, -, rfl⟩ := checkMatrix_ok.1 h
  have hlen := splitText_length (· == symLF) S
  have htot := splitText_total (· == symLF) S
  refine ⟨by simp [rows, splitText_ne_nil], ?_⟩
  have hcells : ((rows S).map bits).map List.length = (splitText (· == symLF) S).map List.length := by
    simp [rows, Function.comp_def]
  rw [hcells, List.length_map, rows]
  omega

theorem ncolsOf_eq {α : Type} (M : List (List α)) : ncolsOf M = (M.map List.length).headD 0 := by
  cases M <;> rfl

theorem ncolsOf_le_sum {α : Type} (M : List (List α)) : ncolsOf M ≤ (M.map List.length).sum := by
  cases M <;> simp [ncolsOf]

theorem length_eq_of_map_length_eq {α : Type} {A M : List (List α)} (h : A.map List.length = M.map List.length) :
    A.length = M.length := by simpa using congrArg List.length h

/-- Matrices of one shape have grids of one length. -/
theorem grid_length_of_shape {A M : List (List Bool)} (h : A.map List.length = M.map List.length) :
    (grid A).length = (grid M).length := by
  rw [grid_length, grid_length, h, length_eq_of_map_length_eq h]

/-- Flipping a cell keeps the shape. -/
theorem flipCell_shape (M : List (List Bool)) (i j : Nat) :
    (flipCell M i j).map List.length = M.map List.length := by
  rw [flipCell, List.map_set, List.length_set]
  refine List.ext_getElem? fun n => ?_
  rw [List.getElem?_set]
  split_ifs with hn hi
  · subst hn
    simp only [List.length_map] at hi
    simp [List.getD_eq_getElem?_getD, List.getElem?_eq_getElem hi]
  · subst hn
    simpa using hi
  · rfl

@[simp] theorem columnParities_length (M : List (List Bool)) (n : Nat) : (columnParities M n).length = n := by
  simp [columnParities]

@[simp] theorem augmentMatrix_length (M : List (List Bool)) : (augmentMatrix M).length = M.length + 1 := by
  simp [augmentMatrix]

theorem augmentMatrix_ncolsOf {M : List (List Bool)} (h : M ≠ []) : ncolsOf (augmentMatrix M) = ncolsOf M + 1 := by
  obtain ⟨r, rs, rfl⟩ := List.exists_cons_of_ne_nil h
  simp [augmentMatrix, ncolsOf, augmentRow]

/-- The generated grid has one more column and one more row, the line feed before it included. -/
theorem grid_augmentMatrix_length (M : List (List Bool)) :
    (grid (augmentMatrix M)).length = (M.map List.length).sum + M.length + (ncolsOf M + 1) + M.length := by
  have hrows : ((M.map augmentRow).map List.length).sum = (M.map List.length).sum + M.length := by
    induction M with
    | nil => rfl
    | cons r M ih => simp only [List.map_cons, List.sum_cons, ih, augmentRow, List.length_append,
        List.length_cons, List.length_nil]; omega
  rw [grid_length, augmentMatrix_length, augmentMatrix]
  simp only [List.map_append, List.sum_append, hrows, List.map_cons, List.map_nil, List.sum_cons, List.sum_nil,
    columnParities_length]
  omega

end Sys2Proof.Machine
end

section
/-! PROOFS. What each family rule answers, one equation per end of its operand check, and the errors the operand
checks raise (spec/41_parity.md to spec/45_twod_parity.md; spec/60_exceptions.md R250). -/

namespace Sys2Proof.Machine

/-! ## The errors of the operand checks -/

theorem checkBits_error_mem {S : List Symbol} {e : ErrorCode} (h : checkBits S = .error e) :
    e ∈ [ErrorCode.invalidEmpty, .invalidSymbol] := by
  rcases checkBits_error.1 h with ⟨-, rfl⟩ | ⟨-, -, rfl⟩ <;> decide

theorem checkHamming_error_mem {S : List Symbol} {e : ErrorCode} (h : checkHamming S = .error e) :
    e ∈ [ErrorCode.invalidEmpty, .invalidSymbol, .tooShort] := by
  unfold checkHamming at h
  split at h
  · cases h
    exact List.mem_append_left [.tooShort] (checkBits_error_mem ‹_›)
  · split at h <;> cases h
    decide

theorem checkCrc_error_mem {S G : List Symbol} {e : ErrorCode} (h : checkCrc S G = .error e) :
    e ∈ [ErrorCode.invalidEmpty, .invalidSymbol, .divisorTooShort, .divisorTooLong] := by
  unfold checkCrc at h
  split_ifs at h <;> cases h <;> decide

theorem checkMatrix_error_mem {S : List Symbol} {e : ErrorCode} (h : checkMatrix S = .error e) :
    e ∈ [ErrorCode.invalidEmpty, .invalidSymbol, .rowLengthMismatch] := by
  unfold checkMatrix at h
  split_ifs at h <;> cases h <;> decide

/-- TOO_FEW_TOKENS only where more than one token is asked for (44_checksum.md R192). -/
theorem checkBytes_error_mem {n : Nat} {S : List Symbol} {e : ErrorCode} (h : checkBytes n S = .error e) :
    e ∈ [ErrorCode.invalidEmpty, .invalidByte] ∨ (2 ≤ n ∧ e = .tooFewTokens) := by
  unfold checkBytes at h
  split_ifs at h with h0
  · cases h
    exact .inl (by decide)
  · split at h
    · cases h
      exact .inl (by decide)
    · next bs hbs =>
      have hlen := bytevals_length hbs
      split_ifs at h with hn
      cases h
      exact .inr ⟨by omega, rfl⟩

/-! ## The rules -/

section
variable {op : OperandState} {e : ErrorCode} (r : ResultState)

theorem parGenRule_of_error {m : ParityMode} (h : checkBits (operand op) = .error e) :
    parGenRule m op r = .error e := by simp only [parGenRule, h]

theorem parGenRule_of_ok {m : ParityMode} {B : List Bool} (h : checkBits (operand op) = .ok B) :
    parGenRule m op r = .ok { emit (operand op ++ [sym (pbit B m)]) r with
      ones := BitVec.ofNat 16 (ones B), pbit := BitVec.ofBool (pbit B m), status := r.status.ok .generated } := by
  simp only [parGenRule, h, emit_status]

theorem parChkRule_of_error {m : ParityMode} (h : checkBits (operand op) = .error e) :
    parChkRule m op r = .error e := by simp only [parChkRule, h]

theorem parChkRule_of_ok {m : ParityMode} {B : List Bool} (h : checkBits (operand op) = .ok B) :
    parChkRule m op r = .ok { emit [] r with
      ones := BitVec.ofNat 16 (ones B.dropLast), pbit := BitVec.ofBool (pbit B.dropLast m)
      rbit := BitVec.ofBool (B.getLastD false)
      status := r.status.ok (verdict (B.getLastD false == pbit B.dropLast m)) } := by
  simp only [parChkRule, h, emit_status]

theorem hamEncRule_of_error (h : checkHamming (operand op) = .error e) : hamEncRule op r = .error e := by
  simp only [hamEncRule, h]

theorem hamEncRule_of_ok {D : List Bool} (h : checkHamming (operand op) = .ok D) :
    hamEncRule op r = .ok { emit (syms (hammingEncode D)) r with
      npar := BitVec.ofNat 4 (pcEnc D.length), status := r.status.ok .generated } := by
  simp only [hamEncRule, h, emit_status]

theorem hamDecRule_of_error (h : checkHamming (operand op) = .error e) : hamDecRule op r = .error e := by
  simp only [hamDecRule, h]

/-- The three ways HAM.DEC ends without error; the branch of MULTI_BIT is never taken (42_hamming.md R150, R152). -/
theorem hamDecRule_cases {C : List Bool} (h : checkHamming (operand op) = .ok C) :
    let P := pcDec C.length
    let s := syn C P
    let r' := { r with npar := BitVec.ofNat 4 P, synd := BitVec.ofNat 16 s }
    (s = 0 ∧ hamDecRule op r = .ok (emit (syms (extract C)) { r' with status := r.status.ok .clean })) ∨
    (0 < s ∧ s ≤ C.length ∧ hamDecRule op r = .ok (emit (syms (extract (flipAt C s)))
      { r' with synd2 := 0, epos := BitVec.ofNat 16 s, status := r.status.ok .corrected })) ∨
    (C.length < s ∧ hamDecRule op r = .ok (emit (syms (extract C))
      { r' with status := r.status.uncorrectable .syndromeOutOfRange })) := by
  intro P s r'
  by_cases h0 : s = 0
  · exact .inl ⟨h0, by simp only [hamDecRule, h]; rw [if_pos h0]⟩
  by_cases hn : s ≤ C.length
  · have hs2 : syn (flipAt C s) P = 0 := syn_flipAt_syn h0 hn
    refine .inr (.inl ⟨Nat.pos_of_ne_zero h0, hn, ?_⟩)
    simp only [hamDecRule, h]
    rw [if_neg h0, if_pos hn, if_pos hs2, hs2]
    rfl
  · exact .inr (.inr ⟨Nat.lt_of_not_le hn, by simp only [hamDecRule, h]; rw [if_neg h0, if_neg hn]⟩)

theorem crcGenRule_of_error (h : checkCrc (operand op) (divisor op) = .error e) : crcGenRule op r = .error e := by
  simp only [crcGenRule, h]

theorem crcGenRule_of_ok {D G R : List Bool} {recs : List TraceRecord}
    (h : checkCrc (operand op) (divisor op) = .ok (D, G))
    (hd : crcdiv (D ++ zeros (G.length - 1)) G = .ok (R, recs)) :
    crcGenRule op r = .ok { emit (operand op ++ syms R) (traceAll r recs) with
      rlen := BitVec.ofNat 16 (G.length - 1), status := r.status.ok .generated } := by
  simp only [crcGenRule, h, hd, emit_status, traceAll_status]

theorem crcChkRule_of_error (h : checkCrc (operand op) (divisor op) = .error e) : crcChkRule op r = .error e := by
  simp only [crcChkRule, h]

theorem crcChkRule_of_ok {D G R : List Bool} {recs : List TraceRecord}
    (h : checkCrc (operand op) (divisor op) = .ok (D, G)) (hd : crcdiv D G = .ok (R, recs)) :
    crcChkRule op r = .ok { emit (syms R) (traceAll r recs) with
      rlen := BitVec.ofNat 16 (G.length - 1), status := r.status.ok (verdict (ones R == 0)) } := by
  simp only [crcChkRule, h, hd, emit_status, traceAll_status]

theorem csumGenRule_of_error {v : ChecksumVariant} (h : checkBytes 1 (operand op) = .error e) :
    csumGenRule v op r = .error e := by simp only [csumGenRule, h]

theorem csumGenRule_of_ok {v : ChecksumVariant} {Bv : List Nat} (h : checkBytes 1 (operand op) = .ok Bv) :
    csumGenRule v op r =
      .ok { emit (hex2 (checksumOf (reduce (accumulate 0 Bv).1 v) v)) (traceAll r (accumulate 0 Bv).2) with
        sum := BitVec.ofNat 32 (accumulate 0 Bv).1
        fsum := BitVec.ofNat 8 (reduce (accumulate 0 Bv).1 v)
        csum := BitVec.ofNat 8 (checksumOf (reduce (accumulate 0 Bv).1 v) v)
        status := r.status.ok .generated } := by
  simp only [csumGenRule, h, emit_status, traceAll_status]

theorem csumVerRule_of_error {v : ChecksumVariant} (h : checkBytes 2 (operand op) = .error e) :
    csumVerRule v op r = .error e := by simp only [csumVerRule, h]

theorem csumVerRule_of_ok {v : ChecksumVariant} {Bv : List Nat} (h : checkBytes 2 (operand op) = .ok Bv) :
    let f := reduce (accumulate 0 Bv).1 v
    csumVerRule v op r = .ok { emit [] (traceAll r (accumulate 0 Bv).2) with
      sum := BitVec.ofNat 32 (accumulate 0 Bv).1
      fsum := BitVec.ofNat 8 f
      csum := if f == acceptedSum v then 0 else BitVec.ofNat 8 (expectedChecksum Bv.dropLast v)
      status := r.status.ok (verdict (f == acceptedSum v)) } := by
  simp only [csumVerRule, h, emit_status, traceAll_status]

theorem p2dGenRule_of_error (h : checkMatrix (operand op) = .error e) : p2dGenRule op r = .error e := by
  simp only [p2dGenRule, h]

theorem p2dGenRule_of_ok {M : List (List Bool)} (h : checkMatrix (operand op) = .ok M) :
    p2dGenRule op r = .ok { emitGrid (augmentMatrix M) r with status := r.status.ok .generated } := by
  simp only [p2dGenRule, h, emitGrid, emit_status]

theorem p2dVerRule_of_error (h : checkMatrix (operand op) = .error e) : p2dVerRule op r = .error e := by
  simp only [p2dVerRule, h]

/-- The mismatch flags and counts P2D.VER reports, whichever way it ends (45_twod_parity.md R225). -/
def withMismatches (M : List (List Bool)) (r : ResultState) : ResultState :=
  { r with
    rmis := r.rmis.writeSeq 0 ((M.map par).map BitVec.ofBool)
    cmis := r.cmis.writeSeq 0 ((columnParities M (ncolsOf M)).map BitVec.ofBool)
    rcnt := BitVec.ofNat 16 (ones (M.map par))
    ccnt := BitVec.ofNat 16 (ones (columnParities M (ncolsOf M))) }

/-- The three ways P2D.VER ends without error (45_twod_parity.md R225). -/
theorem p2dVerRule_cases {M : List (List Bool)} (h : checkMatrix (operand op) = .ok M) :
    let rs := M.map par
    let cs := columnParities M (ncolsOf M)
    ((ones rs = 0 ∧ ones cs = 0) ∧ p2dVerRule op r =
      .ok (emitGrid M { withMismatches M r with status := r.status.ok .clean })) ∨
    ((ones rs = 1 ∧ ones cs = 1) ∧ p2dVerRule op r =
      .ok (emitGrid (flipCell M (rs.idxOf true) (cs.idxOf true)) { withMismatches M r with
        erow := BitVec.ofNat 16 (rs.idxOf true), ecol := BitVec.ofNat 16 (cs.idxOf true)
        status := r.status.ok .corrected })) ∨
    (¬ (ones rs = 0 ∧ ones cs = 0) ∧ ¬ (ones rs = 1 ∧ ones cs = 1) ∧ p2dVerRule op r =
      .ok (emitGrid M { withMismatches M r with status := r.status.uncorrectable .mismatchPattern })) := by
  intro rs cs
  by_cases h0 : ones rs = 0 ∧ ones cs = 0
  · exact .inl ⟨h0, by simp only [p2dVerRule, h]; rw [if_pos h0]; rfl⟩
  by_cases h1 : ones rs = 1 ∧ ones cs = 1
  · exact .inr (.inl ⟨h1, by simp only [p2dVerRule, h]; rw [if_neg h0, if_pos h1]; rfl⟩)
  · exact .inr (.inr ⟨h0, h1, by simp only [p2dVerRule, h]; rw [if_neg h0, if_neg h1]; rfl⟩)

end

end Sys2Proof.Machine
end

section
/-! PROOFS. The part of the invariant that speaks of result state, and that every command establishes it: its buffers
are canonical and hold only valid elements within their capacities (spec/00_scope.md R7; spec/10_state.md R26, R27,
R37 to R39), and `STATUS` keeps its discipline (R31 to R33). -/

namespace Sys2Proof.Machine

/-! ## Buffers with nothing listed from a bound on -/

/-- A canonical buffer whose elements from `n` on read 0. -/
def Memory.Fits {w : Nat} (m : Memory w) (n : Nat) : Prop := m.wf ∧ m.below n

theorem Memory.fits_nil {w n : Nat} : Memory.Fits ([] : Memory w) n := ⟨Memory.wf_nil, by simp⟩

theorem Memory.fits_writeSeq_nil {w n : Nat} {vs : List (BitVec w)} (h : vs.length ≤ n) :
    (Memory.writeSeq [] 0 vs).Fits n :=
  ⟨Memory.writeSeq_wf Memory.wf_nil 0 vs, Memory.writeSeq_below (by simp) 0 vs (by omega)⟩

theorem Memory.fits_write {w n i : Nat} {m : Memory w} (h : m.Fits n) (hi : i < n) (v : BitVec w) :
    (m.write i v).Fits n := by
  refine ⟨Memory.write_wf h.1 i v, fun c hc => ?_⟩
  rcases Memory.write_mem m i v c hc with hm | ⟨rfl, -⟩
  · exact h.2 c hm
  · exact hi

/-! ## The result state's part of the invariant -/

/-- The four result buffers are canonical, list only valid elements, and stay within their capacities
(10_state.md R26, R27, R37 to R39). -/
def ResultState.BuffersFit (p : Params) (r : ResultState) : Prop :=
  (r.obuf.Fits r.olen.toNat ∧ r.olen.toNat ≤ p.omax) ∧
  (r.tbuf.Fits (4 * r.tlen.toNat) ∧ r.tlen.toNat ≤ p.tmax) ∧
  r.rmis.Fits r.nrows.toNat ∧ r.cmis.Fits r.ncols.toNat

/-- What `State.Inv` says of the result state. -/
structure ResultState.Inv (p : Params) (r : ResultState) : Prop where
  buffers : r.BuffersFit p
  disciplined : r.disciplined
  reachable : r.reachable

/-- What `State.Inv` says of the operand state. -/
def OperandState.Fits (p : Params) (op : OperandState) : Prop := op.ibuf.Fits p.imax ∧ op.dbuf.Fits p.dmax

/-- The invariant is one condition on each group of the state (10_state.md R22). -/
theorem State.inv_iff {s : State} : s.Inv ↔ s.params.wf ∧ s.op.Fits s.params ∧ s.res.Inv s.params := by
  constructor
  · rintro ⟨hp, ⟨⟨hi, hd⟩, ho, ht, hr, hc⟩, ⟨⟨bi, bd⟩, ⟨bo, lo⟩, ⟨bt, lt⟩, br, bc⟩, hdis, hreach⟩
    exact ⟨hp, ⟨⟨hi, bi⟩, hd, bd⟩, ⟨⟨⟨ho, bo⟩, lo⟩, ⟨⟨ht, bt⟩, lt⟩, ⟨hr, br⟩, hc, bc⟩, hdis, hreach⟩
  · rintro ⟨hp, ⟨⟨hi, bi⟩, hd, bd⟩, ⟨⟨⟨ho, bo⟩, lo⟩, ⟨⟨ht, bt⟩, lt⟩, ⟨hr, br⟩, hc, bc⟩, hdis, hreach⟩
    exact ⟨hp, ⟨⟨hi, hd⟩, ho, ht, hr, hc⟩, ⟨⟨bi, bd⟩, ⟨bo, lo⟩, ⟨bt, lt⟩, br, bc⟩, hdis, hreach⟩

theorem OperandState.fits_zero (p : Params) : OperandState.zero.Fits p := ⟨Memory.fits_nil, Memory.fits_nil⟩

theorem ResultState.buffersFit_zero (p : Params) : ResultState.zero.BuffersFit p :=
  ⟨⟨Memory.fits_nil, Nat.zero_le _⟩, ⟨Memory.fits_nil, Nat.zero_le _⟩, Memory.fits_nil, Memory.fits_nil⟩

theorem ResultState.inv_zero (p : Params) : ResultState.zero.Inv p :=
  ⟨ResultState.buffersFit_zero p, by decide, by decide⟩

/-- The result state of every error but the unreachable one (60_exceptions.md R252; 40_bitstring.md R105). -/
theorem raised_inv (p : Params) {e : ErrorCode} (h0 : e ≠ .none) (h8 : e ≠ .lengthMismatch) : (raised e).Inv p :=
  ⟨ResultState.buffersFit_zero p, ⟨nofun, fun _ _ => rfl, fun _ h => absurd h h0, by simp [raised, Status.zero]⟩,
    h8, by simp [raised, Status.zero], rfl⟩

/-! ## What a rule that succeeds leaves -/

/-- `STATUS` of the command `i` that ended without error, `DONE` apart: an outcome of its list, and a detail exactly
when it is UNCORRECTABLE, never MULTI_BIT (10_state.md R31 to R33; 42_hamming.md R152). -/
def Status.Ended (i : Instr) (st : Status) : Prop :=
  st.err = .none ∧ st.outcome ∈ outcomesOf i ∧ (st.detail ≠ .none ↔ st.outcome = .uncorrectable) ∧
    st.detail ≠ .multiBit

/-- What the rule of the command `i` leaves when it raises nothing, before `DONE` is set. The buffers' bounds need an
operand in range. -/
structure ResultState.Finished (i : Instr) (op : OperandState) (r : ResultState) : Prop where
  ended : r.status.Ended i
  synd2 : r.synd2 = 0
  buffers : ∀ p : Params, p.wf → op.ilen.toNat ≤ p.imax → r.BuffersFit p

theorem none_notMem_outcomesOf (i : Instr) : OutcomeCode.none ∉ outcomesOf i := by
  cases i <;> simp [outcomesOf]

theorem ResultState.Finished.setDone_inv {i : Instr} {op : OperandState} {r : ResultState} (h : r.Finished i op)
    {p : Params} (hp : p.wf) (hn : op.ilen.toNat ≤ p.imax) : (setDone r).Inv p := by
  obtain ⟨⟨herr, hout, hdet, hmulti⟩, hsynd2, hbuf⟩ := h
  have hne : r.status.outcome ≠ .none := fun h0 => none_notMem_outcomesOf i (h0 ▸ hout)
  refine ⟨hbuf p hp hn, ⟨nofun, fun _ h => absurd herr h, fun _ _ => hne, hdet⟩, ?_, hmulti, hsynd2⟩
  rw [setDone_err, herr]
  decide

section
variable {i : Instr} (r : ResultState)

theorem ended_ok {o : OutcomeCode} (h : o ∈ outcomesOf i) (hu : o ≠ .uncorrectable) :
    ((clearResults r).status.ok o).Ended i :=
  ⟨rfl, h, ⟨fun h => absurd rfl h, fun h => absurd h hu⟩, by simp [Status.ok]⟩

theorem ended_generated (h : outcomesOf i = [.generated]) : ((clearResults r).status.ok .generated).Ended i :=
  ended_ok r (by simp [h]) (by decide)

theorem ended_verdict (h : outcomesOf i = [.clean, .detected]) (b : Bool) :
    ((clearResults r).status.ok (verdict b)).Ended i := by
  cases b
  · exact ended_ok r (o := .detected) (by simp [h]) (by decide)
  · exact ended_ok r (o := .clean) (by simp [h]) (by decide)

theorem ended_uncorrectable (h : .uncorrectable ∈ outcomesOf i) {d : DetailCode} (h0 : d ≠ .none)
    (hm : d ≠ .multiBit) : ((clearResults r).status.uncorrectable d).Ended i :=
  ⟨rfl, h, ⟨fun _ => rfl, fun _ => h0⟩, hm⟩

end

/-! ## `emit`, `trace` and the grid keep the buffers within their bounds -/

section
variable {p : Params} {r : ResultState}

theorem omax_lt_two_pow (hp : p.wf) : p.omax < 2 ^ 16 := by
  have : p.omax = 2 * p.imax + 4 := rfl
  omega

theorem imax_add_two_lt (hp : p.wf) : p.imax + 2 < 2 ^ 16 := by omega

theorem toNat_ofNat_of_le {w n b : Nat} (h : n ≤ b) (hb : b < 2 ^ w) : (BitVec.ofNat w n).toNat = n := by
  rw [BitVec.toNat_ofNat, Nat.mod_eq_of_lt (by omega)]

/-- `emit` into an empty `OBUF` of a string that fits it (00_scope.md R7, R10). -/
theorem ResultState.BuffersFit.emit (h : r.BuffersFit p) (hp : p.wf) (h0 : r.obuf = []) {S : List Symbol}
    (hS : S.length ≤ p.omax) : (emit S r).BuffersFit p := by
  obtain ⟨-, htrace, hflags⟩ := h
  have hlen : (Machine.emit S r).olen.toNat = S.length :=
    toNat_ofNat_of_le hS ((omax_lt_two_pow hp).trans (by decide))
  refine ⟨⟨?_, hlen ▸ hS⟩, htrace, hflags⟩
  rw [hlen, emit_obuf, h0]
  exact Memory.fits_writeSeq_nil (Nat.le_refl _)

/-- A trace into an empty `TBUF` of as many records as fit it (00_scope.md R7, R10). -/
theorem ResultState.BuffersFit.traceAll (h : r.BuffersFit p) (hp : p.wf) (hb : r.tbuf = []) (hl : r.tlen = 0)
    {ts : List TraceRecord} (hts : ts.length ≤ p.tmax) : (traceAll r ts).BuffersFit p := by
  have hcap : ts.length < 2 ^ 16 := hts.trans_lt (Nat.lt_of_le_of_lt (Nat.le_add_right _ 2) (imax_add_two_lt hp))
  have hlen : (Machine.traceAll r ts).tlen.toNat = ts.length := by
    rw [traceAll_tlen, hl]
    exact (congrArg BitVec.toNat (BitVec.zero_add _)).trans
      (toNat_ofNat_of_le (Nat.le_refl _) (hcap.trans (by decide)))
  have hbuf : (Machine.traceAll r ts).tbuf = Memory.writeSeq [] 0 (ts.flatMap TraceRecord.words) := by
    rw [traceAll_tbuf r ts (by rw [hl]; exact (Nat.zero_add _).trans_lt (hcap.trans (by decide))), hb, hl]
    rfl
  obtain ⟨hout, -, hrows, hcols⟩ := h
  refine ⟨?_, ⟨?_, hlen ▸ hts⟩, ?_, ?_⟩
  · rwa [traceAll_obuf, traceAll_olen]
  · rw [hbuf, hlen]
    exact Memory.fits_writeSeq_nil (flatMap_words_length ts).le
  · rwa [traceAll_rmis, traceAll_nrows]
  · rwa [traceAll_cmis, traceAll_ncols]

/-- The grid of `A` into an empty `OBUF`, where the flags hold no more than `A`'s rows and columns
(45_twod_parity.md R222). -/
theorem buffersFit_emitGrid (hp : p.wf) (h0 : r.obuf = [])
    (htrace : r.tbuf.Fits (4 * r.tlen.toNat) ∧ r.tlen.toNat ≤ p.tmax) {A : List (List Bool)}
    (hA : (grid A).length ≤ p.omax) (hrows : r.rmis.Fits A.length) (hcols : r.cmis.Fits (ncolsOf A))
    (hR : A.length ≤ p.imax + 2) (hC : ncolsOf A ≤ p.imax + 2) : (emitGrid A r).BuffersFit p := by
  have hlen : (emitGrid A r).olen.toNat = (grid A).length :=
    toNat_ofNat_of_le hA ((omax_lt_two_pow hp).trans (by decide))
  have hnr : (emitGrid A r).nrows.toNat = A.length := toNat_ofNat_of_le hR (imax_add_two_lt hp)
  have hnc : (emitGrid A r).ncols.toNat = ncolsOf A := toNat_ofNat_of_le hC (imax_add_two_lt hp)
  refine ⟨⟨?_, hlen ▸ hA⟩, htrace, hnr ▸ hrows, hnc ▸ hcols⟩
  rw [hlen, show (emitGrid A r).obuf = r.obuf.writeSeq 0 (grid A) from rfl, h0]
  exact Memory.fits_writeSeq_nil (Nat.le_refl _)

end

/-! ## Every rule -/

/-- What the rule of the command `i` answers: an error of its list (60_exceptions.md R250), or a finished result. -/
def RuleAnswer (i : Instr) (op : OperandState) : Except ErrorCode ResultState → Prop
  | .error e => e ∈ errorsOf i
  | .ok r => r.Finished i op

theorem clearResults_buffersFit (p : Params) (r : ResultState) : (clearResults r).BuffersFit p :=
  ResultState.buffersFit_zero p

section
variable (op : OperandState) (r : ResultState)

theorem parGenRule_answer (m : ParityMode) : RuleAnswer (.parGen m) op (parGenRule m op (clearResults r)) := by
  cases hc : checkBits (operand op) with
  | error e =>
    rw [parGenRule_of_error _ hc]
    exact List.mem_cons_of_mem _ (checkBits_error_mem hc)
  | ok B =>
    rw [parGenRule_of_ok _ hc]
    refine ⟨ended_generated r rfl, rfl, fun p hp hn => (clearResults_buffersFit p r).emit hp rfl ?_⟩
    simp only [List.length_append, operand_length, List.length_singleton, Params.omax]
    omega

theorem parChkRule_answer (m : ParityMode) : RuleAnswer (.parChk m) op (parChkRule m op (clearResults r)) := by
  cases hc : checkBits (operand op) with
  | error e =>
    rw [parChkRule_of_error _ hc]
    exact List.mem_cons_of_mem _ (checkBits_error_mem hc)
  | ok B =>
    rw [parChkRule_of_ok _ hc]
    exact ⟨ended_verdict r rfl _, rfl, fun p hp _ => (clearResults_buffersFit p r).emit hp rfl (Nat.zero_le _)⟩

theorem hamEncRule_answer : RuleAnswer .hamEnc op (hamEncRule op (clearResults r)) := by
  cases hc : checkHamming (operand op) with
  | error e =>
    rw [hamEncRule_of_error _ hc]
    exact List.mem_cons_of_mem _ (checkHamming_error_mem hc)
  | ok D =>
    rw [hamEncRule_of_ok _ hc]
    obtain ⟨-, -, rfl⟩ := checkHamming_ok.1 hc
    have hpc := pcEnc_le (bits (operand op)).length
    refine ⟨ended_generated r rfl, rfl, fun p hp hn => (clearResults_buffersFit p r).emit hp rfl ?_⟩
    simp only [bits_length, operand_length, syms_length, hammingEncode_length, Params.omax] at hpc ⊢
    omega

theorem hamDecRule_answer : RuleAnswer .hamDec op (hamDecRule op (clearResults r)) := by
  cases hc : checkHamming (operand op) with
  | error e =>
    rw [hamDecRule_of_error _ hc]
    exact List.mem_cons_of_mem _ (checkHamming_error_mem hc)
  | ok C =>
    obtain ⟨-, -, hC⟩ := checkHamming_ok.1 hc
    have hfit : ∀ C' : List Bool, C'.length = C.length → ∀ p : Params, op.ilen.toNat ≤ p.imax →
        (syms (extract C')).length ≤ p.omax := fun C' h p hn => by
      have := extract_length_le C'
      rw [h, hC, bits_length, operand_length] at this
      rw [syms_length, Params.omax]
      omega
    rcases hamDecRule_cases (clearResults r) hc with ⟨-, h⟩ | ⟨-, -, h⟩ | ⟨-, h⟩ <;> rw [h]
    · exact ⟨ended_ok r (by decide) (by decide), rfl,
        fun p hp hn => (clearResults_buffersFit p r).emit hp rfl (hfit C rfl p hn)⟩
    · exact ⟨ended_ok r (by decide) (by decide), rfl,
        fun p hp hn => (clearResults_buffersFit p r).emit hp rfl (hfit _ (flipAt_length _ _) p hn)⟩
    · exact ⟨ended_uncorrectable r (by decide) (by decide) (by decide), rfl,
        fun p hp hn => (clearResults_buffersFit p r).emit hp rfl (hfit C rfl p hn)⟩

theorem crcGenRule_answer : RuleAnswer .crcGen op (crcGenRule op (clearResults r)) := by
  cases hc : checkCrc (operand op) (divisor op) with
  | error e =>
    rw [crcGenRule_of_error _ hc]
    exact List.mem_cons_of_mem _ (checkCrc_error_mem hc)
  | ok DG =>
    obtain ⟨hG, hGS, -, -, rfl⟩ := checkCrc_ok.1 hc
    simp only [operand_length, divisor_length] at hG hGS
    obtain ⟨R, recs, hd, hR, hrecs⟩ :=
      crcdiv_ok (Dv := bits (operand op) ++ zeros ((bits (divisor op)).length - 1)) (G := bits (divisor op))
        (by simp; omega) (by simp; omega)
    rw [crcGenRule_of_ok _ hc hd]
    simp only [List.length_append, zeros_length, bits_length, operand_length, divisor_length] at hR hrecs
    refine ⟨ended_generated r rfl, traceAll_synd2 _ _, fun p hp hn =>
      ((clearResults_buffersFit p r).traceAll hp rfl rfl ?_).emit hp (traceAll_obuf _ _) ?_⟩
    · rw [Params.tmax]; omega
    · simp only [List.length_append, operand_length, syms_length, Params.omax]; omega

theorem crcChkRule_answer : RuleAnswer .crcChk op (crcChkRule op (clearResults r)) := by
  cases hc : checkCrc (operand op) (divisor op) with
  | error e =>
    rw [crcChkRule_of_error _ hc]
    exact List.mem_cons_of_mem _ (checkCrc_error_mem hc)
  | ok DG =>
    obtain ⟨hG, hGS, -, -, rfl⟩ := checkCrc_ok.1 hc
    simp only [operand_length, divisor_length] at hG hGS
    obtain ⟨R, recs, hd, hR, hrecs⟩ :=
      crcdiv_ok (Dv := bits (operand op)) (G := bits (divisor op)) (by simp; omega) (by simp; omega)
    rw [crcChkRule_of_ok _ hc hd]
    simp only [bits_length, operand_length, divisor_length] at hR hrecs
    refine ⟨ended_verdict r rfl _, traceAll_synd2 _ _, fun p hp hn =>
      ((clearResults_buffersFit p r).traceAll hp rfl rfl ?_).emit hp (traceAll_obuf _ _) ?_⟩
    · rw [Params.tmax]; omega
    · rw [syms_length, Params.omax]; omega

variable {op}

/-- A checksum command has no more records than the operand has symbols. -/
theorem accumulate_length_le {n : Nat} {Bv : List Nat} (h : checkBytes n (operand op) = .ok Bv) :
    (accumulate 0 Bv).2.length ≤ op.ilen.toNat := by
  obtain ⟨-, hB, -⟩ := checkBytes_ok.1 h
  rw [accumulate_length, bytevals_length hB, ← operand_length]
  exact tokens_length_le _

variable (op)

theorem csumGenRule_answer (v : ChecksumVariant) :
    RuleAnswer (.csumGen v) op (csumGenRule v op (clearResults r)) := by
  cases hc : checkBytes 1 (operand op) with
  | error e =>
    rw [csumGenRule_of_error _ hc]
    rcases checkBytes_error_mem hc with h | ⟨h, -⟩
    · exact List.mem_cons_of_mem _ h
    · omega
  | ok Bv =>
    rw [csumGenRule_of_ok _ hc]
    refine ⟨ended_generated r rfl, traceAll_synd2 _ _, fun p hp hn =>
      ((clearResults_buffersFit p r).traceAll hp rfl rfl ((accumulate_length_le hc).trans hn)).emit hp
        (traceAll_obuf _ _) ?_⟩
    simp only [hex2, List.length_cons, List.length_nil, Params.omax]
    omega

theorem csumVerRule_answer (v : ChecksumVariant) :
    RuleAnswer (.csumVer v) op (csumVerRule v op (clearResults r)) := by
  cases hc : checkBytes 2 (operand op) with
  | error e =>
    rw [csumVerRule_of_error _ hc]
    show e ∈ ErrorCode.bufferRange :: ([ErrorCode.invalidEmpty, .invalidByte] ++ [ErrorCode.tooFewTokens])
    rcases checkBytes_error_mem hc with h | ⟨-, rfl⟩
    · exact List.mem_cons_of_mem _ (List.mem_append_left _ h)
    · decide
  | ok Bv =>
    rw [csumVerRule_of_ok _ hc]
    exact ⟨ended_verdict r rfl _, traceAll_synd2 _ _, fun p hp hn =>
      ((clearResults_buffersFit p r).traceAll hp rfl rfl ((accumulate_length_le hc).trans hn)).emit hp
        (traceAll_obuf _ _) (Nat.zero_le _)⟩

theorem p2dGenRule_answer : RuleAnswer .p2dGen op (p2dGenRule op (clearResults r)) := by
  cases hc : checkMatrix (operand op) with
  | error e =>
    rw [p2dGenRule_of_error _ hc]
    exact List.mem_cons_of_mem _ (checkMatrix_error_mem hc)
  | ok M =>
    rw [p2dGenRule_of_ok _ hc]
    obtain ⟨hM, hsize⟩ := checkMatrix_size hc
    have hpos := List.length_pos_iff.2 hM
    have hcols := ncolsOf_le_sum M
    rw [operand_length] at hsize
    refine ⟨ended_generated r rfl, rfl, fun p hp hn => buffersFit_emitGrid (r := clearResults r) hp rfl
      ⟨Memory.fits_nil, Nat.zero_le _⟩ ?_ Memory.fits_nil Memory.fits_nil ?_ ?_⟩
    · rw [grid_augmentMatrix_length, Params.omax]; omega
    · rw [augmentMatrix_length]; omega
    · rw [augmentMatrix_ncolsOf hM]; omega

/-- The grid of a matrix of the operand's shape, with the mismatch flags, fits the buffers. -/
theorem buffersFit_withMismatches {p : Params} (hp : p.wf) (hn : op.ilen.toNat ≤ p.imax) {M A : List (List Bool)}
    (hc : checkMatrix (operand op) = .ok M) (hA : A.map List.length = M.map List.length) :
    (emitGrid A (withMismatches M (clearResults r))).BuffersFit p := by
  obtain ⟨hM, hsize⟩ := checkMatrix_size hc
  have hcols := ncolsOf_le_sum M
  have hrowsA := length_eq_of_map_length_eq hA
  have hcolsA : ncolsOf A = ncolsOf M := by rw [ncolsOf_eq, ncolsOf_eq, hA]
  rw [operand_length] at hsize
  refine buffersFit_emitGrid hp rfl ⟨Memory.fits_nil, Nat.zero_le _⟩ ?_ (Memory.fits_writeSeq_nil ?_)
    (Memory.fits_writeSeq_nil ?_) ?_ ?_
  · rw [grid_length_of_shape hA, grid_length, Params.omax]; omega
  · simp [hrowsA]
  · simp [hcolsA]
  · rw [hrowsA]; omega
  · rw [hcolsA]; omega

theorem p2dVerRule_answer : RuleAnswer .p2dVer op (p2dVerRule op (clearResults r)) := by
  cases hc : checkMatrix (operand op) with
  | error e =>
    rw [p2dVerRule_of_error _ hc]
    exact List.mem_cons_of_mem _ (checkMatrix_error_mem hc)
  | ok M =>
    rcases p2dVerRule_cases (clearResults r) hc with ⟨-, h⟩ | ⟨-, h⟩ | ⟨-, -, h⟩ <;> rw [h]
    · exact ⟨ended_ok r (by decide) (by decide), rfl,
        fun p hp hn => buffersFit_withMismatches op r hp hn hc rfl⟩
    · exact ⟨ended_ok r (by decide) (by decide), rfl,
        fun p hp hn => buffersFit_withMismatches op r hp hn hc (flipCell_shape M _ _)⟩
    · exact ⟨ended_uncorrectable r (by decide) (by decide) (by decide), rfl,
        fun p hp hn => buffersFit_withMismatches op r hp hn hc rfl⟩

theorem ruleOf_answer (i : Instr) : RuleAnswer i op (ruleOf i op (clearResults r)) := by
  cases i with
  | parGen m => exact parGenRule_answer op r m
  | parChk m => exact parChkRule_answer op r m
  | hamEnc => exact hamEncRule_answer op r
  | hamDec => exact hamDecRule_answer op r
  | crcGen => exact crcGenRule_answer op r
  | crcChk => exact crcChkRule_answer op r
  | csumGen v => exact csumGenRule_answer op r v
  | csumVer v => exact csumVerRule_answer op r v
  | p2dGen => exact p2dGenRule_answer op r
  | p2dVer => exact p2dVerRule_answer op r

end

section
variable {i : Instr} {op : OperandState} {r : ResultState}

/-- A rule raises only the errors its command is listed for (60_exceptions.md R250). -/
theorem ruleOf_error_mem {e : ErrorCode} (h : ruleOf i op (clearResults r) = .error e) : e ∈ errorsOf i := by
  have := ruleOf_answer op r i
  rwa [h] at this

theorem ruleOf_ok_finished {r1 : ResultState} (h : ruleOf i op (clearResults r) = .ok r1) : r1.Finished i op := by
  have := ruleOf_answer op r i
  rwa [h] at this

/-- No command's list names "no error". -/
theorem none_notMem_errorsOf (i : Instr) : ErrorCode.none ∉ errorsOf i := by
  cases i <;> simp [errorsOf]

/-- No command's list names LENGTH_MISMATCH (40_bitstring.md R105). -/
theorem lengthMismatch_notMem_errorsOf (i : Instr) : ErrorCode.lengthMismatch ∉ errorsOf i := by
  cases i <;> simp [errorsOf]

theorem raised_inv_of_mem (p : Params) {e : ErrorCode} (h : e ∈ errorsOf i) : (raised e).Inv p :=
  raised_inv p (fun h0 => none_notMem_errorsOf i (h0 ▸ h)) (fun h8 => lengthMismatch_notMem_errorsOf i (h8 ▸ h))

/-- Every command leaves a result state with the invariant, whatever the operand and the old results are. -/
theorem commandResult_inv {p : Params} (hp : p.wf) (i : Instr) (op : OperandState) (r : ResultState) :
    (commandResult (isCrc i) (ruleOf i) p op r).Inv p := by
  rcases commandResult_cases (isCrc i) (ruleOf i) p op r with ⟨-, h⟩ | ⟨-, e, he, h⟩ | ⟨hr, r1, hok, h⟩ <;> rw [h]
  · exact raised_inv p (by decide) (by decide)
  · exact raised_inv_of_mem p (ruleOf_error_mem he)
  · exact (ruleOf_ok_finished hok).setDone_inv hp (outOfRange_eq_false.1 hr).1

end

end Sys2Proof.Machine
end

section
/-! PROOFS. Every step keeps the invariant: what an access reaches is in the map (spec/20_memory.md R62), and every
write keeps each part of the invariant. With it, the statements O58, O26 and O33. -/

namespace Sys2Proof.Machine

/-- Every location the port finds is in the map (20_memory.md R62). -/
theorem windowElement_mapped {p : Params} {k e : Nat} {l : Loc} (h : windowElement p k e = some l) : l.mapped p := by
  unfold windowElement at h
  split at h
  case h_1 =>
    obtain ⟨r, -, rfl⟩ := Option.map_eq_some_iff.1 h
    trivial
  case h_5 =>
    split_ifs at h with he
    cases h
    exact ⟨he, Nat.mod_lt e (by decide)⟩
  case h_8 => cases h
  all_goals
    split_ifs at h with he
    cases h
    exact he

theorem locate_mapped {p : Params} {width addr : Nat} {l : Loc} (h : locate p width addr = .ok l) : l.mapped p := by
  unfold locate at h
  split_ifs at h
  split at h <;> cases h
  exact windowElement_mapped ‹_›

/-- The invariant speaks of the parameters, the operand state and the result state only. -/
theorem State.Inv.congr {s t : State} (h : s.Inv) (hp : t.params = s.params) (ho : t.op = s.op)
    (hr : t.res = s.res) : t.Inv := by
  rw [State.inv_iff] at h ⊢
  rwa [hp, ho, hr]

theorem applyReset_inv {s : State} (h : s.Inv) : (applyReset s).Inv :=
  State.inv_iff.2 ⟨h.params, OperandState.fits_zero _, ResultState.inv_zero _⟩

/-- A write of any word to `CMD` keeps the invariant: a legal one by its rule, an illegal one as an error. -/
theorem writeCmd_inv {s t : State} {c : Word} (h : s.Inv) (ht : writeCmd c s = .next t) : t.Inv := by
  obtain ⟨hp, hop, -⟩ := State.inv_iff.1 h
  unfold writeCmd at ht
  split at ht
  · next i _ =>
    rw [exec_next ht]
    exact State.inv_iff.2 ⟨hp, hop, commandResult_inv hp i _ _⟩
  · cases ht
    exact State.inv_iff.2 ⟨hp, hop, raised_inv _ (by decide) (by decide)⟩

/-- A write to a location of the map keeps the invariant. -/
theorem writeLoc_inv {s t : State} {l : Loc} {v : Word} (h : s.Inv) (hl : l.mapped s.params)
    (ht : writeLoc l v s = .next t) : t.Inv := by
  obtain ⟨hp, ⟨hi, hd⟩, hres⟩ := State.inv_iff.1 h
  unfold writeLoc at ht
  split at ht
  case h_1 => exact writeCmd_inv h ht
  all_goals cases ht
  case h_2 | h_3 => exact State.inv_iff.2 ⟨hp, ⟨hi, hd⟩, hres⟩
  case h_4 i => exact State.inv_iff.2 ⟨hp, ⟨Memory.fits_write hi hl _, hd⟩, hres⟩
  case h_5 i => exact State.inv_iff.2 ⟨hp, ⟨hi, Memory.fits_write hd hl _⟩, hres⟩
  all_goals exact h

theorem step_inv {s t : State} (h : s.Inv) (ht : step s = .next t) : t.Inv := by
  have hport : ∀ q a, State.Inv { s with pending := q, reply := a } := fun _ _ => h.congr rfl rfl rfl
  rcases step_cases s with ⟨-, hs⟩ | ⟨rest, -, hs⟩ | ⟨_, _, l, rest, -, -, hs⟩ | ⟨_, _, v, l, rest, -, hl, hs⟩ |
      ⟨_, _, _, -, hs⟩ <;>
    rw [hs] at ht
  · cases ht
    exact h
  · cases ht
    exact applyReset_inv (hport rest s.reply)
  · cases ht
    exact hport rest _
  · exact writeLoc_inv (hport rest .ack) (locate_mapped hl) ht
  · cases ht

/-- A command in range whose rule succeeds. -/
theorem exec_of_rule_ok {i : Instr} {s : State} {r1 : ResultState} (hn : s.op.ilen.toNat ≤ s.params.imax)
    (hd : isCrc i = true → s.op.dlen.toNat ≤ s.params.dmax) (h : ruleOf i s.op (clearResults s.res) = .ok r1) :
    exec i s = .next { s with res := setDone r1 } := by
  rw [exec_eq, commandResult_of_ok (outOfRange_eq_false.2 ⟨hn, hd⟩) h]

/-! ## PAR.GEN (41_parity.md R120, R123) -/

/-- The appended bit makes the total 1-count even or odd. -/
theorem ones_add_pbit (B : List Bool) (m : ParityMode) : (ones B + (pbit B m).toNat) % 2 = parityBit m := by
  rcases Nat.mod_two_eq_zero_or_one (ones B) with h | h <;>
    cases m <;> simp [pbit, par, isOdd, parityBit, h, Nat.add_mod]

theorem binaryOperand_isBin {s : State} (h : s.binaryOperand) : ∀ x ∈ operand s.op, isBin x = true :=
  fun x hx => isBin_iff.2 (h x hx)

/-! ## The statements -/

/-- Settles O58: each kind of step keeps each part of the invariant. -/
theorem everyStepKeepsTheInvariant : Obligations.EveryStepKeepsTheInvariant := fun _ _ => step_inv

/-- Settles O26: the bounds are part of what every command establishes (`commandResult_inv`). -/
theorem outputsFitTheirBuffers : Obligations.OutputsFitTheirBuffers := by
  intro i s t hp h
  obtain ⟨⟨⟨-, hout⟩, ⟨-, htrace⟩, -⟩, -, -⟩ := commandResult_inv hp i s.op s.res
  rw [exec_res h]
  exact ⟨hout, htrace⟩

/-- Settles O33: the operand passes its check, and the rule's equation is the whole result. -/
theorem parGenAppendsTheParityBit : Obligations.ParGenAppendsTheParityBit := by
  refine ⟨by decide, fun x => by simp [bitOf, sym1], ?_⟩
  intro m s hp h0 hn hbin
  have hcheck : checkBits (operand s.op) = .ok (bits (operand s.op)) :=
    checkBits_ok.2 ⟨by rwa [operand_length], binaryOperand_isBin hbin, rfl⟩
  have hones : ones (bits (operand s.op)) ≤ s.op.ilen.toNat := by
    simpa using ones_le_length (bits (operand s.op))
  have hlen : (operand s.op ++ [sym (pbit (bits (operand s.op)) m)]).length < 2 ^ 32 := by
    rw [List.length_append, operand_length, List.length_singleton]
    omega
  have hexec := exec_of_rule_ok (i := .parGen m) hn nofun (parGenRule_of_ok (clearResults s.res) hcheck)
  refine ⟨_, pbit (bits (operand s.op)) m, hexec, ?_⟩
  exact ⟨holdsOutput_emit (clearResults_obuf s.res) _ hlen, ones_add_pbit _ m,
    toNat_ofNat_of_le hones s.op.ilen.isLt, BitVec.toNat_ofBool _, rfl⟩

end Sys2Proof.Machine
end

section
/-! PROOFS. The address map read both ways (spec/20_memory.md R60, R62), and what a write through the port does:
the location it reaches, what it leaves unchanged, and what every other location then reads (R64, R65). -/

namespace Sys2Proof.Machine

/-! ## The address map (20_memory.md R62) -/

/-- An element's location stands at the element's offset in its window. -/
theorem windowElement_off {p : Params} {k e : Nat} {l : Loc} (h : windowElement p k e = some l) :
    l.off = 0x40000 * k + 4 * e := by
  unfold windowElement at h
  split at h
  case h_1 =>
    obtain ⟨r, hr, rfl⟩ := Option.map_eq_some_iff.1 h
    obtain ⟨he, rfl⟩ := List.getElem?_eq_some_iff.1 hr
    have htable : ∀ e : Fin 24, (regTable[e]).off = 0x40000 * 0 + 4 * e := by decide
    exact htable ⟨e, he⟩
  case h_5 =>
    split_ifs at h
    cases h
    simp only [Loc.off]
    omega
  case h_8 => cases h
  all_goals
    split_ifs at h
    cases h
    rfl

/-- The location at an offset, from its window and its index there. -/
theorem locAt_window (p : Params) {k e : Nat} (he : e < 0x10000) :
    locAt p (0x40000 * k + 4 * e) = windowElement p k e := by
  rw [locAt, show (0x40000 * k + 4 * e) / 0x40000 = k by omega,
    show (0x40000 * k + 4 * e) % 0x40000 / 4 = e by omega]

/-- Every location of the map is found at its offset. -/
theorem locAt_off {p : Params} {l : Loc} (hp : p.wf) (hl : l.mapped p) : locAt p l.off = some l := by
  have homax : p.omax = 2 * p.imax + 4 := rfl
  cases l with
  | reg r => cases r <;> rfl
  | ibuf i => exact (locAt_window p (k := 1) (e := i) (by omega)).trans (if_pos hl)
  | dbuf i => exact (locAt_window p (k := 2) (e := i) (by omega)).trans (if_pos hl)
  | obuf i => exact (locAt_window p (k := 3) (e := i) (by omega)).trans (if_pos hl)
  | tbuf j w =>
    obtain ⟨hj, hw⟩ := hl
    have hj' : j < p.imax := hj
    have hq : (4 * j + w) / 4 = j := by omega
    have hr : (4 * j + w) % 4 = w := by omega
    rw [show (Loc.tbuf j w).off = 0x40000 * 4 + 4 * (4 * j + w) by simp only [Loc.off]; omega,
      locAt_window p (by omega)]
    simp only [windowElement, hq, hr, if_pos hj]
  | rmis i => exact (locAt_window p (k := 5) (e := i) (by omega)).trans (if_pos hl)
  | cmis i => exact (locAt_window p (k := 6) (e := i) (by omega)).trans (if_pos hl)

theorem base_mod_four {p : Params} (hp : p.wf) : p.base % 4 = 0 := by
  obtain ⟨-, -, -, -, hbase⟩ := hp
  change p.base % 0x200000 = 0 at hbase
  omega

/-- An access reaches `l` only as a 32-bit access to the address of `l`. -/
theorem locate_ok {p : Params} {width addr : Nat} {l : Loc} (hp : p.wf) (h : locate p width addr = .ok l) :
    width = 32 ∧ addr = p.base + l.off := by
  have hbase := base_mod_four hp
  unfold locate at h
  split_ifs at h
  split at h <;> cases h
  have hoff := windowElement_off ‹_›
  exact ⟨by omega, by omega⟩

/-- A 32-bit access to the address of a location of the map reaches it. -/
theorem locate_off {p : Params} {l : Loc} (hp : p.wf) (hl : l.mapped p) : locate p 32 (p.base + l.off) = .ok l := by
  have hbase := base_mod_four hp
  have hoff : l.off % 4 = 0 := by
    have := windowElement_off (locAt_off hp hl)
    omega
  rw [locate, if_neg (by decide), if_neg (by omega), if_neg (by omega), Nat.add_sub_cancel_left, locAt_off hp hl]

/-- A step whose next access writes a location of the map is that write. -/
theorem step_write {s : State} {l : Loc} {v : Word} {rest : List HostAction} (hp : s.params.wf)
    (hl : l.mapped s.params) (h : s.pending = memWrite s.params l v :: rest) :
    step s = writeLoc l v { s with pending := rest, reply := .ack } := by
  rw [step_action h]
  simp only [performAction, memWrite, locate_off hp hl]

/-! ## What a write leaves unchanged (10_state.md R22) -/

theorem writeCmd_of_ok {c : Word} {i : Instr} (s : State) (h : decode c = .ok i) :
    writeCmd c s = exec i { s with cmd := c } := by simp only [writeCmd, h]

theorem writeCmd_of_error {c : Word} {e : IllegalReason} (s : State) (h : decode c = .error e) :
    writeCmd c s = .next { s with cmd := c, res := raised .illegalCommand } := by
  simp only [writeCmd, h]
  rfl

/-- Every command ends with `DONE`. -/
theorem commandResult_done (d : Bool) (rule : Rule) (p : Params) (op : OperandState) (r : ResultState) :
    (commandResult d rule p op r).status.done = true := by
  rcases commandResult_cases d rule p op r with ⟨-, h⟩ | ⟨-, e, -, h⟩ | ⟨-, r1, -, h⟩ <;> rw [h] <;> rfl

/-- A write of any word to `CMD` ends with `DONE`. -/
theorem writeCmd_done {c : Word} {s t : State} (h : writeCmd c s = .next t) : t.res.status.done = true := by
  cases hc : decode c with
  | error e =>
    rw [writeCmd_of_error s hc] at h
    cases h
    rfl
  | ok i =>
    rw [writeCmd_of_ok s hc] at h
    rw [exec_res h]
    exact commandResult_done _ _ _ _ _

section
variable {s t : State} {l : Loc} {v : Word}

theorem isOperand_iff : l.isOperand = true ↔
    l = .reg .ilen ∨ l = .reg .dlen ∨ (∃ i, l = .ibuf i) ∨ ∃ i, l = .dbuf i := by
  cases l with
  | reg r => cases r <;> simp [Loc.isOperand]
  | _ => simp [Loc.isOperand]

/-- Only a write to `CMD` changes `CMD` or a result. -/
theorem writeLoc_keeps_results (h : writeLoc l v s = .next t) (hl : l ≠ .reg .cmd) :
    t.cmd = s.cmd ∧ t.res = s.res := by
  unfold writeLoc at h
  split at h
  case h_1 => exact absurd rfl hl
  all_goals
    cases h
    exact ⟨rfl, rfl⟩

/-- Only a write to a location of the operand state changes it. -/
theorem writeLoc_keeps_operand (h : writeLoc l v s = .next t) (hl : l.isOperand = false) : t.op = s.op := by
  unfold writeLoc at h
  split at h
  case h_1 =>
    obtain ⟨u, hu, hus⟩ := writeCmd_next v s
    rw [hu] at h
    cases h
    rw [hus]
  case h_2 | h_3 | h_4 | h_5 => cases hl
  all_goals
    cases h
    rfl

theorem writeLoc_params (h : writeLoc l v s = .next t) : t.params = s.params := by
  obtain ⟨u, hu, hparams, -⟩ := writeLoc_next l v s
  rw [hu] at h
  cases h
  exact hparams

/-- No step changes the parameters. -/
theorem step_params (h : step s = .next t) : t.params = s.params := by
  rcases step_cases s with ⟨-, hs⟩ | ⟨rest, -, hs⟩ | ⟨_, _, l, rest, -, -, hs⟩ | ⟨_, _, v, l, rest, -, -, hs⟩ |
      ⟨_, _, _, -, hs⟩ <;>
    rw [hs] at h
  · cases h
    rfl
  · cases h
    rfl
  · cases h
    rfl
  · exact (writeLoc_params h :)
  · cases h

/-- What a step that ends in a next state can do to the operand state, `CMD` and the results: nothing, a reset, or
a write to a location of the map. -/
theorem step_next_cases (hp : s.params.wf) (h : step s = .next t) :
    (t.op = s.op ∧ t.cmd = s.cmd ∧ t.res = s.res) ∨
    (∃ rest, s.pending = .reset :: rest) ∨
    ∃ l v rest, l.mapped s.params ∧ s.pending = memWrite s.params l v :: rest ∧
      writeLoc l v { s with pending := rest, reply := .ack } = .next t := by
  rcases step_cases s with ⟨-, hs⟩ | ⟨rest, hpend, -⟩ | ⟨_, _, l, rest, -, -, hs⟩ |
      ⟨_, _, v, l, rest, hpend, hloc, hs⟩ | ⟨_, _, _, -, hs⟩
  · cases hs.symm.trans h
    exact .inl ⟨rfl, rfl, rfl⟩
  · exact .inr (.inl ⟨rest, hpend⟩)
  · cases hs.symm.trans h
    exact .inl ⟨rfl, rfl, rfl⟩
  · obtain ⟨rfl, rfl⟩ := locate_ok hp hloc
    exact .inr (.inr ⟨l, v, rest, locate_mapped hloc, hpend, hs.symm.trans h⟩)
  · cases hs.symm.trans h

end

/-! ## The words a read returns (10_state.md R24, R25, R31, R34 to R36) -/

theorem toNat_append_eq {m n : Nat} (x : BitVec m) (y : BitVec n) :
    (x ++ y).toNat = x.toNat * 2 ^ n + y.toNat := by
  rw [BitVec.toNat_append, ← Nat.shiftLeft_add_eq_or_of_lt y.isLt, Nat.shiftLeft_eq]

theorem capWord_toNat {p : Params} (hp : p.wf) : (capWord p).toNat = p.dmax * 2 ^ 16 + p.imax := by
  simp only [capWord, toNat_append_eq, BitVec.toNat_ofNat]
  omega

/-- A word cut to its low `n` bits and read back as a word is the word under the mask of `n` ones. -/
theorem setWidth_setWidth_eq_and {n : Nat} (hn : n ≤ 32) (v : Word) :
    (v.setWidth n).setWidth 32 = v &&& BitVec.ofNat 32 (2 ^ n - 1) := by
  have hpow : 2 ^ n ≤ 2 ^ 32 := Nat.pow_le_pow_right (by decide) hn
  have hpos : 0 < 2 ^ n := Nat.two_pow_pos n
  refine BitVec.eq_of_toNat_eq ?_
  rw [BitVec.toNat_and, BitVec.toNat_ofNat, Nat.mod_eq_of_lt (by omega), Nat.and_two_pow_sub_one_eq_mod,
    BitVec.toNat_setWidth, BitVec.toNat_setWidth, Nat.mod_eq_of_lt ((Nat.mod_lt _ hpos).trans_le hpow)]

theorem statusWord_toNat (st : Status) : (statusWord st).toNat =
    2 ^ 12 * st.detail.code.toNat + 2 ^ 8 * st.outcome.code.toNat + 2 ^ 4 * st.err.code.toNat + st.done.toNat := by
  simp only [statusWord, toNat_append_eq, BitVec.toNat_ofBool, BitVec.toNat_ofNat]
  omega

/-! ## What a write leaves to read (20_memory.md R65) -/

theorem Memory.read_write_same {w : Nat} {m : Memory w} (h : m.wf) (i : Nat) (v : BitVec w) :
    (m.write i v).read i = v := (Memory.read_write h i v i).trans (if_pos rfl)

section
variable {s t : State} {l l' : Loc} {v : Word}

/-- Outside the operand state a read depends on the parameters, `CMD` and the result state only. -/
theorem readLoc_congr (hl : l.isOperand = false) (hp : t.params = s.params) (hc : t.cmd = s.cmd)
    (hr : t.res = s.res) : readLoc t l = readLoc s l := by
  obtain ⟨p, c, o, r, q, a⟩ := s
  obtain ⟨p', c', o', r', q', a'⟩ := t
  cases hp
  cases hc
  cases hr
  cases l with
  | reg x =>
    cases x
    case ilen | dlen => cases hl
    all_goals rfl
  | ibuf i | dbuf i => cases hl
  | obuf i | tbuf j w | rmis i | cmis i => rfl

/-- A write to a location of the operand state leaves what every other location reads. -/
theorem readLoc_writeLoc_of_ne (hc : s.canonical) (hl : l.isOperand = true) (h : writeLoc l v s = .next t)
    (hne : l' ≠ l) : readLoc t l' = readLoc s l' := by
  obtain ⟨⟨hi, hd⟩, -⟩ := hc
  cases hl' : l'.isOperand with
  | false =>
    have hcmd : l ≠ .reg .cmd := by
      rintro rfl
      cases hl
    obtain ⟨hcm, hres⟩ := writeLoc_keeps_results h hcmd
    exact readLoc_congr hl' (writeLoc_params h) hcm hres
  | true =>
    rcases isOperand_iff.1 hl with rfl | rfl | ⟨i, rfl⟩ | ⟨i, rfl⟩ <;> cases h
    · rcases isOperand_iff.1 hl' with rfl | rfl | ⟨k, rfl⟩ | ⟨k, rfl⟩
      case inl => exact absurd rfl hne
      all_goals rfl
    · rcases isOperand_iff.1 hl' with rfl | rfl | ⟨k, rfl⟩ | ⟨k, rfl⟩
      case inr.inl => exact absurd rfl hne
      all_goals rfl
    · rcases isOperand_iff.1 hl' with rfl | rfl | ⟨k, rfl⟩ | ⟨k, rfl⟩
      case inr.inr.inl => simp only [readLoc, Memory.read_write hi, if_neg (fun e => hne (congrArg Loc.ibuf e))]
      all_goals rfl
    · rcases isOperand_iff.1 hl' with rfl | rfl | ⟨k, rfl⟩ | ⟨k, rfl⟩
      case inr.inr.inr => simp only [readLoc, Memory.read_write hd, if_neg (fun e => hne (congrArg Loc.dbuf e))]
      all_goals rfl

end

/-! ## The statements -/

/-- Settles O8: a step that changes operand state wrote one of its locations, and one that changes a result or `CMD`
wrote `CMD`, unless it applied reset; a write to `CMD` leaves `DONE` set. -/
theorem onlyTheRightAccessChangesState : Obligations.OnlyTheRightAccessChangesState := by
  intro s t hp h
  rcases step_next_cases hp h with ⟨hop, hcmd, hres⟩ | hreset | ⟨l, v, rest, hl, hpend, hw⟩
  · rw [hop, hcmd, hres]
    exact ⟨fun hne => absurd rfl hne, fun hne => hne.elim (absurd rfl) (absurd rfl),
      fun h1 h0 => absurd (h1.symm.trans h0) (by decide)⟩
  · exact ⟨fun _ => .inl hreset, fun _ => .inl hreset, fun _ _ => hreset⟩
  · refine ⟨fun hne => .inr ⟨l, v, rest, hl, ?_, hpend⟩, ?_⟩
    · exact Bool.of_not_eq_false fun hl => hne (writeLoc_keeps_operand hw hl :)
    by_cases hcmd : l = .reg .cmd
    · subst hcmd
      exact ⟨fun _ => .inr ⟨v, rest, hpend⟩, fun _ h0 => absurd ((writeCmd_done hw).symm.trans h0) (by decide)⟩
    · obtain ⟨hc, hr⟩ := writeLoc_keeps_results hw hcmd
      rw [hc, hr]
      exact ⟨fun hne => hne.elim (absurd rfl) (absurd rfl), fun h1 h0 => absurd (h1.symm.trans h0) (by decide)⟩

/-- Settles O9: a step changes no parameter, and `CAP` is read from the parameters. -/
theorem capIsAConstant : Obligations.CapIsAConstant := by
  refine ⟨rfl, fun s hp => ?_, fun s t h => congrArg capWord (step_params h), fun s h => ?_⟩
  · have hcap : (readLoc s (.reg .cap)).toNat = s.params.dmax * 2 ^ 16 + s.params.imax := capWord_toNat hp
    refine ⟨?_, ?_, BitVec.eq_of_toNat_eq ?_⟩ <;>
      rw [BitVec.extractLsb'_toNat, hcap, Nat.shiftRight_eq_div_pow]
    · omega
    · omega
    · rw [Nat.div_eq_of_lt (by omega)]
      rfl
  · rw [show readLoc s (.reg .cap) = capWord s.params from rfl, h]
    decide

/-- Settles O14: the written location reads the low bits of its word, and `readLoc_writeLoc_of_ne` is the rest. -/
theorem operandWriteChangesOnlyItsLocation : Obligations.OperandWriteChangesOnlyItsLocation := by
  intro s rest l v hp hc hl hop hpend
  obtain ⟨t, ht, -⟩ := writeLoc_next l v { s with pending := rest, reply := .ack }
  refine ⟨t, (step_write hp hl hpend).trans ht, ?_, ?_, fun l' hne => ?_⟩
  · rintro (rfl | rfl) <;> cases ht <;> exact setWidth_setWidth_eq_and (n := 16) (by decide) v
  · have hmask : (v.setWidth 8).setWidth 32 = v &&& 0x000000FF := setWidth_setWidth_eq_and (by decide) v
    rintro ⟨i, rfl | rfl⟩ <;> cases ht
    · simpa only [readLoc, Memory.read_write_same hc.1.1] using hmask
    · simpa only [readLoc, Memory.read_write_same hc.1.2] using hmask
  · exact readLoc_writeLoc_of_ne (s := { s with pending := rest, reply := .ack }) hc hop ht hne

/-- Settles O5: the write reaches `CMD`, and the word stored there decodes to `i`. -/
theorem stepRunsTheDecodedCommand : Obligations.StepRunsTheDecodedCommand := by
  intro s rest w i hp hpend hw
  exact (step_write hp trivial hpend).trans (writeCmd_of_ok _ hw)

/-- Settles O6: the fields of the reset state are 0 and its buffers list nothing. -/
theorem resetStateReadsZero : Obligations.ResetStateReadsZero := by
  refine ⟨fun p hp => ⟨fun r hr => ?_, capWord_toNat hp, fun _ _ => ⟨rfl, rfl, rfl, rfl, rfl, rfl⟩⟩, rfl⟩
  cases r
  case cap => exact absurd rfl hr
  case status => exact (by decide : statusWord Status.zero = 0)
  all_goals rfl

/-- Settles O59: nothing is listed in a reset buffer, and the reset result state is disciplined. -/
theorem resetHasTheInvariant : Obligations.ResetHasTheInvariant := by
  have hreset (p : Params) (hp : p.wf) : (State.resetWith p).Inv :=
    State.inv_iff.2 ⟨hp, OperandState.fits_zero p, ResultState.inv_zero p⟩
  exact ⟨hreset _ (by decide), hreset⟩

/-- Settles O15: each field is one piece of the word's number (`statusWord_toNat`). -/
theorem statusWordLayout : Obligations.StatusWordLayout := by
  refine ⟨fun s => ?_, by decide, by decide, by decide⟩
  have hw : (readLoc s (.reg .status)).toNat = _ := statusWord_toNat s.res.status
  have hdone := s.res.status.done.toNat_lt
  have herr := s.res.status.err.code.isLt
  have hout := s.res.status.outcome.code.isLt
  have hdet := s.res.status.detail.code.isLt
  refine ⟨?_, ?_, ?_, ?_, ?_, ?_⟩ <;> refine BitVec.eq_of_toNat_eq ?_ <;>
    rw [BitVec.extractLsb'_toNat, hw, Nat.shiftRight_eq_div_pow]
  · rw [BitVec.toNat_ofBool]
    omega
  · change _ = 0
    omega
  · omega
  · omega
  · omega
  · change _ = 0
    omega

end Sys2Proof.Machine
end

section
/-! PROOFS. What a command's results depend on (spec/10_state.md R23, R25, R36), what a command leaves at 0 (R26 to
R28, R39; spec/60_exceptions.md R261), and how it ends (10_state.md R32, R33). -/

namespace Sys2Proof.Machine

/-! ## A rule reads the two operand strings only (10_state.md R23, R25, R36) -/

section
variable {i : Instr} {a b : OperandState}

theorem ruleOf_congr (ho : operand a = operand b) (hd : isCrc i = true → divisor a = divisor b) (r : ResultState) :
    ruleOf i a r = ruleOf i b r := by
  cases i with
  | parGen m => simp only [ruleOf, parGenRule, ho]
  | parChk m => simp only [ruleOf, parChkRule, ho]
  | hamEnc => simp only [ruleOf, hamEncRule, ho]
  | hamDec => simp only [ruleOf, hamDecRule, ho]
  | crcGen => simp only [ruleOf, crcGenRule, ho, hd rfl]
  | crcChk => simp only [ruleOf, crcChkRule, ho, hd rfl]
  | csumGen v => simp only [ruleOf, csumGenRule, ho]
  | csumVer v => simp only [ruleOf, csumVerRule, ho]
  | p2dGen => simp only [ruleOf, p2dGenRule, ho]
  | p2dVer => simp only [ruleOf, p2dVerRule, ho]

theorem outOfRange_congr {d : Bool} {p : Params} (hn : a.ilen = b.ilen) (hd : d = true → a.dlen = b.dlen) :
    outOfRange d p a = outOfRange d p b := by
  cases d with
  | false => simp only [outOfRange, hn, Bool.false_and]
  | true => simp only [outOfRange, hn, hd rfl]

end

/-! ## A rule does not read `DONE`, the one bit that clearing keeps (60_exceptions.md R251) -/

theorem traceAll_setDone (r : ResultState) (ts : List TraceRecord) :
    traceAll (setDone r) ts = setDone (traceAll r ts) := by
  induction ts generalizing r with
  | nil => rfl
  | cons t ts ih => exact ih (trace r t)

/-- `DONE` set before a rule or after it gives the same. -/
theorem ruleOf_setDone (i : Instr) (op : OperandState) (r : ResultState) :
    ruleOf i op (setDone r) = (ruleOf i op r).map setDone := by
  cases i with
  | parGen m => simp only [ruleOf, parGenRule]; split <;> rfl
  | parChk m => simp only [ruleOf, parChkRule]; split <;> rfl
  | hamEnc => simp only [ruleOf, hamEncRule]; split <;> rfl
  | hamDec =>
    simp only [ruleOf, hamDecRule]
    split
    · rfl
    · split_ifs <;> rfl
  | crcGen =>
    simp only [ruleOf, crcGenRule, traceAll_setDone]
    split
    · rfl
    · split <;> rfl
  | crcChk =>
    simp only [ruleOf, crcChkRule, traceAll_setDone]
    split
    · rfl
    · split <;> rfl
  | csumGen v => simp only [ruleOf, csumGenRule, traceAll_setDone]; split <;> rfl
  | csumVer v => simp only [ruleOf, csumVerRule, traceAll_setDone]; split <;> rfl
  | p2dGen => simp only [ruleOf, p2dGenRule]; split <;> rfl
  | p2dVer =>
    simp only [ruleOf, p2dVerRule]
    split
    · rfl
    · split_ifs <;> rfl

/-- Two result states are cleared to the same but for `DONE`. -/
theorem setDone_clearResults (r r' : ResultState) : setDone (clearResults r) = setDone (clearResults r') := rfl

/-- The result state of a legal command is a function of the command, the two lengths and the two operand strings,
the divisor's only for a CRC command (10_state.md R23, R25, R36). -/
theorem commandResult_congr {i : Instr} {p : Params} {a b : OperandState} (r r' : ResultState)
    (hn : a.ilen = b.ilen) (ho : operand a = operand b)
    (hd : isCrc i = true → a.dlen = b.dlen ∧ divisor a = divisor b) :
    commandResult (isCrc i) (ruleOf i) p a r = commandResult (isCrc i) (ruleOf i) p b r' := by
  have hrange := outOfRange_congr (p := p) hn (fun h => (hd h).1)
  have hrule : (ruleOf i a (clearResults r)).map setDone = (ruleOf i b (clearResults r')).map setDone := by
    rw [← ruleOf_setDone, ← ruleOf_setDone, setDone_clearResults r r', ruleOf_congr ho (fun h => (hd h).2)]
  simp only [commandResult, hrange, raise_clearResults]
  split
  · rfl
  · cases h : ruleOf i a (clearResults r) <;> cases h' : ruleOf i b (clearResults r') <;> rw [h, h'] at hrule
    · cases hrule
      rfl
    · cases hrule
    · cases hrule
    · exact Except.ok.inj hrule

/-! ## What a command leaves at 0 (10_state.md R26 to R28, R39) -/

/-- The result state with every field at 0 that the command `i` is not listed for (10_state.md R28, R37 to R39). -/
def ResultState.listed (r : ResultState) : Instr → ResultState
  | .parGen _ => { ResultState.zero with
      status := r.status, olen := r.olen, obuf := r.obuf, ones := r.ones, pbit := r.pbit }
  | .parChk _ => { ResultState.zero with status := r.status, ones := r.ones, pbit := r.pbit, rbit := r.rbit }
  | .hamEnc => { ResultState.zero with status := r.status, olen := r.olen, obuf := r.obuf, npar := r.npar }
  | .hamDec => { ResultState.zero with
      status := r.status, olen := r.olen, obuf := r.obuf, npar := r.npar, synd := r.synd, synd2 := r.synd2,
      epos := r.epos }
  | .crcGen | .crcChk => { ResultState.zero with
      status := r.status, olen := r.olen, obuf := r.obuf, tlen := r.tlen, tbuf := r.tbuf, rlen := r.rlen }
  | .csumGen _ => { ResultState.zero with
      status := r.status, olen := r.olen, obuf := r.obuf, tlen := r.tlen, tbuf := r.tbuf, sum := r.sum,
      fsum := r.fsum, csum := r.csum }
  | .csumVer _ => { ResultState.zero with
      status := r.status, tlen := r.tlen, tbuf := r.tbuf, sum := r.sum, fsum := r.fsum, csum := r.csum }
  | .p2dGen => { ResultState.zero with
      status := r.status, olen := r.olen, obuf := r.obuf, nrows := r.nrows, ncols := r.ncols }
  | .p2dVer => { ResultState.zero with
      status := r.status, olen := r.olen, obuf := r.obuf, nrows := r.nrows, ncols := r.ncols, rcnt := r.rcnt,
      ccnt := r.ccnt, erow := r.erow, ecol := r.ecol, rmis := r.rmis, cmis := r.cmis }

/-- A trace writes `TLEN` and `TBUF` only. -/
theorem traceAll_eq (r : ResultState) (ts : List TraceRecord) :
    traceAll r ts = { r with tlen := (traceAll r ts).tlen, tbuf := (traceAll r ts).tbuf } := by
  induction ts generalizing r with
  | nil => rfl
  | cons t ts ih => exact ih (trace r t)

/-- A rule that succeeds on cleared results writes only what its command is listed for. -/
theorem ruleOf_ok_listed {i : Instr} {op : OperandState} {r r1 : ResultState}
    (h : ruleOf i op (clearResults r) = .ok r1) : r1 = r1.listed i := by
  cases i with
  | parGen m => simp only [ruleOf, parGenRule] at h; split at h <;> cases h; rfl
  | parChk m => simp only [ruleOf, parChkRule] at h; split at h <;> cases h; rfl
  | hamEnc => simp only [ruleOf, hamEncRule] at h; split at h <;> cases h; rfl
  | hamDec =>
    simp only [ruleOf, hamDecRule] at h
    split at h
    · cases h
    · split_ifs at h <;> cases h <;> rfl
  | crcGen =>
    simp only [ruleOf, crcGenRule] at h
    split at h
    · cases h
    · split at h <;> cases h
      rw [traceAll_eq]
      rfl
  | crcChk =>
    simp only [ruleOf, crcChkRule] at h
    split at h
    · cases h
    · split at h <;> cases h
      rw [traceAll_eq]
      rfl
  | csumGen v => simp only [ruleOf, csumGenRule] at h; split at h <;> cases h; rw [traceAll_eq]; rfl
  | csumVer v => simp only [ruleOf, csumVerRule] at h; split at h <;> cases h; rw [traceAll_eq]; rfl
  | p2dGen => simp only [ruleOf, p2dGenRule] at h; split at h <;> cases h; rfl
  | p2dVer =>
    simp only [ruleOf, p2dVerRule] at h
    split at h
    · cases h
    · split_ifs at h <;> cases h <;> rfl

/-- A command leaves only what it is listed for, also where it ends in an error. -/
theorem commandResult_listed (i : Instr) (p : Params) (op : OperandState) (r : ResultState) :
    ∃ r1 : ResultState, commandResult (isCrc i) (ruleOf i) p op r = r1.listed i := by
  rcases commandResult_cases (isCrc i) (ruleOf i) p op r with ⟨-, h⟩ | ⟨-, e, -, h⟩ | ⟨-, r1, hok, h⟩
  · exact ⟨raised .bufferRange, h.trans (by cases i <;> rfl)⟩
  · exact ⟨raised e, h.trans (by cases i <;> rfl)⟩
  · refine ⟨setDone r1, h.trans ?_⟩
    rw [ruleOf_ok_listed hok]
    cases i <;> rfl

/-- A result register is in the command's list, or a field of the zero result state. -/
theorem listed_reads_zero {i : Instr} {x : Reg} {s : State} (r : ResultState) (hx : x ∈ resultRegs)
    (hw : x ∉ writtenRegs i) : readLoc { s with res := r.listed i } (.reg x) = 0 := by
  cases i <;> fin_cases hx <;> simp [writtenRegs] at hw <;> rfl

/-! ## How a command ends (10_state.md R32, R33) -/

theorem bufferRange_mem_errorsOf (i : Instr) : ErrorCode.bufferRange ∈ errorsOf i := by
  cases i <;> exact List.mem_cons_self

/-- A command ends in an error of its list, or as a rule that succeeded. -/
theorem commandResult_ends (i : Instr) (p : Params) (op : OperandState) (r : ResultState) :
    (∃ e ∈ errorsOf i, commandResult (isCrc i) (ruleOf i) p op r = raised e) ∨
    ∃ r1 : ResultState, r1.Finished i op ∧ commandResult (isCrc i) (ruleOf i) p op r = setDone r1 := by
  rcases commandResult_cases (isCrc i) (ruleOf i) p op r with ⟨-, h⟩ | ⟨-, e, he, h⟩ | ⟨-, r1, hok, h⟩
  · exact .inl ⟨_, bufferRange_mem_errorsOf i, h⟩
  · exact .inl ⟨e, ruleOf_error_mem he, h⟩
  · exact .inr ⟨r1, ruleOf_ok_finished hok, h⟩

/-! ## The statements -/

/-- Settles O18: an illegal word leaves one result state, and a legal one what `commandResult_congr` says. -/
theorem resultsDependOnCommandAndOperandOnly : Obligations.ResultsDependOnCommandAndOperandOnly := by
  intro w s s' hp hn hd hi hg
  cases hw : decode w with
  | error e => exact ⟨_, _, writeCmd_of_error s hw, writeCmd_of_error s' hw, rfl⟩
  | ok i =>
    refine ⟨_, _, (writeCmd_of_ok s hw).trans (exec_eq i _), (writeCmd_of_ok s' hw).trans (exec_eq i _), ?_⟩
    change commandResult _ _ s.params s.op s.res = commandResult _ _ s'.params s'.op s'.res
    rw [hp]
    exact commandResult_congr _ _ hn (operand_congr hn hi) fun _ => ⟨hd, divisor_congr hd hg⟩

/-- Settles O19: the results of a command that is no CRC command are a function of `ILEN` and the operand string. -/
theorem divisorAffectsCrcOnly : Obligations.DivisorAffectsCrcOnly := by
  intro i s d m hi
  refine ⟨_, _, exec_eq i s, exec_eq i _, commandResult_congr _ _ rfl rfl fun h => ?_⟩
  rw [hi] at h
  cases h

/-- Settles O20: what a command is not listed for is at 0 in `commandResult_listed`. -/
theorem unlistedResultsReadZero : Obligations.UnlistedResultsReadZero := by
  intro i s t h
  obtain ⟨r1, hr⟩ := commandResult_listed i s.params s.op s.res
  rw [exec_next h, hr]
  refine ⟨fun x hx hw => ?_, fun ho => ?_, fun ht => ?_, fun hv => ?_⟩
  · exact listed_reads_zero r1 hx hw
  · cases i <;> cases ho <;> exact ⟨rfl, fun _ => rfl⟩
  · cases i <;> cases ht <;> exact ⟨rfl, fun _ => rfl⟩
  · cases i
    case p2dVer => exact absurd rfl hv
    all_goals exact ⟨fun _ => rfl, fun _ => rfl⟩

/-- Settles O22: an error leaves no outcome, and a rule that succeeds ends as its command is listed for. -/
theorem exactlyOneOutcome : Obligations.ExactlyOneOutcome := by
  intro i s t h
  rw [exec_res h]
  rcases commandResult_ends i s.params s.op s.res with ⟨e, he, hr⟩ | ⟨r1, ⟨⟨herr, hout, hdet, -⟩, -, -⟩, hr⟩ <;>
    rw [hr]
  · exact ⟨fun _ => ⟨rfl, rfl⟩, fun h0 => absurd (h0 ▸ he) (none_notMem_errorsOf i),
      by simp [raised, Status.zero]⟩
  · exact ⟨fun hne => absurd herr hne, fun _ => hout, hdet⟩

end Sys2Proof.Machine
end

section
/-! PROOFS. The windows and the trace of a CRC division (spec/43_crc.md R172; spec/10_state.md R38), and what CRC.GEN
and CRC.CHK leave (R175, R176). -/

namespace Sys2Proof.Machine

/-! ## The value of a window (10_state.md R38) -/

theorem bitsValue_lt (W : List Bool) : bitsValue W < 2 ^ W.length := by
  induction W with
  | nil => simp [bitsValue]
  | cons b W ih =>
    have hb : b.toNat * 2 ^ W.length ≤ 1 * 2 ^ W.length := Nat.mul_le_mul_right _ (Bool.toNat_le b)
    rw [bitsValue, List.length_cons, Nat.pow_succ]
    omega

/-- Bit by bit from the left, or as a sum of powers: one value. -/
theorem windowValue_eq_bitsValue (W : List Bool) : windowValue W = bitsValue W := by
  have hfold : ∀ (W : List Bool) (v : Nat),
      W.foldl (fun v b => 2 * v + b.toNat) v = v * 2 ^ W.length + bitsValue W := by
    intro W
    induction W with
    | nil => simp [bitsValue]
    | cons b W ih =>
      intro v
      rw [List.foldl_cons, ih, bitsValue, List.length_cons, Nat.pow_succ]
      ring
  rw [windowValue, hfold, Nat.zero_mul, Nat.zero_add]

/-- `SEL` is bit 1 of the flags, `INV` bit 2 and `INB` bit 3. -/
theorem crcRecord_flags (W : List Bool) (sel : Bool) (shifted : Option Bool) :
    (crcRecord W sel shifted).flags.toNat =
      2 * sel.toNat + (if shifted.isSome then 4 + 8 * (shifted.getD false).toNat else 0) := by
  simp only [crcRecord, toNat_append_eq, BitVec.toNat_ofBool, BitVec.toNat_ofNat]
  cases shifted with
  | none => simp [Nat.mul_comm]
  | some d =>
    simp
    omega

/-- `VHI:VLO` holds the value of a window of at most 64 bits. -/
theorem crcRecord_value {W : List Bool} (hW : W.length ≤ 64) (sel : Bool) (shifted : Option Bool) :
    (crcRecord W sel shifted).vlo.toNat + 2 ^ 32 * (crcRecord W sel shifted).vhi.toNat = bitsValue W := by
  have hlt : bitsValue W < 2 ^ 64 := (bitsValue_lt W).trans_le (Nat.pow_le_pow_right (by decide) hW)
  simp only [crcRecord, windowValue_eq_bitsValue, BitVec.toNat_ofNat, Nat.shiftRight_eq_div_pow]
  omega

/-! ## The windows of a division (43_crc.md R172) -/

/-- On a window as long as the divisor, the XOR with the selected row is `xorRow`. -/
theorem zipWith_crcRow {W G : List Bool} (hW : W.length = G.length) :
    List.zipWith xor W (crcRow (W.headD false) G) = xorRow W G := by
  cases hsel : W.headD false with
  | true => simp only [crcRow, xorRow, hsel, if_true]
  | false =>
    simp only [crcRow, xorRow, hsel, Bool.false_eq_true, if_false, zeros, ← hW]
    refine List.ext_getElem (by simp) fun i _ _ => by simp

theorem xorRow_length {W G : List Bool} (hW : W.length = G.length) : (xorRow W G).length = G.length := by
  rw [← zipWith_crcRow hW, List.length_zipWith, crcRow_length, hW, Nat.min_self]

/-- Window `j` of the division by `G` that starts with the window `W` and shifts in the bits `pending`. -/
def crcWindow (G : List Bool) : List Bool → List Bool → Nat → List Bool
  | W, _, 0 => W
  | W, pending, j + 1 => crcWindow G ((xorRow W G).tail ++ [pending.headD false]) pending.tail j

/-- Each window is the one before after its XOR, shifted by one bit. -/
theorem crcWindow_succ (G W pending : List Bool) (j : Nat) :
    crcWindow G W pending (j + 1) = (xorRow (crcWindow G W pending j) G).tail ++ [pending.getD j false] := by
  induction j generalizing W pending with
  | zero => cases pending <;> rfl
  | succ j ih =>
    rw [crcWindow, ih]
    cases pending <;> rfl

theorem crcWindow_length {G W : List Bool} (hW : W.length = G.length) (hG : 1 ≤ G.length) (pending : List Bool)
    (j : Nat) : (crcWindow G W pending j).length = G.length := by
  induction j with
  | zero => exact hW
  | succ j ih =>
    rw [crcWindow_succ, List.length_append, List.length_tail, xorRow_length ih, List.length_singleton]
    omega

/-- The record of window `j`: its leading bit selects the row, and bit `j` of those to come is shifted in. -/
def crcWindowRecord (G W pending : List Bool) (j : Nat) : TraceRecord :=
  crcRecord (crcWindow G W pending j) ((crcWindow G W pending j).headD false) pending[j]?

/-- The `xor` of a step on a window as long as the divisor. -/
theorem xorBits_crcRow {W G : List Bool} (hW : W.length = G.length) :
    xorBits W (crcRow (W.headD false) G) = .ok (xorRow W G) := by
  rw [xorBits_of_length_eq (by rw [hW, crcRow_length]), zipWith_crcRow hW]

/-- The steps of R172 in closed form: the last window after its XOR without its leading bit, and the records of all
windows in order. -/
theorem crcSteps_eq {G W : List Bool} (hW : W.length = G.length) (hG : 1 ≤ G.length) (pending : List Bool) :
    crcSteps G W pending = .ok ((xorRow (crcWindow G W pending pending.length) G).tail,
      (List.range (pending.length + 1)).map (crcWindowRecord G W pending)) := by
  induction pending generalizing W with
  | nil =>
    simp only [crcSteps, xorBits_crcRow hW]
    rfl
  | cons d pending ih =>
    have hnext : ((xorRow W G).tail ++ [d]).length = G.length := crcWindow_length hW hG (d :: pending) 1
    simp only [crcSteps, xorBits_crcRow hW, ih hnext]
    rw [List.length_cons, List.range_succ_eq_map (n := pending.length + 1), List.map_cons, List.map_map]
    rfl

/-- The trace of a division is that of its windows (43_crc.md R172; 10_state.md R38). -/
theorem crcdiv_divisionTrace {Dv G R : List Bool} {recs : List TraceRecord} (hG : 1 ≤ G.length)
    (h64 : G.length ≤ 64) (hD : G.length ≤ Dv.length) (h : crcdiv Dv G = .ok (R, recs)) : divisionTrace Dv G R recs := by
  have hW : (Dv.take G.length).length = G.length := by simp [hD]
  have hpend : (Dv.drop G.length).length = Dv.length - G.length := List.length_drop
  have hnext : ∀ j, (Dv.drop G.length).getD j false = Dv.getD (G.length + j) false := by
    simp [List.getD_eq_getElem?_getD]
  rw [crcdiv, crcSteps_eq hW hG, hpend] at h
  cases h
  refine ⟨crcWindow G (Dv.take G.length) (Dv.drop G.length), rfl, fun j _ => ?_, rfl, by simp, fun j hj => ?_⟩
  · rw [crcWindow_succ, hnext]
  · refine ⟨crcWindowRecord G (Dv.take G.length) (Dv.drop G.length) j, ?_, ?_, ?_, rfl⟩
    · rw [List.getElem?_map, List.getElem?_range (by omega)]
      rfl
    · rw [crcWindowRecord, crcRecord_flags, ← List.getD_eq_getElem?_getD, hnext]
      simp only [isSome_getElem?, hpend]
    · exact crcRecord_value (by rwa [crcWindow_length hW hG]) _ _

/-- A division of at least `k` bits by `1 <= k <= 64` bits: its remainder, its records, and what they report. -/
theorem crcdiv_spec {Dv G : List Bool} (hG : 1 ≤ G.length) (h64 : G.length ≤ 64) (hD : G.length ≤ Dv.length) :
    ∃ R recs, crcdiv Dv G = .ok (R, recs) ∧ divisionTrace Dv G R recs ∧ R.length = G.length - 1 ∧
      recs.length = Dv.length - G.length + 1 := by
  obtain ⟨R, recs, h, hR, hrecs⟩ := crcdiv_ok hG hD
  exact ⟨R, recs, h, crcdiv_divisionTrace hG h64 hD h, hR, hrecs⟩

/-! ## CRC.GEN and CRC.CHK (43_crc.md R171, R175, R176) -/

/-- What the conditions of R171 say of the operand check. -/
theorem checkCrc_of_binary {s : State} (hb : s.binaryOperand) (hg : s.binaryDivisor) (h2 : 2 ≤ s.op.dlen.toNat)
    (hlt : s.op.dlen.toNat < s.op.ilen.toNat) :
    checkCrc (operand s.op) (divisor s.op) = .ok (bits (operand s.op), bits (divisor s.op)) :=
  checkCrc_ok.2 ⟨by rwa [divisor_length], by rwa [divisor_length, operand_length], binaryOperand_isBin hb,
    fun x hx => isBin_iff.2 (hg x hx), rfl⟩

/-- `RLEN` holds the remainder's length. -/
theorem rlen_toNat (op : OperandState) :
    (BitVec.ofNat 16 ((bits (divisor op)).length - 1)).toNat = op.dlen.toNat - 1 := by
  rw [bits_length, divisor_length]
  exact toNat_ofNat_of_le (Nat.sub_le _ _) op.dlen.isLt

theorem verdict_ones (R : List Bool) :
    verdict (ones R == 0) = if true ∈ R then OutcomeCode.detected else .clean := by
  by_cases h : true ∈ R
  · have h0 : ones R ≠ 0 := fun h0 => List.count_eq_zero.1 h0 h
    rw [if_pos h, beq_false_of_ne h0]
    rfl
  · rw [if_neg h, show ones R = 0 from List.count_eq_zero.2 h]
    rfl

/-! ## The statements -/

/-- Settles O45: the rule's equation is the whole result, and the trace is that of the windows (`crcdiv_spec`). -/
theorem crcGenEmitsDataAndRemainder : Obligations.CrcGenEmitsDataAndRemainder := by
  intro s hp hn hd hb hg h2 hlt
  obtain ⟨R, recs, hdiv, htrace, hR, hrecs⟩ :=
    crcdiv_spec (Dv := bits (operand s.op) ++ zeros ((bits (divisor s.op)).length - 1)) (G := bits (divisor s.op))
      (by simp; omega) (by simp; omega) (by simp; omega)
  have hexec := exec_of_rule_ok (i := .crcGen) hn (fun _ => hd)
    (crcGenRule_of_ok (clearResults s.res) (checkCrc_of_binary hb hg h2 hlt) hdiv)
  simp only [List.length_append, zeros_length, bits_length, operand_length, divisor_length] at hdiv htrace hR hrecs
  have hlen : (operand s.op ++ syms R).length < 2 ^ 32 := by
    rw [List.length_append, operand_length, syms_length]
    omega
  refine ⟨_, R, recs, hexec, htrace, hdiv, hR, by omega, holdsOutput_emit (traceAll_obuf _ _) _ hlen,
    holdsTrace_traceAll rfl rfl recs (by omega), rlen_toNat s.op, ?_⟩
  rw [traceAll_eq]
  rfl

/-- Settles O46: as for CRC.GEN, with the received word itself as the dividend. -/
theorem crcChkReportsTheRemainder : Obligations.CrcChkReportsTheRemainder := by
  intro s hp hn hd hb hg h2 hlt
  obtain ⟨R, recs, hdiv, htrace, hR, hrecs⟩ :=
    crcdiv_spec (Dv := bits (operand s.op)) (G := bits (divisor s.op))
      (by simp; omega) (by simp; omega) (by simp; omega)
  have hexec := exec_of_rule_ok (i := .crcChk) hn (fun _ => hd)
    (crcChkRule_of_ok (clearResults s.res) (checkCrc_of_binary hb hg h2 hlt) hdiv)
  simp only [bits_length, operand_length, divisor_length] at hR hrecs
  have hlen : (syms R).length < 2 ^ 32 := by
    rw [syms_length]
    omega
  refine ⟨_, R, recs, hexec, htrace, hdiv, hR, hrecs, holdsOutput_emit (traceAll_obuf _ _) _ hlen,
    holdsTrace_traceAll rfl rfl recs (by omega), rlen_toNat s.op, ?_⟩
  rw [traceAll_eq, verdict_ones]
  rfl

end Sys2Proof.Machine
end

section
/-! PROOFS. What the port does with the host's next access (spec/20_memory.md): it performs it exactly when it is in
contract (R60 to R63, R67), a read changes nothing (R65), a write to a read-only location neither (R64), and a safe
state performs every access that waits (R68). With it, the statements O10 to O13 and O60. -/

namespace Sys2Proof.Machine

/-! ## The accesses in contract (20_memory.md R60 to R63, R67) -/

/-- The port's search is the inverse of the address map. -/
theorem locate_eq_ok_iff {p : Params} (hp : p.wf) {width addr : Nat} {l : Loc} :
    locate p width addr = .ok l ↔ width = 32 ∧ l.mapped p ∧ addr = p.base + l.off := by
  constructor
  · intro h
    obtain ⟨hwidth, haddr⟩ := locate_ok hp h
    exact ⟨hwidth, locate_mapped h, haddr⟩
  · rintro ⟨rfl, hl, rfl⟩
    exact locate_off hp hl

section
variable {s : State} {a : HostAction} {rest : List HostAction}

/-- An action in contract ends in a next state, and takes nothing off the host's list. -/
theorem performAction_of_inContract (hp : s.params.wf) (ha : a.inContract s.params) :
    ∃ t, performAction a s = .next t ∧ t.pending = s.pending := by
  cases a with
  | reset => exact ⟨_, rfl, rfl⟩
  | read width addr =>
    obtain ⟨rfl, l, hl, rfl⟩ := ha
    exact ⟨{ s with reply := .data (readLoc s l) }, by simp only [performAction, locate_off hp hl], rfl⟩
  | write width addr v =>
    obtain ⟨rfl, l, hl, rfl⟩ := ha
    obtain ⟨t, ht, -, hpend, -⟩ := writeLoc_next l v { s with reply := .ack }
    exact ⟨t, by simp only [performAction, locate_off hp hl, ht], hpend⟩

/-- An action is answered with an access error, or it is in contract. -/
theorem performAction_refused_or_inContract (hp : s.params.wf) (a : HostAction) :
    (∃ e, performAction a s = .refused (.accessError e)) ∨ a.inContract s.params := by
  cases a with
  | reset => exact .inr trivial
  | read width addr | write width addr =>
    cases h : locate s.params width addr with
    | error e => exact .inl ⟨e, by simp only [performAction, h]⟩
    | ok l =>
      obtain ⟨hwidth, hl, haddr⟩ := (locate_eq_ok_iff hp).1 h
      exact .inr ⟨hwidth, l, hl, haddr⟩

/-- A step whose next access is in contract performs it. -/
theorem step_of_inContract (hp : s.params.wf) (h : s.pending = a :: rest) (ha : a.inContract s.params) :
    ∃ t, step s = .next t ∧ t.pending = rest := by
  rw [step_action h]
  exact performAction_of_inContract (s := { s with pending := rest }) hp ha

/-- A step from a safe state with an access waiting performs it and ends in a safe state. -/
theorem State.Safe.step (hs : s.Safe) (h : s.pending = a :: rest) :
    ∃ t, Machine.step s = .next t ∧ t.pending = rest ∧ t.Safe := by
  have hcontract : ∀ b ∈ a :: rest, b.inContract s.params := h ▸ hs.contract
  obtain ⟨t, ht, hpend⟩ := step_of_inContract hs.inv.params h (hcontract a List.mem_cons_self)
  refine ⟨t, ht, hpend, step_inv hs.inv ht, fun b hb => ?_⟩
  rw [step_params ht]
  exact hcontract b (List.mem_cons_of_mem a (hpend ▸ hb))

/-! ## Reads, and writes that are ignored (20_memory.md R64, R65) -/

/-- A step whose next access reads a location of the map answers with the word it holds. -/
theorem step_read {l : Loc} (hp : s.params.wf) (hl : l.mapped s.params) (h : s.pending = memRead s.params l :: rest) :
    step s = .next { s with pending := rest, reply := .data (readLoc { s with pending := rest } l) } := by
  rw [step_action h]
  simp only [performAction, memRead, locate_off hp hl]

/-- What a location holds does not depend on the port. -/
theorem readLoc_pending (s : State) (q : List HostAction) (l : Loc) :
    readLoc { s with pending := q } l = readLoc s l := by
  cases l with
  | reg r => cases r <;> rfl
  | _ => rfl

theorem writeLoc_of_not_writable {l : Loc} (hl : l.writable = false) (v : Word) (s : State) :
    writeLoc l v s = .next s := by
  unfold writeLoc
  split
  case h_1 | h_2 | h_3 | h_4 | h_5 => cases hl
  all_goals rfl

end

/-! ## The statements -/

/-- Settles O10: `locate` is the inverse of the address map (`locate_eq_ok_iff`). -/
theorem addressMapLocates : Obligations.AddressMapLocates := fun _ _ _ _ hp => locate_eq_ok_iff hp

/-- Settles O11: an action in contract ends in a next state, and any other one has no location. -/
theorem accessRefusedExactlyOutOfContract : Obligations.AccessRefusedExactlyOutOfContract := by
  intro s a rest hp hpend
  constructor
  · rintro ⟨e, he⟩ ha
    obtain ⟨t, ht, -⟩ := step_of_inContract hp hpend ha
    rw [ht] at he
    cases he
  · intro ha
    rw [step_action hpend]
    exact (performAction_refused_or_inContract (s := { s with pending := rest }) hp a).resolve_right ha

/-- Settles O60, by induction on the accesses that wait: each step performs one and ends in a safe state. -/
theorem safeRunsComplete : Obligations.SafeRunsComplete := by
  intro s hs
  induction hpend : s.pending generalizing s with
  | nil => exact ⟨s, rfl, hpend, hs.inv⟩
  | cons a rest ih =>
    obtain ⟨t, ht, htpend, htsafe⟩ := hs.step hpend
    obtain ⟨u, hu, hupend, huinv⟩ := ih t htsafe htpend
    exact ⟨u, (run_succ_of_next ht).trans hu, hupend, huinv⟩

/-- Settles O12: the step is the answer (`step_read`), and a field narrower than the word keeps its number. -/
theorem readsHaveNoSideEffect : Obligations.ReadsHaveNoSideEffect := by
  refine ⟨fun s rest l hp hl hpend => ?_, fun s => ?_⟩
  · rw [step_read hp hl hpend, readLoc_pending]
  · have wide {n : Nat} (x : BitVec n) (hn : n ≤ 32 := by decide) : (x.setWidth 32).toNat = x.toNat :=
      BitVec.toNat_setWidth_of_le hn
    exact ⟨rfl, wide _, wide _, rfl, rfl, wide _, wide _, wide _, wide _, wide _, wide _, wide _, wide _, rfl,
      wide _, wide _, wide _, wide _, wide _, wide _, wide _, wide _, fun _ => wide _, fun _ => wide _,
      fun _ => wide _, fun _ _ => rfl, fun _ => wide _, fun _ => wide _⟩

/-- Settles O13: the write reaches the location, which ignores it. -/
theorem readOnlyWritesAreIgnored : Obligations.ReadOnlyWritesAreIgnored := by
  intro s rest l v hp hl hro hpend
  rw [step_write hp hl hpend, writeLoc_of_not_writable hro]

end Sys2Proof.Machine
end

section
/-! PROOFS. The command word and its decoder (spec/30_encoding.md R80 to R86): a word is its three fields, the decoder
answers from them, and it inverts the encoder. With it, the statements O1 to O4. -/

namespace Sys2Proof

/-- A word is its three fields one after another (30_encoding.md R80). -/
theorem append_fields_eq (w : Word) : (rsvOf w ++ modeOf w) ++ opcOf w = w := by
  rw [rsvOf, modeOf, opcOf, BitVec.extractLsb'_append_extractLsb'_eq_extractLsb' (show 5 = 4 + 1 from rfl),
    BitVec.extractLsb'_append_extractLsb'_eq_extractLsb' (show 4 = 0 + 4 from rfl)]
  exact BitVec.extractLsb'_eq_self

/-- Every command's word decodes to it. -/
theorem decode_encode (i : Instr) : decode (encode i) = .ok i := by
  have h : Laws.Encoding.Statement i := by
    cases i with
    | parGen m => exact Laws.Encoding.parGen m
    | parChk m => exact Laws.Encoding.parChk m
    | hamEnc => exact Laws.Encoding.hamEnc
    | hamDec => exact Laws.Encoding.hamDec
    | crcGen => exact Laws.Encoding.crcGen
    | crcChk => exact Laws.Encoding.crcChk
    | csumGen v => exact Laws.Encoding.csumGen v
    | csumVer v => exact Laws.Encoding.csumVer v
    | p2dGen => exact Laws.Encoding.p2dGen
    | p2dVer => exact Laws.Encoding.p2dVer
  obtain ⟨-, -, hdecode⟩ := h
  exact hdecode

/-- A word with `RSV` 0 is looked up in the opcode map. -/
theorem decode_of_rsv_zero {w : Word} (h : rsvOf w = 0) : decode w = decodeOpc (opcOf w).toNat (modeOf w) :=
  if_neg (not_not.2 h)

theorem decode_of_rsv_ne_zero {w : Word} (h : rsvOf w ≠ 0) : decode w = .error .reservedBits := if_pos h

/-- The opcode map answers with a command only at that command's own `OPC` and `MODE` (30_encoding.md R82, R83). -/
theorem fields_of_decodeOpc {o : BitVec 4} {m : BitVec 1} {i : Instr} (h : decodeOpc o.toNat m = .ok i) :
    o = opcEnc i ∧ m = modeEnc i := by
  have htable : ∀ (o : BitVec 4) (m : BitVec 1),
      (decodeOpc o.toNat m).toOption.all (fun i => o = opcEnc i ∧ m = modeEnc i) = true := by decide
  simpa [h, Except.toOption] using htable o m

/-- A word that decodes to a command is the command's word. -/
theorem eq_encode_of_decode {w : Word} {i : Instr} (h : decode w = .ok i) : w = encode i := by
  by_cases hrsv : rsvOf w = 0
  · rw [decode_of_rsv_zero hrsv] at h
    obtain ⟨hopc, hmode⟩ := fields_of_decodeOpc h
    calc w = (rsvOf w ++ modeOf w) ++ opcOf w := (append_fields_eq w).symm
      _ = encode i := by rw [hrsv, hmode, hopc, encode]; rfl
  · rw [decode_of_rsv_ne_zero hrsv] at h
    cases h

/-- The opcode map has no command exactly at an unassigned `OPC` and at a stray `MODE` (30_encoding.md R85). -/
theorem decodeOpc_error_iff (o : BitVec 4) (m : BitVec 1) : (∃ r, decodeOpc o.toNat m = .error r) ↔
    o ∈ [0x0#4, 0x1#4, 0xC#4, 0xD#4, 0xE#4, 0xF#4] ∨
      (m = 1 ∧ o ∈ [0x4#4, 0x5#4, 0x6#4, 0x7#4, 0xA#4, 0xB#4]) := by
  have htable : ∀ (o : BitVec 4) (m : BitVec 1), (decodeOpc o.toNat m).isOk = false ↔
      o ∈ [0x0#4, 0x1#4, 0xC#4, 0xD#4, 0xE#4, 0xF#4] ∨
        (m = 1 ∧ o ∈ [0x4#4, 0x5#4, 0x6#4, 0x7#4, 0xA#4, 0xB#4]) := by decide
  rw [← htable]
  cases decodeOpc o.toNat m <;> simp [Except.isOk, Except.toBool]

/-- The three conditions under which a word is illegal (30_encoding.md R85). -/
theorem decode_error_iff (w : Word) : (∃ r, decode w = .error r) ↔
    (rsvOf w ≠ 0 ∨ opcOf w ∈ [0x0#4, 0x1#4, 0xC#4, 0xD#4, 0xE#4, 0xF#4] ∨
      (modeOf w = 1 ∧ opcOf w ∈ [0x4#4, 0x5#4, 0x6#4, 0x7#4, 0xA#4, 0xB#4])) := by
  by_cases hrsv : rsvOf w = 0
  · rw [decode_of_rsv_zero hrsv, decodeOpc_error_iff]
    exact ⟨.inr, fun h => h.resolve_left (absurd hrsv)⟩
  · rw [decode_of_rsv_ne_zero hrsv]
    exact ⟨fun _ => .inl hrsv, fun _ => ⟨_, rfl⟩⟩

/-! ## The statements -/

/-- Settles O1: the decoder gives back what was encoded, and the fields it answers from make up the word. -/
theorem decodeIsExactlyEncode : Obligations.DecodeIsExactlyEncode := by
  intro w i
  refine ⟨eq_encode_of_decode, ?_⟩
  rintro rfl
  exact decode_encode i

/-- Settles O2: the table lists every command beside its word, and a word that decodes is a command's word. -/
theorem legalWordsAreTheFourteen : Obligations.LegalWordsAreTheFourteen := by
  unfold Obligations.LegalWordsAreTheFourteen
  intro table
  refine ⟨by decide, fun w hw => ?_⟩
  have hlisted (i : Instr) : encode i ∈ table.map Prod.fst := by
    cases i with
    | parGen m | parChk m => cases m <;> decide
    | csumGen v | csumVer v => cases v <;> decide
    | _ => decide
  cases h : decode w with
  | error r => exact ⟨r, rfl⟩
  | ok i => exact absurd (eq_encode_of_decode h ▸ hlisted i) hw

/-- Settles O3: the decoder computes each answer. -/
theorem writtenWordsDecode : Obligations.WrittenWordsDecode := by
  unfold Obligations.WrittenWordsDecode
  decide

/-- Settles O4: `decode_error_iff`, and the write reaches `CMD`, where an illegal word raises ILLEGAL_COMMAND. -/
theorem illegalWordEndsInIllegalCommand : Obligations.IllegalWordEndsInIllegalCommand := by
  refine ⟨decode_error_iff, fun s rest w r hp hpend hw => ?_⟩
  exact (Machine.step_write hp trivial hpend).trans (Machine.writeCmd_of_error _ hw)

end Sys2Proof
end

section
/-! PROOFS. What the accesses of a pseudo-operation do, performed one after another (spec/30_encoding.md R88), and what
a program of operations does (R92). With it, the statement O16. -/

namespace Sys2Proof.Machine

/-! ## One access to the operand state (20_memory.md R65) -/

/-- What a write to a location of the operand state leaves there; a write to any other location leaves it alone. -/
def OperandState.put (op : OperandState) (l : Loc) (v : Word) : OperandState :=
  match l with
  | .reg .ilen => { op with ilen := v.setWidth 16 }
  | .reg .dlen => { op with dlen := v.setWidth 16 }
  | .ibuf i => { op with ibuf := op.ibuf.write i (v.setWidth 8) }
  | .dbuf i => { op with dbuf := op.dbuf.write i (v.setWidth 8) }
  | _ => op

theorem writeLoc_of_isOperand {l : Loc} (hl : l.isOperand = true) (v : Word) (s : State) :
    writeLoc l v s = .next { s with op := s.op.put l v } := by
  rcases isOperand_iff.1 hl with rfl | rfl | ⟨i, rfl⟩ | ⟨i, rfl⟩ <;> rfl

section
variable {s : State} {l : Loc} (hp : s.params.wf) (hl : l.mapped s.params)
include hp hl

theorem performAction_memRead :
    performAction (memRead s.params l) s = .next { s with reply := .data (readLoc s l) } := by
  simp only [performAction, memRead, locate_off hp hl]

theorem performAction_memWrite (ho : l.isOperand = true) (v : Word) :
    performAction (memWrite s.params l v) s = .next { s with op := s.op.put l v, reply := .ack } := by
  simp only [performAction, memWrite, locate_off hp hl, writeLoc_of_isOperand ho]

theorem performAll_memWrite_cons (ho : l.isOperand = true) (v : Word) (as : List HostAction) :
    performAll (memWrite s.params l v :: as) s = performAll as { s with op := s.op.put l v, reply := .ack } := by
  simp only [performAll, performAction_memWrite hp hl ho]

/-- A read changes the answer only, and the write after it replaces the answer. -/
theorem performAll_memRead_memWrite (l' : Loc) (v : Word) (as : List HostAction) :
    performAll (memRead s.params l :: memWrite s.params l' v :: as) s =
      performAll (memWrite s.params l' v :: as) s := by
  simp only [performAll, performAction_memRead hp hl]
  rfl

end

/-! ## A text in a buffer (30_encoding.md R88) -/

/-- The operand state with the text `t` put from index `k` on, one element after another. -/
def OperandState.putText (op : OperandState) (place : Nat → Loc) (k : Nat) : List Symbol → OperandState
  | [] => op
  | x :: t => (op.put (place k) (x.setWidth 32)).putText place (k + 1) t

theorem setWidth_symbol (x : Symbol) : (x.setWidth 32).setWidth 8 = x :=
  BitVec.setWidth_setWidth_of_le x (by decide)

theorem putText_ibuf (op : OperandState) (k : Nat) (t : List Symbol) :
    op.putText .ibuf k t = { op with ibuf := op.ibuf.writeSeq k t } := by
  induction t generalizing op k with
  | nil => rfl
  | cons x t ih =>
    rw [OperandState.putText, ih, OperandState.put, setWidth_symbol]
    rfl

theorem putText_dbuf (op : OperandState) (k : Nat) (t : List Symbol) :
    op.putText .dbuf k t = { op with dbuf := op.dbuf.writeSeq k t } := by
  induction t generalizing op k with
  | nil => rfl
  | cons x t ih =>
    rw [OperandState.putText, ih, OperandState.put, setWidth_symbol]
    rfl

/-- The writes of a text from index `k` on, and then the write of `v` to `l`, leave just those two in the state. -/
theorem performAll_text {s : State} {place : Nat → Loc} {l : Loc} (hp : s.params.wf)
    (ho : ∀ j, (place j).isOperand = true) (hl : l.mapped s.params) (hlo : l.isOperand = true) (v : Word)
    (t : List Symbol) (k : Nat) (hm : ∀ j < k + t.length, (place j).mapped s.params) :
    performAll ((t.zipIdx k).map (fun c => memWrite s.params (place c.2) (c.1.setWidth 32)) ++
        [memWrite s.params l v]) s =
      .next { s with op := (s.op.putText place k t).put l v, reply := .ack } := by
  induction t generalizing s k with
  | nil => exact performAll_memWrite_cons hp hl hlo v []
  | cons x t ih =>
    rw [List.length_cons] at hm
    rw [List.zipIdx_cons, List.map_cons, List.cons_append, performAll_memWrite_cons hp (hm k (by omega)) (ho k)]
    exact ih (s := { s with op := s.op.put (place k) (x.setWidth 32), reply := .ack }) hp hl (k + 1)
      fun j hj => hm j (by omega)

/-- A text written from index 0 on is read back. -/
theorem Memory.take_writeSeq_of_wf {w : Nat} {m : Memory w} (h : m.wf) (t : List (BitVec w)) :
    (m.writeSeq 0 t).take t.length = t := by
  refine List.ext_getElem (by simp) fun i _ hi => ?_
  simp only [Memory.take, List.getElem_map, List.getElem_range]
  rw [Memory.read_writeSeq h, if_pos (by omega), Nat.sub_zero, List.getD_eq_getElem _ _ hi]

/-- A text written from index 0 on leaves the elements beyond it. -/
theorem Memory.read_writeSeq_beyond {w : Nat} {m : Memory w} (h : m.wf) {t : List (BitVec w)} {k : Nat}
    (hk : t.length ≤ k) : (m.writeSeq 0 t).read k = m.read k := by
  rw [Memory.read_writeSeq h, if_neg (by omega)]

theorem length_toNat {n : Nat} (h : n < 2 ^ 16) : ((BitVec.ofNat 32 n).setWidth 16).toNat = n := by
  rw [BitVec.toNat_setWidth, BitVec.toNat_ofNat]
  omega

section
variable {s : State} {t : List Symbol}

/-- The accesses of `LDI "t"` make `t` the operand string and leave all else. -/
theorem performAll_loadOperand (hp : s.params.wf) (hc : s.canonical) (ht : t.length ≤ s.params.imax) :
    ∃ u, performAll (loadText s.params .ibuf t ++ [memWrite s.params (.reg .ilen) (BitVec.ofNat 32 t.length)]) s =
        .next u ∧
      operand u.op = t ∧ (∀ k, t.length ≤ k → u.op.ibuf.read k = s.op.ibuf.read k) ∧
      u = { s with op := { s.op with ilen := u.op.ilen, ibuf := u.op.ibuf }, reply := .ack } := by
  obtain ⟨⟨hi, -⟩, -⟩ := hc
  refine ⟨_, performAll_text hp (fun _ => rfl) trivial rfl _ t 0 fun j hj => ?_, ?_⟩
  · change j < s.params.imax
    omega
  · rw [putText_ibuf]
    refine ⟨?_, fun k hk => Memory.read_writeSeq_beyond hi hk, rfl⟩
    simp only [operand, OperandState.put, length_toNat (show t.length < 2 ^ 16 by omega),
      Memory.take_writeSeq_of_wf hi]

/-- The accesses of `LDD "t"` make `t` the divisor string and leave all else. -/
theorem performAll_loadDivisor (hp : s.params.wf) (hc : s.canonical) (ht : t.length ≤ s.params.dmax) :
    ∃ u, performAll (loadText s.params .dbuf t ++ [memWrite s.params (.reg .dlen) (BitVec.ofNat 32 t.length)]) s =
        .next u ∧
      divisor u.op = t ∧ (∀ k, t.length ≤ k → u.op.dbuf.read k = s.op.dbuf.read k) ∧
      u = { s with op := { s.op with dlen := u.op.dlen, dbuf := u.op.dbuf }, reply := .ack } := by
  obtain ⟨⟨-, hd⟩, -⟩ := hc
  refine ⟨_, performAll_text hp (fun _ => rfl) trivial rfl _ t 0 fun j hj => ?_, ?_⟩
  · change j < s.params.dmax
    omega
  · rw [putText_dbuf]
    refine ⟨?_, fun k hk => Memory.read_writeSeq_beyond hd hk, rfl⟩
    simp only [divisor, OperandState.put, length_toNat (show t.length < 2 ^ 16 by omega),
      Memory.take_writeSeq_of_wf hd]

end

/-! ## `MVO` and `FLIP` (30_encoding.md R88) -/

/-- The copying accesses of `MVO` for the elements `is`: each element of `OBUF` read, and the word `v` gives it
written to `IBUF`. -/
def moveElements (p : Params) (v : Nat → Word) (is : List Nat) : List HostAction :=
  is.flatMap (fun i => [memRead p (.obuf i), memWrite p (.ibuf i) (v i)])

/-- The reads of a copy change nothing that its writes do not replace. -/
theorem performAll_moveElements {s : State} (hp : s.params.wf) (v : Nat → Word) (is : List Nat)
    (his : ∀ i ∈ is, i < s.params.imax) (as : List HostAction) :
    performAll (moveElements s.params v is ++ as) s =
      performAll (is.map (fun i => memWrite s.params (.ibuf i) (v i)) ++ as) s := by
  induction is generalizing s with
  | nil => rfl
  | cons i is ih =>
    have hi : i < s.params.imax := his i List.mem_cons_self
    have hobuf : (Loc.obuf i).mapped s.params := by
      change i < 2 * s.params.imax + 4
      omega
    calc performAll (moveElements s.params v (i :: is) ++ as) s
        = performAll (memWrite s.params (.ibuf i) (v i) :: (moveElements s.params v is ++ as)) s :=
          performAll_memRead_memWrite hp hobuf _ _ _
      _ = performAll ((i :: is).map (fun i => memWrite s.params (.ibuf i) (v i)) ++ as) s := by
          rw [List.map_cons, List.cons_append, performAll_memWrite_cons hp hi rfl, performAll_memWrite_cons hp hi rfl]
          exact ih (s := { s with op := s.op.put (.ibuf i) (v i), reply := .ack }) hp
            fun j hj => his j (List.mem_cons_of_mem i hj)

theorem zipIdx_map_range {α : Type} (f : Nat → α) (n : Nat) :
    ((List.range n).map f).zipIdx = (List.range n).map (fun i => (f i, i)) :=
  List.ext_getElem (by simp) (by simp)

/-- The writes of `MVO` are those that load the output string. -/
theorem map_memWrite_output (s : State) :
    (List.range s.res.olen.toNat).map (fun i => memWrite s.params (.ibuf i) (readLoc s (.obuf i))) =
      loadText s.params .ibuf (output s.res) := by
  rw [loadText, output, Memory.take, zipIdx_map_range, List.map_map]
  rfl

/-- The accesses of `MVO`: `OLEN` read, the output string copied, `ILEN` written. -/
def mvoAccesses (s : State) : List HostAction :=
  memRead s.params (.reg .olen) ::
    (moveElements s.params (fun i => readLoc s (.obuf i)) (List.range s.res.olen.toNat) ++
      [memWrite s.params (.reg .ilen) (BitVec.ofNat 32 s.res.olen.toNat)])

theorem expand_mvo (s : State) :
    HostOp.mvo.expand s = if s.res.olen.toNat ≤ s.params.imax then some (mvoAccesses s) else none := rfl

/-- The accesses of `MVO` make the output string the operand string and leave all else: they do what loading it does. -/
theorem performAll_mvo {s : State} (hp : s.params.wf) (hc : s.canonical) (hn : s.res.olen.toNat ≤ s.params.imax) :
    ∃ u, performAll (mvoAccesses s) s = .next u ∧
      operand u.op = output s.res ∧ (∀ k, s.res.olen.toNat ≤ k → u.op.ibuf.read k = s.op.ibuf.read k) ∧
      u = { s with op := { s.op with ilen := u.op.ilen, ibuf := u.op.ibuf }, reply := .ack } := by
  have hlen : (output s.res).length = s.res.olen.toNat := Memory.take_length _ _
  have hload := performAll_loadOperand (s := { s with reply := .data (readLoc s (.reg .olen)) }) (t := output s.res)
    hp hc (hlen.trans_le hn)
  have hmove : performAll (mvoAccesses s) s =
      performAll (loadText s.params .ibuf (output s.res) ++
        [memWrite s.params (.reg .ilen) (BitVec.ofNat 32 s.res.olen.toNat)])
        { s with reply := .data (readLoc s (.reg .olen)) } := by
    rw [mvoAccesses, performAll, performAction_memRead hp (l := .reg .olen) trivial, ← map_memWrite_output]
    exact performAll_moveElements (s := { s with reply := .data (readLoc s (.reg .olen)) }) hp _ _
      (fun i hi => (List.mem_range.1 hi).trans_le hn) _
  rw [hlen] at hload
  rw [hmove]
  exact hload

/-- The accesses of `FLIP i` change the lowest bit of `IBUF[i]`. -/
theorem performAll_flip {s : State} (hp : s.params.wf) {i : Nat} (hi : i < s.params.imax) :
    performAll [memRead s.params (.ibuf i), memWrite s.params (.ibuf i) (readLoc s (.ibuf i) ^^^ 1)] s =
      .next { s with op := { s.op with ibuf := s.op.ibuf.write i (s.op.ibuf.read i ^^^ 1) }, reply := .ack } := by
  have hsymbol : (readLoc s (.ibuf i) ^^^ 1).setWidth 8 = s.op.ibuf.read i ^^^ 1 := by
    rw [BitVec.setWidth_xor]
    exact congrArg (· ^^^ 1) (setWidth_symbol _)
  rw [performAll_memRead_memWrite hp hi, performAll_memWrite_cons hp hi rfl, OperandState.put, hsymbol]
  rfl

/-! ## Operations and programs (30_encoding.md R92) -/

section
variable {o : HostOp} {s t : State} {as : List HostAction}

theorem issue_of_idle (o : HostOp) (h : s.pending = []) :
    issue o s = (o.expand s).map (fun as => { s with pending := as }) := if_pos h

/-- Performing an access takes nothing off the host's list. -/
theorem performAction_keeps_pending {a : HostAction} (h : performAction a s = .next t) : t.pending = s.pending := by
  have hq := performAction_pending a s s.pending
  rw [h] at hq
  injection hq with ht
  rw [ht]

theorem performAll_keeps_pending (h : performAll as s = .next t) : t.pending = s.pending := by
  induction as generalizing s with
  | nil =>
    cases h
    rfl
  | cons a as ih =>
    rw [performAll] at h
    cases ha : performAction a s with
    | next u =>
      rw [ha] at h
      exact (ih h).trans (performAction_keeps_pending ha)
    | fault f => cases f
    | refused r =>
      rw [ha] at h
      cases h

/-- From an idle block, running the machine on a list of accesses ends where performing them one after another does. -/
theorem run_next_iff (h : s.pending = []) :
    Host.Core.run Sys2Proof.core as.length { s with pending := as } = .next t ↔ performAll as s = .next t := by
  rw [run_eq_performAll]
  cases hall : performAll as s with
  | next u =>
    have hu : { u with pending := [] } = u := by rw [← (performAll_keeps_pending hall).trans h]
    rw [mapNext, hu]
    exact Iff.rfl
  | fault f => cases f
  | refused r => exact ⟨nofun, nofun⟩

/-- An operation issued from an idle block runs to where its accesses lead. -/
theorem issue_run (h : s.pending = []) (ho : o.expand s = some as) (ht : performAll as s = .next t) :
    issue o s = some { s with pending := as } ∧
      Host.Core.run Sys2Proof.core as.length { s with pending := as } = .next t :=
  ⟨by rw [issue_of_idle o h, ho]; rfl, (run_next_iff h).2 ht⟩

/-- A program performs its first operation, and the rest from the state it leaves. -/
theorem runProgram_of_run {s' : State} (os : List HostOp) (hi : issue o s = some s')
    (ht : Host.Core.run Sys2Proof.core s'.pending.length s' = .next t) :
    runProgram (o :: os) s = (runProgram os t).map (fun r => (s'.pending ++ r.1, r.2)) := by
  obtain ⟨h, as, ho, rfl⟩ := issue_eq_some hi
  exact runProgram_next os ho ((run_next_iff h).1 ht)

end

/-- Settles O16: each pseudo-operation by the lemma on its accesses (`performAll_loadOperand`,
`performAll_loadDivisor`, `performAll_mvo`, `performAll_flip`), a program by `runProgram_of_run`. -/
theorem pseudoOperationsLoadAndMove : Obligations.PseudoOperationsLoadAndMove := by
  intro s hp hc hpend
  refine ⟨fun t ht => ?_, fun t ht => ?_, ?_, fun s' hs' => ?_, fun i hi => ?_, rfl, fun o os => ⟨fun h => ?_, ?_⟩⟩
  · obtain ⟨u, hu, hload⟩ := performAll_loadOperand hp hc ht
    obtain ⟨hissue, hrun⟩ := issue_run (o := .ldi t) hpend rfl hu
    exact ⟨_, u, hissue, hrun, hload⟩
  · obtain ⟨u, hu, hload⟩ := performAll_loadDivisor hp hc ht
    obtain ⟨hissue, hrun⟩ := issue_run (o := .ldd t) hpend rfl hu
    exact ⟨_, u, hissue, hrun, hload⟩
  · rw [issue_of_idle _ hpend, Option.isSome_map, expand_mvo]
    split_ifs with hn <;> simp [hn]
  · obtain ⟨-, as, ho, rfl⟩ := issue_eq_some hs'
    rw [expand_mvo] at ho
    split_ifs at ho with hn
    cases ho
    obtain ⟨u, hu, hload⟩ := performAll_mvo hp hc hn
    exact ⟨u, (run_next_iff hpend).2 hu, hload⟩
  · obtain ⟨hissue, hrun⟩ := issue_run (o := .flip i) hpend rfl (performAll_flip hp hi)
    exact ⟨_, _, hissue, hrun, Memory.read_write hc.1.1 i _, rfl⟩
  · rw [issue_of_idle o hpend, Option.map_eq_none_iff] at h
    exact runProgram_undefined os h
  · exact fun s' t => runProgram_of_run os

end Sys2Proof.Machine
end

section
/-! PROOFS. The error no command raises (spec/40_bitstring.md R105), and the codeword of HAM.ENC (spec/42_hamming.md
R140 to R147): its length and parity count, its data positions and its checks. With them, the statements O24 and
O38. -/

namespace Sys2Proof.Machine

/-! ## The parity count (42_hamming.md R141, R147, R148) -/

/-- Where the fuel reaches a `p'` that fits, the search answers the first one from `p` on. -/
theorem pcEncFrom_least {m fuel p : Nat} (h : m + (p + fuel) + 1 ≤ 2 ^ (p + fuel)) :
    m + pcEncFrom m fuel p + 1 ≤ 2 ^ pcEncFrom m fuel p ∧
      ∀ q, p ≤ q → q < pcEncFrom m fuel p → 2 ^ q < m + q + 1 := by
  induction fuel generalizing p with
  | zero => exact ⟨h, fun q hp hq => absurd hq (Nat.not_lt.2 hp)⟩
  | succ fuel ih =>
    rw [pcEncFrom]
    split
    case isTrue hfit => exact ⟨hfit, fun q hp hq => absurd hq (Nat.not_lt.2 hp)⟩
    case isFalse hfit =>
      obtain ⟨hle, hleast⟩ := ih (p := p + 1) (by rwa [Nat.add_right_comm p, Nat.add_assoc p])
      refine ⟨hle, fun q hp hq => ?_⟩
      obtain rfl | hlt := Nat.eq_or_lt_of_le hp
      · exact Nat.lt_of_not_le hfit
      · exact hleast q hlt hq

/-- `pc_enc(m)` is the least `p` with `2^p ≥ m + p + 1` (42_hamming.md R141). -/
theorem pcEnc_least (m : Nat) :
    m + pcEnc m + 1 ≤ 2 ^ pcEnc m ∧ ∀ q, q < pcEnc m → 2 ^ q < m + q + 1 := by
  have hm : m < 2 ^ m := Nat.lt_two_pow_self
  have hfit : m + (0 + (m + 1)) + 1 ≤ 2 ^ (0 + (m + 1)) := by
    rw [Nat.zero_add, Nat.pow_succ]
    omega
  obtain ⟨hle, hleast⟩ := pcEncFrom_least hfit
  exact ⟨hle, fun q => hleast q q.zero_le⟩

section
variable {m q : Nat}

/-- The codeword of `m` data bits ends before position `2^pc_enc(m)`. -/
theorem codeword_lt_two_pow (m : Nat) : m + pcEnc m < 2 ^ pcEnc m := (pcEnc_least m).1

/-- The codeword of `m` data bits reaches every parity position. -/
theorem two_pow_le_codeword (h : q < pcEnc m) : 2 ^ q ≤ m + pcEnc m := by
  have := (pcEnc_least m).2 q h
  omega

/-- The decoder finds the encoder's parity count from the length of the codeword (42_hamming.md R147). -/
theorem pcDec_codeword (h : m ≠ 0) : pcDec (m + pcEnc m) = pcEnc m := by
  have hlt := codeword_lt_two_pow m
  cases hp : pcEnc m with
  | zero =>
    rw [hp] at hlt
    omega
  | succ p =>
    have hle : 2 ^ p ≤ m + pcEnc m := two_pow_le_codeword (by omega)
    rw [hp] at hlt hle
    exact congrArg (· + 1) ((Nat.log2_eq_iff (by omega)).2 ⟨hle, hlt⟩)

end

/-! ## Powers of two (40_bitstring.md R106) -/

theorem isPowerOfTwo_iff (n : Nat) : isPowerOfTwo n = true ↔ ∃ k, n = 2 ^ k := by
  have h := Nat.ne_zero_and_sub_one_eq_zero_iff_isPowerOfTwo (n := n)
  simpa [isPowerOfTwo, Nat.pos_iff_ne_zero, Nat.isPowerOfTwo] using h

theorem isPowerOfTwo_two_pow (k : Nat) : isPowerOfTwo (2 ^ k) = true := (isPowerOfTwo_iff _).2 ⟨k, rfl⟩

/-- Among the positions 1 to `n` there are `p` powers of two when `2^(p-1) ≤ n < 2^p`. -/
theorem count_isPowerOfTwo {n p : Nat} (hle : ∀ q < p, 2 ^ q ≤ n) (hlt : n < 2 ^ p) :
    Nat.count (fun i => isPowerOfTwo (i + 1) = true) n = p := by
  have hpow : (Finset.range (n + 1)).filter (fun i => isPowerOfTwo i = true) = (Finset.range p).image (2 ^ ·) := by
    ext i
    simp only [Finset.mem_filter, Finset.mem_range, Finset.mem_image, isPowerOfTwo_iff]
    constructor
    · rintro ⟨hi, q, rfl⟩
      exact ⟨q, (Nat.pow_lt_pow_iff_right Nat.one_lt_two).1 ((Nat.le_of_lt_succ hi).trans_lt hlt), rfl⟩
    · rintro ⟨q, hq, rfl⟩
      exact ⟨Nat.lt_succ_of_le (hle q hq), q, rfl⟩
  calc Nat.count (fun i => isPowerOfTwo (i + 1) = true) n
    _ = Nat.count (fun i => isPowerOfTwo i = true) (n + 1) := by
      rw [Nat.count_succ' (fun i => isPowerOfTwo i = true), if_neg (by decide), Nat.add_zero]
    _ = ((Finset.range p).image (2 ^ ·)).card := by rw [Nat.count_eq_card_filter_range, hpow]
    _ = p := by rw [Finset.card_image_of_injective _ (Nat.pow_right_injective le_rfl), Finset.card_range]

/-! ## The data positions (42_hamming.md R142) -/

theorem extractFrom_eq (pos : Nat) (C : List Bool) : extractFrom pos C =
    ((List.range C.length).filter (fun k => !isPowerOfTwo (k + pos))).map (fun k => C.getD k false) := by
  induction C generalizing pos with
  | nil => rfl
  | cons b C ih =>
    have hshift (k : Nat) : k + 1 + pos = k + (pos + 1) := by omega
    rw [extractFrom, ih, List.length_cons, List.range_succ_eq_map, List.filter_cons, List.filter_map, Nat.zero_add]
    cases isPowerOfTwo pos <;> simp [Function.comp_def, hshift]

theorem extract_eq (C : List Bool) : extract C =
    ((List.range C.length).filter (fun k => !isPowerOfTwo (k + 1))).map (fun k => C.getD k false) :=
  extractFrom_eq 1 C

/-- What is placed is extracted again, when the powers of two among the `k` positions leave room for just the data. -/
theorem extractFrom_placeFrom {pos k : Nat} {D : List Bool}
    (h : D.length + Nat.count (fun i => isPowerOfTwo (i + pos) = true) k = k) :
    extractFrom pos (placeFrom pos k D) = D := by
  induction k generalizing pos D with
  | zero => exact (List.length_eq_zero_iff.1 (by simpa using h)).symm
  | succ k ih =>
    have hshift : (fun i => isPowerOfTwo (i + 1 + pos) = true) = (fun i => isPowerOfTwo (i + (pos + 1)) = true) := by
      funext i
      rw [Nat.add_right_comm, Nat.add_assoc]
    rw [Nat.count_succ', Nat.zero_add] at h
    simp only [hshift] at h
    rw [placeFrom]
    split
    case isTrue hpow =>
      rw [if_pos hpow] at h
      rw [extractFrom, if_pos hpow, ih (by omega)]
    case isFalse hpow =>
      rw [if_neg hpow] at h
      rw [extractFrom, if_neg hpow]
      cases D with
      | nil =>
        have hle := Nat.count_le (p := fun i => isPowerOfTwo (i + (pos + 1)) = true) (n := k)
        rw [List.length_nil] at h
        omega
      | cons d D =>
        rw [List.length_cons] at h
        rw [List.headD_cons, List.tail_cons, ih (by omega)]

/-- Every parity position of a placed word holds 0. -/
theorem placeFrom_getD_of_isPowerOfTwo {pos i : Nat} (h : isPowerOfTwo (i + pos) = true) (k : Nat) (D : List Bool) :
    (placeFrom pos k D).getD i false = false := by
  induction k generalizing pos i D with
  | zero => rfl
  | succ k ih =>
    cases i with
    | zero => rw [placeFrom, if_pos (by simpa using h)]; rfl
    | succ i =>
      have hi : isPowerOfTwo (i + (pos + 1)) = true := by rwa [Nat.add_right_comm] at h
      rw [placeFrom]
      split <;> exact ih hi _

/-! ## Writing the parity bits (42_hamming.md R143, R146) -/

theorem setParities_succ (C : List Bool) (p : Nat) :
    setParities C (p + 1) = (setParities C p).set (2 ^ p - 1) (chk (setParities C p) p) := by
  simp [setParities, List.range_succ]

/-- The data positions do not see a parity bit. -/
theorem extract_set_parity (C : List Bool) (q : Nat) (b : Bool) : extract (C.set (2 ^ q - 1) b) = extract C := by
  rw [extract_eq, extract_eq, List.length_set]
  refine List.map_congr_left fun k hk => ?_
  have hne : 2 ^ q - 1 ≠ k := by
    rintro rfl
    simp [Nat.sub_add_cancel Nat.one_le_two_pow, isPowerOfTwo_two_pow] at hk
  simp [List.getD, List.getElem?_set_ne hne]

theorem extract_setParities (C : List Bool) (p : Nat) : extract (setParities C p) = extract C := by
  induction p with
  | zero => rfl
  | succ p ih => rw [setParities_succ, extract_set_parity, ih]

/-- A parity position is unchanged until its own turn. -/
theorem setParities_getD_of_le {C : List Bool} {p q : Nat} (h : p ≤ q) :
    (setParities C p).getD (2 ^ q - 1) false = C.getD (2 ^ q - 1) false := by
  induction p with
  | zero => rfl
  | succ p ih =>
    have hlt : 2 ^ p < 2 ^ q := Nat.pow_lt_pow_right (by decide) h
    have hne : 2 ^ p - 1 ≠ 2 ^ q - 1 := by have := Nat.one_le_two_pow (n := p); omega
    rw [setParities_succ, ← ih (Nat.le_of_succ_le h)]
    simp [List.getD, List.getElem?_set_ne hne]

/-- A parity bit written over a 0 enters its own check and no other. -/
theorem chk_set_parity {C : List Bool} {p : Nat} (hp : 2 ^ p ≤ C.length) (h0 : C.getD (2 ^ p - 1) false = false)
    (b : Bool) (q : Nat) : chk (C.set (2 ^ p - 1) b) q = xor (chk C q) (decide (p = q) && b) := by
  cases b with
  | false =>
    have hi : 2 ^ p - 1 < C.length := Nat.lt_of_lt_of_le (Nat.sub_one_lt (Nat.two_pow_pos p).ne') hp
    have hset : C.set (2 ^ p - 1) false = C := by
      rw [List.getD_eq_getElem _ _ hi] at h0
      simpa [h0] using List.set_getElem_self hi
    rw [hset, Bool.and_false, Bool.xor_false]
  | true =>
    have := chk_flipAt Nat.one_le_two_pow hp q
    rwa [flipAt, h0, Nat.testBit_two_pow, ← Bool.and_true (decide (p = q))] at this

/-- After `p` turns the first `p` checks are 0. -/
theorem chk_setParities {C : List Bool} {p q : Nat} (hp : ∀ i < p, 2 ^ i ≤ C.length)
    (h0 : ∀ i, C.getD (2 ^ i - 1) false = false) (hq : q < p) : chk (setParities C p) q = false := by
  induction p with
  | zero => exact absurd hq (Nat.not_lt_zero q)
  | succ p ih =>
    have hlen : 2 ^ p ≤ (setParities C p).length := by
      rw [setParities_length]
      exact hp p (Nat.lt_succ_self p)
    have hzero : (setParities C p).getD (2 ^ p - 1) false = false := (setParities_getD_of_le le_rfl).trans (h0 p)
    rw [setParities_succ, chk_set_parity hlen hzero]
    obtain hlt | rfl := Nat.lt_succ_iff_lt_or_eq.1 hq
    · rw [ih (fun i hi => hp i (Nat.lt_succ_of_lt hi)) hlt, decide_eq_false (by omega)]
      rfl
    · simp

/-- A check beyond the word covers nothing. -/
theorem covered_eq_nil {q pos : Nat} {C : List Bool} (h : pos + C.length ≤ 2 ^ q) : covered q pos C = [] := by
  induction C generalizing pos with
  | nil => rfl
  | cons b C ih =>
    rw [List.length_cons] at h
    rw [covered_cons, Nat.testBit_lt_two_pow (by omega), ih (by omega)]
    rfl

theorem chk_eq_false_of_lt {C : List Bool} {q : Nat} (h : C.length < 2 ^ q) : chk C q = false := by
  rw [chk, covered_eq_nil (by omega)]
  rfl

theorem syn_eq_zero {C : List Bool} (h : ∀ q, chk C q = false) (P : Nat) : syn C P = 0 := by
  simp [syn, h]

/-! ## The codeword (42_hamming.md R146) -/

theorem extract_hammingEncode (D : List Bool) : extract (hammingEncode D) = D := by
  rw [hammingEncode, extract_setParities]
  refine extractFrom_placeFrom ?_
  rw [count_isPowerOfTwo (fun q => two_pow_le_codeword) (codeword_lt_two_pow _)]

theorem chk_hammingEncode (D : List Bool) (q : Nat) : chk (hammingEncode D) q = false := by
  by_cases hq : q < pcEnc D.length
  · refine chk_setParities (fun i hi => ?_) (fun i => ?_) hq
    · rw [place, placeFrom_length]
      exact two_pow_le_codeword hi
    · refine placeFrom_getD_of_isPowerOfTwo ?_ _ _
      rw [Nat.sub_add_cancel Nat.one_le_two_pow, isPowerOfTwo_two_pow]
  · refine chk_eq_false_of_lt ?_
    rw [hammingEncode_length]
    exact (codeword_lt_two_pow _).trans_le (Nat.pow_le_pow_right (by decide) (Nat.le_of_not_lt hq))

/-! ## The statements -/

/-- Settles O24: a command ends in an error of its list, where LENGTH_MISMATCH does not stand, or without error; the
divider is `crcdiv_ok`. -/
theorem noCommandRaisesLengthMismatch : Obligations.NoCommandRaisesLengthMismatch := by
  refine ⟨fun i s t h => ?_, fun D G hG hD => ?_⟩
  · rw [exec_res h]
    rcases commandResult_ends i s.params s.op s.res with ⟨e, he, hr⟩ | ⟨r1, ⟨⟨herr, -⟩, -, -⟩, hr⟩ <;> rw [hr]
    · exact fun h8 => lengthMismatch_notMem_errorsOf i (h8 ▸ he)
    · rw [setDone_err, herr]
      decide
  · obtain ⟨R, recs, hdiv, -, -⟩ := crcdiv_ok (by omega : 1 ≤ G.length) hD
    exact ⟨R, recs, hdiv⟩

/-- Settles O38: the parity count leaves just the data positions free, and each parity bit makes its own check 0. -/
theorem hammingCodewordIsSystematicAndValid : Obligations.HammingCodewordIsSystematicAndValid := by
  refine ⟨isPowerOfTwo_iff, extract_eq, fun D hD => ?_⟩
  refine ⟨hammingEncode_length D, extract_hammingEncode D, chk_hammingEncode D, ?_,
    syn_eq_zero (chk_hammingEncode D) _⟩
  rw [hammingEncode_length]
  exact pcDec_codeword (mt List.length_eq_zero_iff.1 hD)

end Sys2Proof.Machine
end

section
/-! PROOFS. PAR.GEN and PAR.CHK (spec/41_parity.md R120 to R126): which operands they refuse, and that the verdict of
PAR.CHK is the parity of the whole string, which a flip inverts. With it, the statements O27, O34, O35 and O36. -/

namespace Sys2Proof.Machine

/-! ## BitString operands (40_bitstring.md R102) -/

theorem binaryOperand_iff {s : State} : s.binaryOperand ↔ ∀ x ∈ operand s.op, isBin x = true :=
  forall₂_congr fun _ _ => isBin_iff.symm

/-- The string of some bits is an operand with these bits. -/
theorem checkBits_syms {B : List Bool} (h : B ≠ []) : checkBits (syms B) = .ok B :=
  checkBits_ok.2 ⟨by simpa using h, syms_all_bin B, (bits_syms B).symm⟩

/-- The operand string, from its bits. -/
theorem operand_eq_syms {s : State} (h : s.binaryOperand) : operand s.op = syms (bits (operand s.op)) :=
  (syms_bits (binaryOperand_isBin h)).symm

/-! ## How a command ends -/

/-- A command in range whose rule raises. -/
theorem exec_of_rule_error {i : Instr} {s : State} {e : ErrorCode} (hn : s.op.ilen.toNat ≤ s.params.imax)
    (hd : isCrc i = true → s.op.dlen.toNat ≤ s.params.dmax) (h : ruleOf i s.op (clearResults s.res) = .error e) :
    exec i s = .next { s with res := raised e } := by
  rw [exec_eq, commandResult_of_error (outOfRange_eq_false.2 ⟨hn, hd⟩) h]

/-- A command that ended without error is one whose rule succeeded. -/
theorem rule_ok_of_err_none {i : Instr} {s t : State} (h : exec i s = .next t) (he : t.res.status.err = .none) :
    ∃ r1, ruleOf i s.op (clearResults s.res) = .ok r1 ∧ t.res = setDone r1 := by
  rw [exec_res h] at he ⊢
  rcases commandResult_cases (isCrc i) (ruleOf i) s.params s.op s.res with
    ⟨-, hr⟩ | ⟨-, e, hrule, hr⟩ | ⟨-, r1, hrule, hr⟩
  · rw [hr] at he
    cases he
  · rw [hr] at he
    exact absurd (he ▸ ruleOf_error_mem hrule : ErrorCode.none ∈ errorsOf i) (none_notMem_errorsOf i)
  · exact ⟨r1, hrule, hr⟩

/-! ## The parity of a bit string (41_parity.md R120) -/

theorem ones_mod_two_iff (B : List Bool) (m : ParityMode) : ones B % 2 = parityBit m ↔ par B = isOdd m := by
  rcases Nat.mod_two_eq_zero_or_one (ones B) with h | h <;> cases m <;> simp [par, isOdd, parityBit, h]

/-- A string with its parity bit has the parity of the convention. -/
theorem par_append_pbit (B : List Bool) (m : ParityMode) : par (B ++ [pbit B m]) = isOdd m := by
  rw [par_append, par_singleton, pbit, ← Bool.xor_assoc, Bool.xor_self, Bool.false_xor]

/-- The last bit is the expected one exactly when the whole string has the parity of the convention. -/
theorem beq_pbit (body : List Bool) (r : Bool) (m : ParityMode) :
    (r == pbit body m) = (par (body ++ [r]) == isOdd m) := by
  rw [par_append, par_singleton, pbit]
  cases r <;> cases par body <;> cases isOdd m <;> rfl

/-- Inverting one bit inverts the parity. -/
theorem par_set_not {B : List Bool} {k : Nat} (h : k < B.length) : par (B.set k (!B.getD k false)) = !par B := by
  induction B generalizing k with
  | nil => cases h
  | cons b B ih =>
    cases k with
    | zero => simp [par_cons]
    | succ k => simp only [List.set_cons_succ, List.getD_cons_succ, par_cons, ih (Nat.lt_of_succ_lt_succ h),
        Bool.xor_not]

theorem sym_xor_one (b : Bool) : sym b ^^^ 1 = sym (!b) := by cases b <;> rfl

/-- `FLIP` on the string of some bits inverts one of them (30_encoding.md R88). -/
theorem flipSymbol_syms {B : List Bool} {k : Nat} (h : k < B.length) :
    flipSymbol (syms B) k = syms (B.set k (!B.getD k false)) := by
  have hsym : (syms B).getD k 0 = sym (B.getD k false) := by
    simp [syms, List.getD_eq_getElem?_getD, List.getElem?_eq_getElem h]
  rw [flipSymbol, hsym, sym_xor_one, syms, syms, List.map_set]

/-! ## PAR.GEN and PAR.CHK (41_parity.md R123 to R125) -/

/-- PAR.GEN that ends without error leaves a string of bits with the parity of the convention. -/
theorem parGen_output {m : ParityMode} {s t : State} (h : exec (.parGen m) s = .next t)
    (he : t.res.status.err = .none) : ∃ C : List Bool, C ≠ [] ∧ par C = isOdd m ∧ output t.res = syms C := by
  obtain ⟨r1, hrule, hres⟩ := rule_ok_of_err_none h he
  change parGenRule m s.op (clearResults s.res) = .ok r1 at hrule
  cases hc : checkBits (operand s.op) with
  | error e =>
    rw [parGenRule_of_error _ hc] at hrule
    cases hrule
  | ok B =>
    rw [parGenRule_of_ok _ hc] at hrule
    cases hrule
    obtain ⟨-, hbin, rfl⟩ := checkBits_ok.1 hc
    have hlen : (operand s.op ++ [sym (pbit (bits (operand s.op)) m)]).length < 2 ^ 32 := by
      rw [List.length_append, operand_length, List.length_singleton]
      omega
    refine ⟨bits (operand s.op) ++ [pbit (bits (operand s.op)) m], by simp, par_append_pbit _ m, ?_⟩
    rw [syms_append, syms_bits hbin, hres]
    exact output_emit _ _ (clearResults_obuf s.res) hlen

/-- PAR.CHK on an operand of at least one bit: the last bit `r` against the one that the others ask for. -/
theorem exec_parChk {s : State} {body : List Bool} {r : Bool} (m : ParityMode)
    (hn : s.op.ilen.toNat ≤ s.params.imax) (h : operand s.op = syms (body ++ [r])) :
    exec (.parChk m) s = .next { s with res := { ResultState.zero with
      status := finished (verdict (r == pbit body m)) .none, ones := BitVec.ofNat 16 (ones body)
      pbit := BitVec.ofBool (pbit body m), rbit := BitVec.ofBool r } } := by
  have hcheck : checkBits (operand s.op) = .ok (body ++ [r]) := h ▸ checkBits_syms (by simp)
  rw [exec_of_rule_ok (i := .parChk m) hn nofun (parChkRule_of_ok (clearResults s.res) hcheck),
    List.dropLast_concat, List.getLastD_concat]
  rfl

/-- The verdict of PAR.CHK is the parity of the whole string (41_parity.md R125). -/
theorem parChk_outcome {s : State} {B : List Bool} (m : ParityMode) (hn : s.op.ilen.toNat ≤ s.params.imax)
    (hB : B ≠ []) (h : operand s.op = syms B) :
    ∃ t, exec (.parChk m) s = .next t ∧ t.res.status.outcome = verdict (par B == isOdd m) := by
  obtain rfl | ⟨body, r, rfl⟩ := B.eq_nil_or_concat'
  · exact absurd rfl hB
  · exact ⟨_, exec_parChk m hn h, congrArg verdict (beq_pbit body r m)⟩

theorem verdict_eq_clean {b : Bool} : verdict b = .clean ↔ b = true := by cases b <;> decide

theorem verdict_eq_detected {b : Bool} : verdict b = .detected ↔ ¬ b = true := by cases b <;> decide

/-- The modes are told apart by their bit. -/
theorem isOdd_inj {m m' : ParityMode} : isOdd m = isOdd m' ↔ m' = m := by
  cases m <;> cases m' <;> decide

/-- In range both commands raise what the BitString check answers, and nothing else (41_parity.md R121). -/
theorem exec_parity_err {i : Instr} {m : ParityMode} {s : State} (hi : i = .parGen m ∨ i = .parChk m)
    (hn : s.op.ilen.toNat ≤ s.params.imax) :
    (∀ e, checkBits (operand s.op) = .error e → ∃ t, exec i s = .next t ∧ t.res.status.err = e) ∧
    ∀ B, checkBits (operand s.op) = .ok B → ∃ t, exec i s = .next t ∧ t.res.status.err = .none := by
  obtain rfl | rfl := hi
  · exact ⟨fun e hc => ⟨_, exec_of_rule_error hn nofun (parGenRule_of_error _ hc), rfl⟩,
      fun B hc => ⟨_, exec_of_rule_ok hn nofun (parGenRule_of_ok _ hc), rfl⟩⟩
  · exact ⟨fun e hc => ⟨_, exec_of_rule_error hn nofun (parChkRule_of_error _ hc), rfl⟩,
      fun B hc => ⟨_, exec_of_rule_ok hn nofun (parChkRule_of_ok _ hc), rfl⟩⟩

/-! ## The statements -/

/-- Settles O35: the verdict is the parity of the whole string (`parChk_outcome`). -/
theorem parChkCleanExactlyOnTotalParity : Obligations.ParChkCleanExactlyOnTotalParity := by
  intro m s h0 hn hbin
  have hne : bits (operand s.op) ≠ [] := by
    rwa [ne_eq, ← List.length_eq_zero_iff, bits_length, operand_length]
  obtain ⟨t, hexec, hout⟩ := parChk_outcome m hn hne (operand_eq_syms hbin)
  refine ⟨t, hexec, ?_, ?_⟩
  · rw [hout, verdict_eq_clean, beq_iff_eq, ones_mod_two_iff]
  · rw [hout, verdict_eq_detected, beq_iff_eq, ne_eq, ones_mod_two_iff]

/-- Settles O36: the generated string has the parity of its mode, and each flip inverts that. -/
theorem parityRoundTrip : Obligations.ParityRoundTrip := by
  intro m s t u _ hgen herr hn
  obtain ⟨C, hC, hpar, hout⟩ := parGen_output hgen herr
  have hlen : t.res.olen.toNat = C.length := by rw [← output_length, hout, syms_length]
  rw [hout, hlen]
  refine ⟨fun hu m' => ?_, fun k hk => ⟨fun hu => ?_, fun l hl _ hu => ?_⟩⟩
  · obtain ⟨v, hexec, hv⟩ := parChk_outcome m' hn hC hu
    refine ⟨v, hexec, ?_⟩
    simp [hv, hpar, verdict, isOdd_inj]
  · rw [flipSymbol_syms hk] at hu
    obtain ⟨v, hexec, hv⟩ := parChk_outcome m hn (mt (List.set_eq_nil_iff ..).1 hC) hu
    refine ⟨v, hexec, ?_⟩
    rw [hv, par_set_not hk, hpar, verdict_eq_detected]
    simp
  · have hl' : l < (C.set k (!C.getD k false)).length := by rwa [List.length_set]
    rw [flipSymbol_syms hk, flipSymbol_syms hl'] at hu
    obtain ⟨v, hexec, hv⟩ := parChk_outcome m hn (by simpa using hC) hu
    refine ⟨v, hexec, ?_⟩
    rw [hv, par_set_not hl', par_set_not hk, hpar, verdict_eq_clean]
    simp

/-- Settles O27: the errors are those of the BitString check (`checkBits_error`, `checkBits_ok`). -/
theorem parityOperandChecks : Obligations.ParityOperandChecks := by
  intro m s i hi hn
  obtain ⟨hraise, hend⟩ := exec_parity_err hi hn
  cases hc : checkBits (operand s.op) with
  | error e =>
    obtain ⟨t, hexec, ht⟩ := hraise e hc
    refine ⟨t, hexec, ?_⟩
    rw [ht, binaryOperand_iff]
    obtain ⟨h0, rfl⟩ | ⟨h0, hbin, rfl⟩ := checkBits_error.1 hc <;> rw [operand_length] at h0
    · simp [h0]
    · simp [h0, hbin]
  | ok B =>
    obtain ⟨t, hexec, ht⟩ := hend B hc
    obtain ⟨h0, hbin, -⟩ := checkBits_ok.1 hc
    rw [operand_length] at h0
    refine ⟨t, hexec, ?_⟩
    rw [ht, binaryOperand_iff]
    simpa [h0] using hbin

/-- Settles O34: the result is that of `exec_parChk`, with the expected bit `pbit body m`. -/
theorem parChkComparesTheLastBit : Obligations.ParChkComparesTheLastBit := by
  intro m s body r _ hn hbin hbits
  have hop : operand s.op = syms (body ++ [r]) := hbits ▸ operand_eq_syms hbin
  have hones : ones body ≤ s.op.ilen.toNat := by
    have hlen := congrArg List.length hbits
    rw [bits_length, operand_length, List.length_append] at hlen
    exact (ones_le_length body).trans (by omega)
  refine ⟨_, pbit body m, exec_parChk m hn hop, ones_add_pbit body m,
    toNat_ofNat_of_le hones s.op.ilen.isLt, BitVec.toNat_ofBool _, BitVec.toNat_ofBool _, ?_⟩
  simp [verdict]

end Sys2Proof.Machine
end

section
/-! PROOFS. HAM.ENC and HAM.DEC (spec/42_hamming.md R140 to R154): which operands they refuse, that the syndrome is the
XOR of the positions of the 1 bits, what each command leaves, and that one flipped bit is corrected. With it, the
statements O28, O37, O39, O40, O41 and O42. -/

namespace Sys2Proof.Machine

/-! ## Hamming operands (42_hamming.md R145, R149) -/

theorem checkHamming_error_cases {S : List Symbol} {e : ErrorCode} (h : checkHamming S = .error e) :
    (S.length = 0 ∧ e = .invalidEmpty) ∨
    (S.length ≠ 0 ∧ (¬ ∀ s ∈ S, isBin s = true) ∧ e = .invalidSymbol) ∨
    (S.length ≠ 0 ∧ (∀ s ∈ S, isBin s = true) ∧ S.length < 4 ∧ e = .tooShort) := by
  unfold checkHamming at h
  cases hc : checkBits S with
  | error e' =>
    rw [hc] at h
    cases h
    exact (checkBits_error.1 hc).imp_right .inl
  | ok B =>
    obtain ⟨h0, hbin, rfl⟩ := checkBits_ok.1 hc
    simp only [hc, bits_length] at h
    split_ifs at h with h4
    cases h
    exact .inr (.inr ⟨h0, hbin, h4, rfl⟩)

/-- The string of at least four bits is an operand with these bits. -/
theorem checkHamming_syms {B : List Bool} (h : 4 ≤ B.length) : checkHamming (syms B) = .ok B :=
  checkHamming_ok.2 ⟨by rwa [syms_length], syms_all_bin B, (bits_syms B).symm⟩

/-- In range both commands raise what the Hamming check answers, and nothing else. -/
theorem exec_hamming_err {i : Instr} {s : State} (hi : i = .hamEnc ∨ i = .hamDec)
    (hn : s.op.ilen.toNat ≤ s.params.imax) :
    (∀ e, checkHamming (operand s.op) = .error e → ∃ t, exec i s = .next t ∧ t.res.status.err = e) ∧
    ∀ C, checkHamming (operand s.op) = .ok C → ∃ t, exec i s = .next t ∧ t.res.status.err = .none := by
  obtain rfl | rfl := hi
  · exact ⟨fun e hc => ⟨_, exec_of_rule_error hn nofun (hamEncRule_of_error _ hc), rfl⟩,
      fun C hc => ⟨_, exec_of_rule_ok hn nofun (hamEncRule_of_ok _ hc), rfl⟩⟩
  · refine ⟨fun e hc => ⟨_, exec_of_rule_error hn nofun (hamDecRule_of_error _ hc), rfl⟩, fun C hc => ?_⟩
    obtain ⟨-, hrule⟩ | ⟨-, -, hrule⟩ | ⟨-, hrule⟩ := hamDecRule_cases (clearResults s.res) hc <;>
      exact ⟨_, exec_of_rule_ok (i := .hamDec) hn nofun hrule, rfl⟩

/-! ## The parity counts fit `NPAR` (42_hamming.md R141, R148) -/

theorem pcEnc_le_of_fits {m p : Nat} (h : m + p + 1 ≤ 2 ^ p) : pcEnc m ≤ p :=
  Nat.le_of_not_lt fun hlt => Nat.not_lt.2 h ((pcEnc_least m).2 p hlt)

theorem pcDec_le_of_lt {n p : Nat} (h0 : n ≠ 0) (h : n < 2 ^ p) : pcDec n ≤ p := (Nat.log2_lt h0).2 h

/-! ## The syndrome as a XOR of positions (42_hamming.md R144) -/

/-- Bit `q` of the XOR of the positions is the parity of the bits that check `q` covers. -/
theorem testBit_xorOfPositions (pos : Nat) (C : List Bool) (q : Nat) :
    (xorOfPositions pos C).testBit q = par (covered q pos C) := by
  induction C generalizing pos with
  | nil => simp [xorOfPositions, covered]
  | cons b C ih =>
    rw [xorOfPositions, Nat.testBit_xor, ih, covered_cons, par_append]
    cases b <;> cases h : pos.testBit q <;> simp [h]

theorem syn_eq_xorOfPositions {C : List Bool} {P : Nat} (h : C.length < 2 ^ P) : syn C P = xorOfPositions 1 C := by
  refine Nat.eq_of_testBit_eq fun q => ?_
  rw [testBit_syn, testBit_xorOfPositions, ← chk]
  by_cases hq : q < P
  · simp [hq]
  · have hlen : C.length < 2 ^ q := h.trans_le (Nat.pow_le_pow_right (by decide) (Nat.le_of_not_lt hq))
    simp [chk_eq_false_of_lt hlen]

/-! ## What the commands leave (42_hamming.md R146, R150) -/

/-- HAM.ENC on an operand of at least four bits. -/
theorem exec_hamEnc {s : State} {D : List Bool} (hn : s.op.ilen.toNat ≤ s.params.imax) (h4 : 4 ≤ D.length)
    (h : operand s.op = syms D) :
    exec .hamEnc s = .next { s with res := { emit (syms (hammingEncode D)) ResultState.zero with
      status := finished .generated .none, npar := BitVec.ofNat 4 (pcEnc D.length) } } :=
  exec_of_rule_ok (i := .hamEnc) hn nofun (hamEncRule_of_ok _ (h ▸ checkHamming_syms h4))

/-- The codeword of data that an operand holds fits the count of `OLEN`. -/
theorem syms_hammingEncode_length_lt {D : List Bool} {s : State} (h : operand s.op = syms D) :
    (syms (hammingEncode D)).length < 2 ^ 32 := by
  have hlen : s.op.ilen.toNat = D.length := by rw [← operand_length, h, syms_length]
  have hpc := pcEnc_le D.length
  rw [syms_length, hammingEncode_length]
  omega

/-- HAM.ENC that ends without error leaves the codeword of its operand's bits. -/
theorem hamEnc_output {s t : State} (h : exec .hamEnc s = .next t) (he : t.res.status.err = .none) :
    ∃ D : List Bool, 4 ≤ D.length ∧ operand s.op = syms D ∧ output t.res = syms (hammingEncode D) := by
  obtain ⟨r1, hrule, hres⟩ := rule_ok_of_err_none h he
  change hamEncRule s.op (clearResults s.res) = .ok r1 at hrule
  cases hc : checkHamming (operand s.op) with
  | error e =>
    rw [hamEncRule_of_error _ hc] at hrule
    cases hrule
  | ok D =>
    rw [hamEncRule_of_ok _ hc] at hrule
    cases hrule
    obtain ⟨h4, hbin, rfl⟩ := checkHamming_ok.1 hc
    have hop := (syms_bits hbin).symm
    refine ⟨_, by rwa [bits_length], hop, ?_⟩
    rw [hres]
    exact output_emit _ _ (clearResults_obuf s.res) (syms_hammingEncode_length_lt hop)

/-- What HAM.DEC leaves of the received word `C`: the data positions of `C'`, which is `C` or its correction at `k`. -/
def hamDecoded (o : OutcomeCode) (d : DetailCode) (C C' : List Bool) (k : Nat) : ResultState :=
  emit (syms (extract C')) { ResultState.zero with
    status := finished o d, npar := BitVec.ofNat 4 (pcDec C.length)
    synd := BitVec.ofNat 16 (syn C (pcDec C.length)), epos := BitVec.ofNat 16 k }

/-- HAM.DEC on an operand of at least four bits ends in one of three ways. -/
theorem exec_hamDec_cases {s : State} {C : List Bool} {k : Nat} (hn : s.op.ilen.toNat ≤ s.params.imax)
    (h4 : 4 ≤ C.length) (h : operand s.op = syms C) (hk : syn C (pcDec C.length) = k) :
    (k = 0 ∧ exec .hamDec s = .next { s with res := hamDecoded .clean .none C C 0 }) ∨
    (0 < k ∧ k ≤ C.length ∧ exec .hamDec s = .next { s with res := hamDecoded .corrected .none C (flipAt C k) k }) ∨
    (C.length < k ∧
      exec .hamDec s = .next { s with res := hamDecoded .uncorrectable .syndromeOutOfRange C C 0 }) := by
  have hc : checkHamming (operand s.op) = .ok C := h ▸ checkHamming_syms h4
  subst hk
  obtain ⟨h0, hrule⟩ | ⟨h0, hle, hrule⟩ | ⟨hlt, hrule⟩ := hamDecRule_cases (clearResults s.res) hc
  · exact .inl ⟨h0, exec_of_rule_ok (i := .hamDec) hn nofun hrule⟩
  · exact .inr (.inl ⟨h0, hle, exec_of_rule_ok (i := .hamDec) hn nofun hrule⟩)
  · exact .inr (.inr ⟨hlt, exec_of_rule_ok (i := .hamDec) hn nofun hrule⟩)

section
variable {o : OutcomeCode} {d : DetailCode} {C C' : List Bool} {k : Nat}

theorem hamDecoded_npar (h0 : C.length ≠ 0) (hC : C.length ≤ 16384) :
    (hamDecoded o d C C' k).npar.toNat = pcDec C.length :=
  toNat_ofNat_of_le (pcDec_le_of_lt (p := 15) h0 (by omega)) (by decide)

theorem hamDecoded_synd (h0 : C.length ≠ 0) (hC : C.length ≤ 16384) :
    (hamDecoded o d C C' k).synd.toNat = syn C (pcDec C.length) :=
  toNat_ofNat_of_le (syn_lt_two_pow C _).le
    (Nat.pow_lt_pow_right (by decide) (Nat.lt_succ_of_le (pcDec_le_of_lt (p := 15) h0 (by omega))))

theorem hamDecoded_epos (hk : k ≤ C.length) (hC : C.length ≤ 16384) : (hamDecoded o d C C' k).epos.toNat = k :=
  toNat_ofNat_of_le (hk.trans hC) (by decide)

theorem hamDecoded_holdsOutput {D : List Bool} (hD : extract C' = D) (hC' : C'.length ≤ 16384) :
    (hamDecoded o d C C' k).holdsOutput (syms D) := by
  subst hD
  refine holdsOutput_emit rfl _ ?_
  rw [syms_length]
  exact (extract_length_le C').trans_lt (hC'.trans_lt (by decide))

end

/-! ## One flipped bit (42_hamming.md R154) -/

theorem flipAt_flipAt {C : List Bool} {k : Nat} (h1 : 1 ≤ k) (hk : k ≤ C.length) : flipAt (flipAt C k) k = C := by
  have hi : k - 1 < C.length := by omega
  simp [flipAt, flipBit, hi]

/-- The decoder finds a codeword clean. -/
theorem exec_hamDec_hammingEncode {s : State} {D : List Bool} (hn : s.op.ilen.toNat ≤ s.params.imax)
    (h4 : 4 ≤ D.length) (h : operand s.op = syms (hammingEncode D)) :
    exec .hamDec s = .next { s with res := hamDecoded .clean .none (hammingEncode D) (hammingEncode D) 0 } := by
  have hlen : 4 ≤ (hammingEncode D).length := hammingEncode_length D ▸ h4.trans (Nat.le_add_right _ _)
  obtain ⟨-, hexec⟩ | ⟨hpos, -⟩ | ⟨hlt, -⟩ :=
    exec_hamDec_cases hn hlen h (syn_eq_zero (chk_hammingEncode D) _)
  · exact hexec
  · exact absurd hpos (Nat.lt_irrefl 0)
  · exact absurd hlt (Nat.not_lt_zero _)

/-- The syndrome of a codeword with one bit flipped is that bit's position, where the decoder flips it back. -/
theorem exec_hamDec_flipAt {s : State} {D : List Bool} {k : Nat} (hn : s.op.ilen.toNat ≤ s.params.imax)
    (h4 : 4 ≤ D.length) (h1 : 1 ≤ k) (hk : k ≤ (hammingEncode D).length)
    (h : operand s.op = syms (flipAt (hammingEncode D) k)) :
    exec .hamDec s = .next { s with
      res := hamDecoded .corrected .none (flipAt (hammingEncode D) k) (hammingEncode D) k } := by
  have hlen : 4 ≤ (flipAt (hammingEncode D) k).length := by
    rw [flipAt_length, hammingEncode_length]
    omega
  have hsyn : syn (flipAt (hammingEncode D) k) (pcDec (flipAt (hammingEncode D) k).length) = k := by
    rw [flipAt_length, syn_flipAt (lt_two_pow_pcDec _) h1 hk, syn_eq_zero (chk_hammingEncode D), Nat.zero_xor]
  obtain ⟨h0, -⟩ | ⟨-, -, hexec⟩ | ⟨hlt, -⟩ := exec_hamDec_cases hn hlen h hsyn
  · exact absurd h0 (Nat.ne_zero_of_lt h1)
  · rwa [flipAt_flipAt h1 hk] at hexec
  · exact absurd hk (Nat.not_le.2 (flipAt_length _ k ▸ hlt))

/-! ## The statements -/

/-- Settles O37: the search is `pcEnc_least`, and the bit length is the logarithm's characterisation. -/
theorem parityCountIsLeast : Obligations.ParityCountIsLeast := by
  refine ⟨fun m => ?_, fun n hn => ?_⟩
  · obtain ⟨hfit, hleast⟩ := pcEnc_least m
    exact ⟨hfit, fun p hp => Nat.not_le.2 (hleast p hp)⟩
  · exact ⟨Nat.log2 n, rfl, Nat.log2_self_le hn, Nat.lt_log2_self⟩

/-- Settles O40: the syndrome and the XOR of the positions agree in every bit (`syn_eq_xorOfPositions`). -/
theorem syndromeIsXorOfPositions : Obligations.SyndromeIsXorOfPositions :=
  fun C _ hP => ⟨syn_eq_xorOfPositions hP, testBit_xorOfPositions 1 C, fun _ => syn_flipAt hP⟩

/-- Settles O28: the errors are those of the Hamming check (`checkHamming_error_cases`, `checkHamming_ok`). -/
theorem hammingOperandChecks : Obligations.HammingOperandChecks := by
  intro s i hi hn
  obtain ⟨hraise, hend⟩ := exec_hamming_err hi hn
  cases hc : checkHamming (operand s.op) with
  | error e =>
    obtain ⟨t, hexec, ht⟩ := hraise e hc
    refine ⟨t, hexec, ?_⟩
    rw [ht, binaryOperand_iff]
    obtain ⟨h0, rfl⟩ | ⟨h0, hbin, rfl⟩ | ⟨h0, hbin, hlt, rfl⟩ := checkHamming_error_cases hc <;>
      rw [operand_length] at h0
    · simp [h0]
    · simp [h0, hbin]
    · rw [operand_length] at hlt
      simpa [h0, hlt] using hbin
  | ok C =>
    obtain ⟨t, hexec, ht⟩ := hend C hc
    obtain ⟨h4, hbin, -⟩ := checkHamming_ok.1 hc
    rw [operand_length] at h4
    have h0 : s.op.ilen.toNat ≠ 0 := by omega
    refine ⟨t, hexec, ?_⟩
    rw [ht, binaryOperand_iff]
    simpa [h0, h4] using hbin

/-- Settles O39: the result is that of `exec_hamEnc`, and a parity count of at most 15 fits `NPAR`. -/
theorem hamEncEmitsTheCodeword : Obligations.HamEncEmitsTheCodeword := by
  intro s ⟨_, himax, _⟩ h4 hn hbin
  have hop := operand_eq_syms hbin
  have hlen : (bits (operand s.op)).length = s.op.ilen.toNat := by rw [bits_length, operand_length]
  have hpc : pcEnc (bits (operand s.op)).length ≤ 15 := pcEnc_le_of_fits (by omega)
  exact ⟨_, exec_hamEnc hn (hlen ▸ h4) hop, holdsOutput_emit rfl _ (syms_hammingEncode_length_lt hop),
    (toNat_ofNat_of_le hpc (by decide)).trans (congrArg pcEnc hlen), rfl⟩

/-- Settles O41: each way `exec_hamDec_cases` allows leaves a `hamDecoded` result, whose fields hold the counts. -/
theorem hamDecThreeWayPolicy : Obligations.HamDecThreeWayPolicy := by
  intro s ⟨_, himax, _⟩ h4 hn hbin C n k
  have hlen : C.length = n := by rw [bits_length, operand_length]
  have h0 : C.length ≠ 0 := by omega
  have hmax : C.length ≤ 16384 := by omega
  have hk : syn C (pcDec C.length) = k := by rw [hlen]
  rw [← hlen]
  obtain ⟨hzero, hexec⟩ | ⟨hpos, hle, hexec⟩ | ⟨hlt, hexec⟩ :=
      exec_hamDec_cases hn (hlen ▸ h4) (operand_eq_syms hbin) hk <;>
    refine ⟨_, hexec, hamDecoded_npar h0 hmax, (hamDecoded_synd h0 hmax).trans hk, rfl, ?_, ?_, ?_, rfl⟩
  · exact fun _ => ⟨rfl, rfl, hamDecoded_holdsOutput rfl hmax⟩
  · exact fun h => absurd hzero h.1.ne'
  · exact fun h => absurd hzero (Nat.ne_zero_of_lt h)
  · exact fun h => absurd h hpos.ne'
  · exact fun _ => ⟨rfl, hamDecoded_epos hle hmax,
      hamDecoded_holdsOutput rfl ((flipAt_length C _).trans_le hmax)⟩
  · exact fun h => absurd hle (Nat.not_le.2 h)
  · exact fun h => absurd h (Nat.ne_zero_of_lt hlt)
  · exact fun h => absurd h.2 (Nat.not_le.2 hlt)
  · exact fun _ => ⟨rfl, rfl, hamDecoded_holdsOutput rfl hmax⟩

/-- Settles O42: the codeword decodes as in `exec_hamDec_hammingEncode`, and with one bit flipped as in
`exec_hamDec_flipAt`; both leave the data positions of the codeword, which hold the data. -/
theorem hammingCorrectsOneError : Obligations.HammingCorrectsOneError := by
  intro s t u _ henc herr hn ⟨_, himax, _⟩
  obtain ⟨D, h4, hD, hout⟩ := hamEnc_output henc herr
  have hext := extract_hammingEncode D
  have hlen : t.res.olen.toNat = (hammingEncode D).length := by rw [← output_length, hout, syms_length]
  have hmax {C : List Bool} (h : operand u.op = syms C) : C.length ≤ 16384 := by
    rw [← syms_length, ← h, operand_length]
    exact hn.trans himax
  rw [hout, hlen, hD]
  refine ⟨fun hu => ?_, fun k hk hu => ?_⟩
  · exact ⟨_, exec_hamDec_hammingEncode hn h4 hu, rfl, hamDecoded_holdsOutput hext (hmax hu)⟩
  · have hflip : operand u.op = syms (flipAt (hammingEncode D) (k + 1)) := hu.trans (flipSymbol_syms hk)
    have hC := hmax hflip
    rw [flipAt_length] at hC
    exact ⟨_, exec_hamDec_flipAt hn h4 (Nat.le_add_left 1 k) hk hflip, rfl,
      hamDecoded_epos (hk.trans_eq (flipAt_length _ _).symm) (hmax hflip), hamDecoded_holdsOutput hext hC⟩

end Sys2Proof.Machine
end

section
/-! PROOFS. The divider as arithmetic over GF(2) (spec/43_crc.md R172 to R174, R178 to R180): a bit list is a polynomial,
the steps subtract multiples of the divisor, and so the remainder is the polynomial remainder under the divisor with
its leading bit set. With it, the statements O43, O44 and O48. -/

namespace Sys2Proof.Machine

open Polynomial

/-! ## Bit lists as polynomials -/

@[simp] theorem bitPoly_nil : bitPoly [] = 0 := rfl

theorem bitPoly_concat (B : List Bool) (b : Bool) : bitPoly (B ++ [b]) = bitPoly B * X + C (if b then 1 else 0) := by
  rw [bitPoly, List.foldl_append]
  rfl

@[simp] theorem bitPoly_singleton (b : Bool) : bitPoly [b] = C (if b then 1 else 0) := by
  simpa using bitPoly_concat [] b

theorem bitPoly_append (A B : List Bool) : bitPoly (A ++ B) = bitPoly A * X ^ B.length + bitPoly B := by
  induction B using List.reverseRecOn with
  | nil => simp
  | append_singleton B b ih =>
    rw [← List.append_assoc, bitPoly_concat, ih, bitPoly_concat, List.length_append, List.length_singleton]
    ring

theorem bitPoly_true_cons (B : List Bool) : bitPoly (true :: B) = X ^ B.length + bitPoly B := by
  rw [← List.singleton_append, bitPoly_append]
  simp

@[simp] theorem bitPoly_false_cons (B : List Bool) : bitPoly (false :: B) = bitPoly B := by
  rw [← List.singleton_append, bitPoly_append]
  simp

theorem degree_bitPoly_lt (B : List Bool) : (bitPoly B).degree < B.length := by
  induction B with
  | nil => simp
  | cons b B ih =>
    have hlt : (B.length : WithBot ℕ) < (b :: B).length := Nat.cast_lt.2 (Nat.lt_succ_self _)
    cases b with
    | false => exact bitPoly_false_cons B ▸ ih.trans hlt
    | true =>
      rw [bitPoly_true_cons]
      exact (degree_add_le _ _).trans_lt (max_lt (degree_X_pow_le _ |>.trans_lt hlt) (ih.trans hlt))

theorem monic_bitPoly (g : List Bool) : (bitPoly (true :: g)).Monic :=
  bitPoly_true_cons g ▸ monic_X_pow_add (degree_bitPoly_lt g)

theorem degree_bitPoly_true_cons (g : List Bool) : (bitPoly (true :: g)).degree = g.length := by
  rw [bitPoly_true_cons, degree_add_eq_left_of_degree_lt (by simpa using degree_bitPoly_lt g), degree_X_pow]

/-- Bit lists of one length are told apart by their polynomials. -/
theorem bitPoly_inj {A B : List Bool} (hlen : A.length = B.length) (h : bitPoly A = bitPoly B) : A = B := by
  induction A generalizing B with
  | nil => exact (List.length_eq_zero_iff.1 hlen.symm).symm
  | cons a A ih =>
    cases B with
    | nil => cases hlen
    | cons b B =>
      have hlen' : A.length = B.length := Nat.succ.inj hlen
      have hdeg := congrArg degree h
      cases a <;> cases b
      · rw [ih hlen' (by simpa using h)]
      · rw [bitPoly_false_cons, degree_bitPoly_true_cons, ← hlen'] at hdeg
        exact absurd hdeg (degree_bitPoly_lt A).ne
      · rw [bitPoly_false_cons, degree_bitPoly_true_cons, hlen'] at hdeg
        exact absurd hdeg.symm (degree_bitPoly_lt B).ne
      · rw [bitPoly_true_cons, bitPoly_true_cons, hlen'] at h
        rw [ih hlen' (add_left_cancel h)]

theorem bitPoly_replicate_false (n : ℕ) : bitPoly (List.replicate n false) = 0 := by
  induction n with
  | zero => rfl
  | succ n ih => rw [List.replicate_succ, bitPoly_false_cons, ih]

theorem bitPoly_eq_zero_iff {B : List Bool} : bitPoly B = 0 ↔ true ∉ B := by
  have hrep : true ∉ B ↔ B = List.replicate B.length false := by
    exact ⟨fun h => List.eq_replicate_iff.2 ⟨rfl, fun b hb => Bool.eq_false_iff.2 fun hb' => h (hb' ▸ hb)⟩,
      fun h => h ▸ by simp⟩
  rw [hrep]
  constructor
  · exact fun h => bitPoly_inj (by simp) (h.trans (bitPoly_replicate_false _).symm)
  · exact fun h => h ▸ bitPoly_replicate_false _

theorem bitPoly_zipWith_xor {A B : List Bool} (h : A.length = B.length) :
    bitPoly (List.zipWith xor A B) = bitPoly A + bitPoly B := by
  induction A generalizing B with
  | nil => rw [List.length_eq_zero_iff.1 h.symm]; simp
  | cons a A ih =>
    cases B with
    | nil => cases h
    | cons b B =>
      have h' : A.length = B.length := Nat.succ.inj h
      have hlen : (List.zipWith xor A B).length = B.length := by simp [h']
      have hself : (X : (ZMod 2)[X]) ^ B.length + X ^ B.length = 0 := CharTwo.add_self_eq_zero _
      rw [List.zipWith_cons_cons]
      cases a <;> cases b <;>
        simp only [Bool.xor_false, Bool.xor_true, Bool.not_true, Bool.not_false,
          bitPoly_false_cons, bitPoly_true_cons, ih h', hlen, h']
      · ring
      · ring
      · linear_combination -hself

/-- A flipped bit adds the power at its place. -/
theorem bitPoly_set_not {B : List Bool} {k : ℕ} (h : k < B.length) :
    bitPoly (B.set k (!B.getD k false)) = bitPoly B + X ^ (B.length - 1 - k) := by
  induction B generalizing k with
  | nil => cases h
  | cons b B ih =>
    cases k with
    | zero =>
      have hself : (X : (ZMod 2)[X]) ^ B.length + X ^ B.length = 0 := CharTwo.add_self_eq_zero _
      cases b
      · simp [bitPoly_true_cons, add_comm]
      · simp [bitPoly_true_cons]
        linear_combination -hself
    | succ k =>
      have hk : k < B.length := Nat.lt_of_succ_lt_succ h
      have hexp : (b :: B).length - 1 - (k + 1) = B.length - 1 - k := by simp; omega
      rw [List.set_cons_succ, List.getD_cons_succ, hexp]
      cases b <;> simp only [bitPoly_false_cons, bitPoly_true_cons, ih hk, List.length_set, add_assoc]

/-! ## The divisor's leading bit (43_crc.md R178) -/

/-- The XOR of a step clears the leading bit or leaves it, and the shift drops it. -/
theorem xorRow_tail_cons (W g : List Bool) (b c : Bool) : (xorRow W (b :: g)).tail = (xorRow W (c :: g)).tail := by
  cases W with
  | nil => rfl
  | cons w W => cases w <;> rfl

theorem crcWindow_cons (g W pending : List Bool) (b c : Bool) (j : ℕ) :
    crcWindow (b :: g) W pending j = crcWindow (c :: g) W pending j := by
  induction j with
  | zero => rfl
  | succ j ih => rw [crcWindow_succ, crcWindow_succ, ih, xorRow_tail_cons _ g b c]

/-- A window of another length than the divisor's fails at its first `xor` (40_bitstring.md R104). -/
theorem crcSteps_of_length_ne {G W : List Bool} (h : W.length ≠ G.length) (pending : List Bool) :
    crcSteps G W pending = .error .lengthMismatch := by
  cases pending <;> simp [crcSteps, xorBits, h]

theorem crcdiv_cons (Dv g : List Bool) (b c : Bool) : crcdiv Dv (b :: g) = crcdiv Dv (c :: g) := by
  change crcSteps (b :: g) (Dv.take (g.length + 1)) (Dv.drop (g.length + 1)) =
    crcSteps (c :: g) (Dv.take (g.length + 1)) (Dv.drop (g.length + 1))
  by_cases hW : (Dv.take (g.length + 1)).length = g.length + 1
  · rw [crcSteps_eq hW (Nat.le_add_left ..), crcSteps_eq hW (Nat.le_add_left ..), crcWindow_cons g _ _ b c,
      xorRow_tail_cons _ g b c]
    congr 3
    funext j
    rw [crcWindowRecord, crcWindowRecord, crcWindow_cons g _ _ b c]
  · rw [crcSteps_of_length_ne hW, crcSteps_of_length_ne hW]

/-! ## The remainder as a polynomial (43_crc.md R174) -/

/-- A step subtracts a multiple of the divisor, whatever bits follow the window. -/
theorem bitPoly_dvd_step {g W : List Bool} (hW : W.length = g.length + 1) (B : List Bool) :
    bitPoly (true :: g) ∣ bitPoly (W ++ B) - bitPoly ((xorRow W (true :: g)).tail ++ B) := by
  cases W with
  | nil => cases hW
  | cons w W =>
    cases w with
    | false => simp [xorRow]
    | true =>
      have htail : (xorRow (true :: W) (true :: g)).tail = List.zipWith xor W g := rfl
      have hlen : W.length = g.length := Nat.succ.inj hW
      rw [htail, bitPoly_append, bitPoly_append, bitPoly_zipWith_xor hlen, bitPoly_true_cons, bitPoly_true_cons, hlen]
      exact ⟨X ^ B.length, by linear_combination (-(X ^ B.length) * CharTwo.add_self_eq_zero (bitPoly g))⟩

/-- All the steps together subtract a multiple of the divisor. -/
theorem bitPoly_dvd_steps {g W : List Bool} (hW : W.length = g.length + 1) (pending : List Bool) :
    bitPoly (true :: g) ∣ bitPoly (W ++ pending) -
      bitPoly (xorRow (crcWindow (true :: g) W pending pending.length) (true :: g)).tail := by
  induction pending generalizing W with
  | nil => simpa [crcWindow] using bitPoly_dvd_step hW []
  | cons d pending ih =>
    have hnext : ((xorRow W (true :: g)).tail ++ [d]).length = g.length + 1 :=
      crcWindow_length (G := true :: g) hW (Nat.le_add_left ..) (d :: pending) 1
    have hrest := ih hnext
    rw [List.append_assoc, List.singleton_append] at hrest
    simpa [crcWindow] using dvd_add (bitPoly_dvd_step hW (d :: pending)) hrest

/-- What is left of a dividend after subtracting multiples of the divisor, in fewer bits than the divisor has, is the
remainder. -/
theorem bitPoly_eq_modByMonic {Dv g R : List Bool} (hlen : R.length = g.length)
    (h : bitPoly (true :: g) ∣ bitPoly Dv - bitPoly R) : bitPoly R = bitPoly Dv %ₘ bitPoly (true :: g) := by
  rw [modByMonic_eq_of_dvd_sub (monic_bitPoly g) h]
  refine ((modByMonic_eq_self_iff (monic_bitPoly g)).2 ?_).symm
  rw [degree_bitPoly_true_cons, ← hlen]
  exact degree_bitPoly_lt R

/-- What the divider answers, whatever the divisor's leading bit. -/
theorem crcdiv_remainder {Dv g R : List Bool} {b : Bool} {recs : List TraceRecord} (hD : g.length < Dv.length)
    (h : crcdiv Dv (b :: g) = .ok (R, recs)) :
    R.length = g.length ∧ bitPoly (true :: g) ∣ bitPoly Dv - bitPoly R := by
  have hW : (Dv.take (g.length + 1)).length = g.length + 1 := by simp; omega
  have hdvd := bitPoly_dvd_steps hW (Dv.drop (g.length + 1))
  rw [List.take_append_drop] at hdvd
  rw [crcdiv_cons Dv g b true, crcdiv, List.length_cons, crcSteps_eq hW (Nat.le_add_left ..)] at h
  cases h
  refine ⟨?_, hdvd⟩
  rw [List.length_tail, xorRow_length (crcWindow_length hW (Nat.le_add_left ..) _ _), List.length_cons,
    Nat.add_sub_cancel]

/-- The remainder's length and polynomial determine it. -/
theorem crcdiv_of_remainder {Dv g R : List Bool} (b : Bool) (hD : g.length < Dv.length) (hlen : R.length = g.length)
    (hR : bitPoly (true :: g) ∣ bitPoly Dv - bitPoly R) : ∃ recs, crcdiv Dv (b :: g) = .ok (R, recs) := by
  obtain ⟨R', recs, h, -⟩ := crcdiv_ok (G := b :: g) (Nat.le_add_left ..) hD
  obtain ⟨hlen', hR'⟩ := crcdiv_remainder hD h
  have hpoly : bitPoly R' = bitPoly R :=
    (bitPoly_eq_modByMonic hlen' hR').trans (bitPoly_eq_modByMonic hlen hR).symm
  exact ⟨recs, bitPoly_inj (hlen'.trans hlen.symm) hpoly ▸ h⟩

/-! ## Codewords (43_crc.md R179, R180) -/

/-- Data with the remainder of the padded data is a multiple of the divisor. -/
theorem bitPoly_dvd_codeword {D g R : List Bool} {b : Bool} {recs : List TraceRecord} (hD : D ≠ [])
    (h : crcdiv (D ++ zeros g.length) (b :: g) = .ok (R, recs)) :
    R.length = g.length ∧ bitPoly (true :: g) ∣ bitPoly (D ++ R) := by
  have hpos : 0 < D.length := List.length_pos_iff.2 hD
  obtain ⟨hlen, hdvd⟩ := crcdiv_remainder (by rw [List.length_append, zeros_length]; omega) h
  refine ⟨hlen, ?_⟩
  rwa [bitPoly_append, zeros_length, zeros, bitPoly_replicate_false, add_zero, CharTwo.sub_eq_add, ← hlen,
    ← bitPoly_append] at hdvd

/-- A codeword leaves remainder 0. -/
theorem crcdiv_codeword {D g R : List Bool} {b : Bool} {recs : List TraceRecord} (hD : D ≠ [])
    (h : crcdiv (D ++ zeros g.length) (b :: g) = .ok (R, recs)) :
    ∃ recs', crcdiv (D ++ R) (b :: g) = .ok (zeros g.length, recs') := by
  have hpos : 0 < D.length := List.length_pos_iff.2 hD
  obtain ⟨hlen, hdvd⟩ := bitPoly_dvd_codeword hD h
  refine crcdiv_of_remainder b (by rw [List.length_append]; omega) (zeros_length _) ?_
  rwa [zeros, bitPoly_replicate_false, sub_zero]

/-- The monic divisors of a power of `x` are its powers: none has a 1 after its leading bit. -/
theorem not_bitPoly_dvd_X_pow {g : List Bool} (h : true ∈ g) (n : ℕ) : ¬ bitPoly (true :: g) ∣ X ^ n := by
  intro hdvd
  obtain ⟨i, -, hassoc⟩ := (dvd_prime_pow prime_X n).1 hdvd
  have heq : bitPoly (true :: g) = X ^ i := eq_of_monic_of_associated (monic_bitPoly g) (monic_X_pow i) hassoc
  have hdeg := congrArg degree heq
  rw [degree_bitPoly_true_cons, degree_X_pow, Nat.cast_inj] at hdeg
  rw [bitPoly_true_cons, hdeg, add_eq_left] at heq
  exact bitPoly_eq_zero_iff.1 heq h

/-- Under a divisor with a 1 after its leading bit, a codeword with one bit inverted leaves a remainder that is not 0:
it is a power of `x` away from a multiple of the divisor. -/
theorem crcdiv_codeword_set_not {D g R : List Bool} {b : Bool} {recs : List TraceRecord} (hD : D ≠ [])
    (h : crcdiv (D ++ zeros g.length) (b :: g) = .ok (R, recs)) (hg : true ∈ g) {k : ℕ} (hk : k < (D ++ R).length) :
    ∃ R' recs', crcdiv ((D ++ R).set k (!(D ++ R).getD k false)) (b :: g) = .ok (R', recs') ∧ true ∈ R' := by
  have hpos : 0 < D.length := List.length_pos_iff.2 hD
  obtain ⟨hlen, hcode⟩ := bitPoly_dvd_codeword hD h
  have hD' : g.length < ((D ++ R).set k (!(D ++ R).getD k false)).length := by
    rw [List.length_set, List.length_append]
    omega
  obtain ⟨R', recs', h', -⟩ := crcdiv_ok (G := b :: g) (Nat.le_add_left ..) hD'
  refine ⟨R', recs', h', by_contra fun hzero => ?_⟩
  obtain ⟨-, hflip⟩ := crcdiv_remainder hD' h'
  rw [bitPoly_eq_zero_iff.2 hzero, sub_zero, bitPoly_set_not hk] at hflip
  exact not_bitPoly_dvd_X_pow hg _ ((dvd_add_right hcode).1 hflip)

/-- A divisor without a 1 after its leading bit is a power of `x`, and leaves the low bits. -/
theorem crcdiv_of_tail_zero {D g : List Bool} (b : Bool) (hD : g.length < D.length) (hg : true ∉ g) :
    ∃ recs, crcdiv D (b :: g) = .ok (D.drop (D.length - g.length), recs) := by
  have hlen : (D.drop (D.length - g.length)).length = g.length := by
    rw [List.length_drop]
    omega
  have hsplit : bitPoly D =
      bitPoly (D.take (D.length - g.length)) * X ^ g.length + bitPoly (D.drop (D.length - g.length)) := by
    conv_lhs => rw [← List.take_append_drop (D.length - g.length) D, bitPoly_append, hlen]
  refine crcdiv_of_remainder b hD hlen ?_
  rw [bitPoly_true_cons, bitPoly_eq_zero_iff.2 hg, add_zero, hsplit, add_sub_cancel_right]
  exact dvd_mul_left _ _

/-! ## The statements -/

/-- Settles O44: the leading bit of the divisor meets only the window's, which the shift drops (`crcdiv_cons`). -/
theorem divisorLeadingBitHasNoEffect : Obligations.DivisorLeadingBitHasNoEffect :=
  fun Dv g => crcdiv_cons Dv g false true

/-- Settles O43: the steps subtract multiples of the divisor, down to `k - 1` bits (`crcdiv_remainder`). -/
theorem crcRemainderIsPolynomialRemainder : Obligations.CrcRemainderIsPolynomialRemainder := by
  intro Dv G hG hD hlead
  obtain ⟨g, rfl⟩ := List.head?_eq_some_iff.1 hlead
  obtain ⟨R, recs, h, hR, hrecs⟩ := crcdiv_ok (by omega) hD
  obtain ⟨hlen, hdvd⟩ := crcdiv_remainder hD h
  exact ⟨R, recs, h, hR, hrecs, bitPoly_eq_modByMonic hlen hdvd⟩

/-- Settles O48: `crcdiv_codeword_set_not` for a divisor with a 1 after its leading bit, `crcdiv_of_tail_zero` for any
other. -/
theorem crcDetectsSingleFlips : Obligations.CrcDetectsSingleFlips := by
  intro D G hG hGD
  cases G with
  | nil => cases hG
  | cons b g =>
    refine ⟨fun hg R recs h k hk => ?_, crcdiv_of_tail_zero b (Nat.lt_of_succ_lt hGD)⟩
    exact crcdiv_codeword_set_not (List.ne_nil_of_length_pos (Nat.zero_lt_of_lt hGD)) h hg
      (List.length_append ▸ hk)

end Sys2Proof.Machine
end

section
/-! PROOFS. CRC.GEN and CRC.CHK as commands (spec/43_crc.md R171, R175, R176, R179): which operands they refuse, and that
a generated codeword checks clean. With it, the statements O29 and O47. -/

namespace Sys2Proof.Machine

/-! ## CRC operands (43_crc.md R171) -/

theorem binaryDivisor_iff {s : State} : s.binaryDivisor ↔ ∀ x ∈ divisor s.op, isBin x = true :=
  forall₂_congr fun _ _ => isBin_iff.symm

theorem checkCrc_error_cases {S G : List Symbol} {e : ErrorCode} (h : checkCrc S G = .error e) :
    let nonempty := S.length ≠ 0 ∧ G.length ≠ 0
    let binary := (∀ x ∈ S, isBin x = true) ∧ ∀ x ∈ G, isBin x = true
    (¬ nonempty ∧ e = .invalidEmpty) ∨
    (nonempty ∧ ¬ binary ∧ e = .invalidSymbol) ∨
    (nonempty ∧ binary ∧ G.length < 2 ∧ e = .divisorTooShort) ∨
    (nonempty ∧ binary ∧ 2 ≤ G.length ∧ S.length ≤ G.length ∧ e = .divisorTooLong) := by
  intro nonempty binary
  have hbin : (!(S.all isBin && G.all isBin)) = true ↔ ¬ binary := by
    rw [Bool.not_eq_true', ← Bool.not_eq_true, Bool.and_eq_true, List.all_eq_true, List.all_eq_true]
  unfold checkCrc at h
  split_ifs at h with hempty hsym hshort hlong <;> cases h
  · exact .inl ⟨fun ⟨hS, hG⟩ => hempty.elim hS hG, rfl⟩
  · exact .inr (.inl ⟨not_or.1 hempty, hbin.1 hsym, rfl⟩)
  · exact .inr (.inr (.inl ⟨not_or.1 hempty, not_not.1 (mt hbin.2 hsym), hshort, rfl⟩))
  · exact .inr (.inr (.inr ⟨not_or.1 hempty, not_not.1 (mt hbin.2 hsym), Nat.le_of_not_lt hshort, hlong, rfl⟩))

section
variable {S T : List Symbol} {D G : List Bool}

/-- On operands that pass the check, the divider answers for the padded data. -/
theorem crcdiv_padded_of_check (h : checkCrc S T = .ok (D, G)) :
    ∃ R recs, crcdiv (D ++ zeros (G.length - 1)) G = .ok (R, recs) ∧ R.length = T.length - 1 := by
  obtain ⟨h2, hlt, -, -, hp⟩ := checkCrc_ok.1 h
  cases hp
  obtain ⟨R, recs, hdiv, hR, -⟩ := crcdiv_ok (Dv := bits S ++ zeros ((bits T).length - 1)) (G := bits T)
    (by rw [bits_length]; omega) (by rw [List.length_append, zeros_length, bits_length, bits_length]; omega)
  exact ⟨R, recs, hdiv, bits_length T ▸ hR⟩

/-- On operands that pass the check, the divider answers for the received word. -/
theorem crcdiv_of_check (h : checkCrc S T = .ok (D, G)) : ∃ R recs, crcdiv D G = .ok (R, recs) := by
  obtain ⟨h2, hlt, -, -, hp⟩ := checkCrc_ok.1 h
  cases hp
  obtain ⟨R, recs, hdiv, -, -⟩ := crcdiv_ok (Dv := bits S) (G := bits T)
    (by rw [bits_length]; omega) (by rw [bits_length, bits_length]; exact hlt.le)
  exact ⟨R, recs, hdiv⟩

end

/-- In range both commands raise what the CRC check answers, and nothing else. -/
theorem exec_crc_err {i : Instr} {s : State} (hi : i = .crcGen ∨ i = .crcChk)
    (hn : s.op.ilen.toNat ≤ s.params.imax) (hd : s.op.dlen.toNat ≤ s.params.dmax) :
    (∀ e, checkCrc (operand s.op) (divisor s.op) = .error e → ∃ t, exec i s = .next t ∧ t.res.status.err = e) ∧
    ∀ p, checkCrc (operand s.op) (divisor s.op) = .ok p → ∃ t, exec i s = .next t ∧ t.res.status.err = .none := by
  obtain rfl | rfl := hi
  · refine ⟨fun e hc => ⟨_, exec_of_rule_error hn (fun _ => hd) (crcGenRule_of_error _ hc), rfl⟩, fun p hc => ?_⟩
    obtain ⟨R, recs, hdiv, -⟩ := crcdiv_padded_of_check hc
    exact ⟨_, exec_of_rule_ok hn (fun _ => hd) (crcGenRule_of_ok _ hc hdiv), rfl⟩
  · refine ⟨fun e hc => ⟨_, exec_of_rule_error hn (fun _ => hd) (crcChkRule_of_error _ hc), rfl⟩, fun p hc => ?_⟩
    obtain ⟨R, recs, hdiv⟩ := crcdiv_of_check hc
    exact ⟨_, exec_of_rule_ok hn (fun _ => hd) (crcChkRule_of_ok _ hc hdiv), rfl⟩

/-! ## What the commands leave (43_crc.md R175, R176) -/

/-- CRC.GEN that ends without error leaves data and remainder. -/
theorem crcGen_output {s t : State} (h : exec .crcGen s = .next t) (he : t.res.status.err = .none) :
    ∃ D G R recs, checkCrc (operand s.op) (divisor s.op) = .ok (D, G) ∧
      crcdiv (D ++ zeros (G.length - 1)) G = .ok (R, recs) ∧ output t.res = syms (D ++ R) := by
  obtain ⟨r1, hrule, hres⟩ := rule_ok_of_err_none h he
  change crcGenRule s.op (clearResults s.res) = .ok r1 at hrule
  cases hc : checkCrc (operand s.op) (divisor s.op) with
  | error e =>
    rw [crcGenRule_of_error _ hc] at hrule
    cases hrule
  | ok p =>
    obtain ⟨R, recs, hdiv, hR⟩ := crcdiv_padded_of_check hc
    rw [crcGenRule_of_ok _ hc hdiv] at hrule
    cases hrule
    obtain ⟨-, -, hbin, -, rfl⟩ := checkCrc_ok.1 hc
    have hlen : (operand s.op ++ syms R).length < 2 ^ 32 := by
      rw [List.length_append, syms_length, hR, divisor_length, operand_length]
      omega
    refine ⟨_, _, R, recs, rfl, hdiv, ?_⟩
    rw [syms_append, syms_bits hbin, hres]
    exact output_emit _ _ (traceAll_obuf _ _) hlen

/-- A codeword passes the check with the divisor that generated it. -/
theorem checkCrc_codeword {S T : List Symbol} {D G : List Bool} (h : checkCrc S T = .ok (D, G)) (R : List Bool) :
    checkCrc (syms (D ++ R)) T = .ok (D ++ R, G) := by
  obtain ⟨h2, hlt, -, hT, hp⟩ := checkCrc_ok.1 h
  cases hp
  refine checkCrc_ok.2 ⟨h2, ?_, syms_all_bin _, hT, by rw [bits_syms]⟩
  rw [syms_length, List.length_append, bits_length]
  omega

/-- A generated codeword leaves remainder 0 under its divisor. -/
theorem crcdiv_codeword_of_check {S T : List Symbol} {D G R : List Bool} {recs : List TraceRecord}
    (h : checkCrc S T = .ok (D, G)) (hdiv : crcdiv (D ++ zeros (G.length - 1)) G = .ok (R, recs)) :
    ∃ recs', crcdiv (D ++ R) G = .ok (zeros (G.length - 1), recs') := by
  obtain ⟨h2, hlt, -, -, hp⟩ := checkCrc_ok.1 h
  have hD : D.length = S.length := by cases hp; exact bits_length S
  have hG : G.length = T.length := by cases hp; exact bits_length T
  cases G with
  | nil => exact absurd hG.symm (Nat.ne_zero_of_lt h2)
  | cons b g => exact crcdiv_codeword (List.ne_nil_of_length_pos (hD ▸ Nat.zero_lt_of_lt hlt)) hdiv

/-- The verdict of CRC.CHK is whether the remainder has a 1. -/
theorem exec_crcChk_status {s : State} {C G R : List Bool} {recs : List TraceRecord}
    (hn : s.op.ilen.toNat ≤ s.params.imax) (hd : s.op.dlen.toNat ≤ s.params.dmax)
    (hc : checkCrc (operand s.op) (divisor s.op) = .ok (C, G)) (hdiv : crcdiv C G = .ok (R, recs)) :
    ∃ t, exec .crcChk s = .next t ∧ t.res.status = finished (if true ∈ R then .detected else .clean) .none :=
  ⟨_, exec_of_rule_ok (i := .crcChk) hn (fun _ => hd) (crcChkRule_of_ok _ hc hdiv), by rw [← verdict_ones]; rfl⟩

/-! ## The statements -/

/-- Settles O29: the errors are those of the CRC check (`checkCrc_error_cases`, `checkCrc_ok`). -/
theorem crcOperandChecks : Obligations.CrcOperandChecks := by
  intro s i hi hn hd nonempty binary
  obtain ⟨hraise, hend⟩ := exec_crc_err hi hn hd
  have hnonempty : nonempty ↔ s.op.ilen.toNat ≠ 0 ∧ s.op.dlen.toNat ≠ 0 := Iff.rfl
  have hbinary : binary ↔ (∀ x ∈ operand s.op, isBin x = true) ∧ ∀ x ∈ divisor s.op, isBin x = true :=
    and_congr binaryOperand_iff binaryDivisor_iff
  clear_value nonempty binary
  cases hc : checkCrc (operand s.op) (divisor s.op) with
  | error e =>
    obtain ⟨t, hexec, ht⟩ := hraise e hc
    have hcases := checkCrc_error_cases hc
    simp only [operand_length, divisor_length, ← hbinary, ← hnonempty] at hcases
    refine ⟨t, hexec, ?_⟩
    rw [ht]
    obtain ⟨h0, rfl⟩ | ⟨h0, hb, rfl⟩ | ⟨h0, hb, hshort, rfl⟩ | ⟨h0, hb, h2, hlong, rfl⟩ := hcases
    · have hlen : 2 ≤ s.op.dlen.toNat → s.op.ilen.toNat ≤ s.op.dlen.toNat :=
        fun h2 => Nat.le_of_not_lt fun hlt => h0 (hnonempty.2 ⟨by omega, by omega⟩)
      simpa [h0] using fun _ => hlen
    · simp [h0, hb]
    · simp [h0, hb, hshort]
    · simp [h0, hb, h2, h2.not_gt, hlong]
  | ok p =>
    obtain ⟨t, hexec, ht⟩ := hend p hc
    obtain ⟨h2, hlt, hS, hG, -⟩ := checkCrc_ok.1 hc
    rw [divisor_length] at h2 hlt
    rw [operand_length] at hlt
    have h0 : nonempty := hnonempty.2 ⟨by omega, by omega⟩
    have hb : binary := hbinary.2 ⟨hS, hG⟩
    refine ⟨t, hexec, ?_⟩
    rw [ht]
    simp [h0, hb, h2, h2.not_gt, hlt]

/-- Settles O47: a codeword leaves remainder 0 (`crcdiv_codeword`). -/
theorem crcRoundTrip : Obligations.CrcRoundTrip := by
  intro s t u _ hgen herr hop hdv hn hd
  obtain ⟨D, G, R, recs, hc, hdiv, hout⟩ := crcGen_output hgen herr
  obtain ⟨recs', hzero⟩ := crcdiv_codeword_of_check hc hdiv
  obtain ⟨v, hexec, hv⟩ := exec_crcChk_status hn hd (by rw [hop, hout, hdv]; exact checkCrc_codeword hc R) hzero
  exact ⟨v, hexec, by simpa [zeros] using hv⟩

end Sys2Proof.Machine
end

section
/-! PROOFS. The arithmetic of the checksum unit (spec/44_checksum.md R193 to R199): the exact sum with its records,
`fold` as the sum with end-around carry, and which last byte a sum accepts. With it, the statements O49 and O52. -/

namespace Sys2Proof.Machine

/-! ## The exact sum (44_checksum.md R193) -/

theorem accumulate_total (t : Nat) (Bv : List Nat) : (accumulate t Bv).1 = t + Bv.sum := by
  induction Bv generalizing t with
  | nil => rfl
  | cons b Bv ih => rw [accumulate, ih, List.sum_cons, Nat.add_assoc]

/-- Record `j` reports byte `j` and the sum up to it (10_state.md R38). -/
theorem accumulate_records (t : Nat) (Bv : List Nat) :
    (accumulate t Bv).2 = Bv.mapIdx fun j b => csumRecord b (t + (Bv.take (j + 1)).sum) := by
  induction Bv generalizing t with
  | nil => rfl
  | cons b Bv ih =>
    rw [accumulate, ih, List.mapIdx_cons]
    simp only [List.take_succ_cons, List.take_zero, List.sum_cons, List.sum_nil, Nat.add_assoc, Nat.add_zero]

/-- The trace of a checksum command on these bytes (44_checksum.md R193). -/
def csumRecords (Bv : List Nat) : List TraceRecord := Bv.mapIdx fun j b => csumRecord b (Bv.take (j + 1)).sum

@[simp] theorem csumRecords_length (Bv : List Nat) : (csumRecords Bv).length = Bv.length := List.length_mapIdx

theorem accumulate_zero (Bv : List Nat) : accumulate 0 Bv = (Bv.sum, csumRecords Bv) := by
  refine Prod.ext ?_ ?_
  · rw [accumulate_total, Nat.zero_add]
  · simp only [accumulate_records, Nat.zero_add, csumRecords]

/-! ## `fold` (44_checksum.md R194, R195) -/

/-- One pass adds the high part to the low byte. -/
theorem fold_pass (t : Nat) : (t &&& 0xFF) + (t >>> 8) = t % 256 + t / 256 := by
  rw [Nat.shiftRight_eq_div_pow, show (0xFF : Nat) = 2 ^ 8 - 1 from rfl, Nat.and_two_pow_sub_one_eq_mod]

/-- `t = 256 * q + r` and `q + r` agree modulo 255, and a pass lowers every `t` above 0xFF. -/
theorem foldFrom_spec {fuel t : Nat} (h : t ≤ fuel) :
    foldFrom fuel t ≤ 0xFF ∧ foldFrom fuel t % 255 = t % 255 ∧ (foldFrom fuel t = 0 ↔ t = 0) := by
  induction fuel generalizing t with
  | zero =>
    obtain rfl : t = 0 := Nat.le_zero.1 h
    decide
  | succ fuel ih =>
    rw [foldFrom, fold_pass]
    split_ifs with hbig
    · obtain ⟨hle, hmod, hzero⟩ := ih (t := t % 256 + t / 256) (by omega)
      exact ⟨hle, by omega, by omega⟩
    · exact ⟨Nat.le_of_not_lt hbig, rfl, Iff.rfl⟩

theorem fold_le (t : Nat) : fold t ≤ 0xFF := (foldFrom_spec (Nat.le_refl t)).1

theorem fold_mod (t : Nat) : fold t % 255 = t % 255 := (foldFrom_spec (Nat.le_refl t)).2.1

theorem fold_eq_zero (t : Nat) : fold t = 0 ↔ t = 0 := (foldFrom_spec (Nat.le_refl t)).2.2

theorem fold_eq_255 (t : Nat) : fold t = 255 ↔ 0 < t ∧ t % 255 = 0 := by
  have hle := fold_le t
  have hmod := fold_mod t
  have hzero := fold_eq_zero t
  omega

/-- Bound, residue and the zero case determine `fold`. -/
theorem fold_eq_of_mod {t u : Nat} (hmod : t % 255 = u % 255) (hzero : t = 0 ↔ u = 0) : fold t = fold u := by
  have ht := fold_mod t
  have hu := fold_mod u
  have htz := fold_eq_zero t
  have huz := fold_eq_zero u
  have htl := fold_le t
  have hul := fold_le u
  omega

/-- A sum may be folded before the next addition. -/
theorem fold_fold_add (a b : Nat) : fold (fold a + b) = fold (a + b) := by
  have hmod := fold_mod a
  have hzero := fold_eq_zero a
  exact fold_eq_of_mod (by omega) (by omega)

theorem foldl_fold_add (a : Nat) (Bv : List Nat) :
    Bv.foldl (fun f b => fold (f + b)) (fold a) = fold (a + Bv.sum) := by
  induction Bv generalizing a with
  | nil => rfl
  | cons b Bv ih => rw [List.foldl_cons, fold_fold_add, ih, List.sum_cons, Nat.add_assoc]

/-! ## The checksum byte (44_checksum.md R194, R196, R197) -/

theorem reduce_lt (t : Nat) (v : ChecksumVariant) : reduce t v < 256 := by
  cases v with
  | mod256 => exact Nat.mod_lt t (by decide)
  | ones => exact Nat.lt_succ_of_le (fold_le t)

theorem checksumOf_lt (f : Nat) (v : ChecksumVariant) : checksumOf f v < 256 := by
  cases v with
  | mod256 => exact Nat.mod_lt _ (by decide)
  | ones => exact Nat.lt_succ_of_le (Nat.sub_le 255 f)

theorem expectedChecksum_eq (Bd : List Nat) (v : ChecksumVariant) :
    expectedChecksum Bd v = checksumOf (reduce Bd.sum v) v := by
  rw [expectedChecksum, accumulate_total, Nat.zero_add]

theorem expectedChecksum_lt (Bd : List Nat) (v : ChecksumVariant) : expectedChecksum Bd v < 256 :=
  checksumOf_lt _ v

/-- Variant 0 accepts the one byte that completes the sum to a multiple of 256 (44_checksum.md R198). -/
theorem mod256_accepts_iff (Bd : List Nat) {c : Nat} (hc : c < 256) :
    reduce (Bd.sum + c) .mod256 = acceptedSum .mod256 ↔ c = expectedChecksum Bd .mod256 := by
  simp only [expectedChecksum_eq, checksumOf, reduce, acceptedSum]
  omega

/-- Variant 1 accepts the bytes that complete the sum to a positive multiple of 255 (44_checksum.md R199). -/
theorem ones_accepts_iff (Bd : List Nat) {c : Nat} (hc : c < 256) :
    reduce (Bd.sum + c) .ones = acceptedSum .ones ↔
      c = expectedChecksum Bd .ones ∨ fold Bd.sum = 0xFF ∧ c = 0xFF := by
  have hle := fold_le Bd.sum
  have hmod := fold_mod Bd.sum
  have hzero := fold_eq_zero Bd.sum
  rw [expectedChecksum_eq, reduce, acceptedSum, fold_eq_255, reduce, checksumOf]
  omega

/-- The sum with its own checksum is accepted, in each variant. -/
theorem reduce_add_expectedChecksum (Bd : List Nat) (v : ChecksumVariant) :
    reduce (Bd.sum + expectedChecksum Bd v) v = acceptedSum v := by
  cases v with
  | mod256 => exact (mod256_accepts_iff Bd (expectedChecksum_lt Bd _)).2 rfl
  | ones => exact (ones_accepts_iff Bd (expectedChecksum_lt Bd _)).2 (.inl rfl)

/-! ## The statements -/

/-- Settles O49: every pass keeps the residue modulo 255 and the zero case (`foldFrom_spec`), which with the bound
determine `fold`. -/
theorem foldIsEndAroundCarry : Obligations.FoldIsEndAroundCarry :=
  ⟨fun t => ⟨fold_le t, fold_mod t, fold_eq_zero t, fold_eq_255 t⟩,
    fun Bv => (foldl_fold_add 0 Bv).trans (by rw [Nat.zero_add])⟩

/-- Settles O52: what each variant accepts (`mod256_accepts_iff`, `ones_accepts_iff`); where the data fold to 0xFF, the
expected byte of variant 1 is 0x00. -/
theorem acceptedChecksumBytes : Obligations.AcceptedChecksumBytes := by
  intro Bd c _ hc
  have hones := ones_accepts_iff Bd hc
  refine ⟨mod256_accepts_iff Bd hc, fun h => ?_, fun h => ?_⟩
  · have hexp : expectedChecksum Bd .ones = 0x00 := by rw [expectedChecksum_eq, reduce, h, checksumOf]
    rw [hones, hexp]
    simp [h]
  · rw [hones]
    simp [h]

end Sys2Proof.Machine
end

section
/-! PROOFS. Hex byte tokens (spec/44_checksum.md R190, R191, R196): the tokens of a text are its maximal runs that are
not whitespace, a token's value is that of its digits, and a byte is read back from its two symbols. For the statements O30,
O50 and O53. -/

namespace Sys2Proof.Machine

/-! ## Tokens (44_checksum.md R190) -/

theorem isWhitespace_iff {x : Symbol} : isWhitespace x = true ↔ x ∈ whitespace := by
  simp [isWhitespace, whitespace, symSpace, symTab, symLF, symCR, or_assoc]

/-- The token list of some pieces. -/
def nonemptyPieces (ps : List (List Symbol)) : List (List Symbol) := ps.filter fun p => !p.isEmpty

theorem tokens_eq (S : List Symbol) : tokens S = nonemptyPieces (splitText isWhitespace S) := rfl

section
variable {x : Symbol} {S t : List Symbol} {ts : List (List Symbol)}

theorem tokenRuns_nil : tokenRuns [] [] := ⟨[], [], by simp⟩

/-- Whitespace in front adds no run. -/
theorem tokenRuns_whitespace (hx : x ∈ whitespace) (h : tokenRuns S ts) : tokenRuns (x :: S) ts := by
  obtain ⟨lead, gaps, hlen, rfl, hlead, hrest⟩ := h
  exact ⟨x :: lead, gaps, hlen, rfl, List.forall_mem_cons.2 ⟨hx, hlead⟩, hrest⟩

/-- A text that starts with whitespace and has runs has whitespace before the first of them. -/
theorem lead_ne_nil {lead : List Symbol} {gaps : List (List Symbol)} (hlen : gaps.length = ts.length)
    (hS : ∀ y ∈ (lead ++ (List.zipWith (· ++ ·) ts gaps).flatten).head?, y ∈ whitespace) (hgaps : gaps ≠ [])
    (hts : ∀ t ∈ ts, t ≠ [] ∧ ∀ y ∈ t, y ∉ whitespace) : lead ≠ [] := by
  rintro rfl
  cases ts with
  | nil => exact hgaps (List.length_eq_zero_iff.1 hlen)
  | cons t ts =>
    obtain ⟨g, gaps, rfl⟩ := List.exists_cons_of_ne_nil hgaps
    obtain ⟨hne, ht⟩ := hts t (by simp)
    obtain ⟨y, t, rfl⟩ := List.exists_cons_of_ne_nil hne
    exact ht y (by simp) (hS y (by simp))

/-- A run in front of whitespace, or of the end of the text, is the first token. -/
theorem tokenRuns_run (hne : t ≠ []) (ht : ∀ y ∈ t, y ∉ whitespace) (hS : ∀ y ∈ S.head?, y ∈ whitespace)
    (h : tokenRuns S ts) : tokenRuns (t ++ S) (t :: ts) := by
  obtain ⟨lead, gaps, hlen, rfl, hlead, hgaps, hsep, hts⟩ := h
  refine ⟨[], lead :: gaps, by simp [hlen], by simp, by simp, List.forall_mem_cons.2 ⟨hlead, hgaps⟩, ?_,
    List.forall_mem_cons.2 ⟨⟨hne, ht⟩, hts⟩⟩
  rcases eq_or_ne gaps [] with rfl | hg
  · simp
  · rw [List.dropLast_cons_of_ne_nil hg]
    exact List.forall_mem_cons.2 ⟨lead_ne_nil hlen hS hg hts, hsep⟩

/-- The same for a piece of a split, which may be empty. -/
theorem tokenRuns_piece {ps : List (List Symbol)} (ht : ∀ y ∈ t, y ∉ whitespace) (hS : ∀ y ∈ S.head?, y ∈ whitespace)
    (h : tokenRuns S (nonemptyPieces ps)) : tokenRuns (t ++ S) (nonemptyPieces (t :: ps)) := by
  cases t with
  | nil => exact h
  | cons y t => exact tokenRuns_run (List.cons_ne_nil y t) ht hS h

end

/-- The first piece of a split is what stands before the first whitespace; the other pieces are runs of the rest. -/
theorem splitText_runs {S piece : List Symbol} {rest : List (List Symbol)}
    (h : splitText isWhitespace S = piece :: rest) :
    ∃ T, S = piece ++ T ∧ (∀ y ∈ T.head?, y ∈ whitespace) ∧ (∀ y ∈ piece, y ∉ whitespace) ∧
      tokenRuns T (nonemptyPieces rest) := by
  induction S generalizing piece rest with
  | nil =>
    cases h
    exact ⟨[], rfl, by simp, by simp, tokenRuns_nil⟩
  | cons x S ih =>
    obtain ⟨piece', rest', hS⟩ := List.exists_cons_of_ne_nil (splitText_ne_nil isWhitespace S)
    obtain ⟨T, hT, hhead, hpiece, hruns⟩ := ih hS
    cases hx : isWhitespace x with
    | true =>
      rw [splitText_sep hx, hS] at h
      cases h
      have hw := isWhitespace_iff.1 hx
      exact ⟨x :: S, rfl, by simpa using hw, by simp,
        tokenRuns_whitespace hw (hT ▸ tokenRuns_piece hpiece hhead hruns)⟩
    | false =>
      rw [splitText_other hx hS] at h
      cases h
      have hw : x ∉ whitespace := fun hw => by simp [isWhitespace_iff.2 hw] at hx
      exact ⟨T, by rw [hT, List.cons_append], hhead, List.forall_mem_cons.2 ⟨hw, hpiece⟩, hruns⟩

/-- The tokens of a text are its maximal runs that are not whitespace. -/
theorem tokenRuns_tokens (S : List Symbol) : tokenRuns S (tokens S) := by
  obtain ⟨piece, rest, hS⟩ := List.exists_cons_of_ne_nil (splitText_ne_nil isWhitespace S)
  obtain ⟨T, rfl, hhead, hpiece, hruns⟩ := splitText_runs hS
  rw [tokens_eq, hS]
  exact tokenRuns_piece hpiece hhead hruns

/-- A split at a separator splits the two sides. -/
theorem splitText_append_sep {p : Symbol → Bool} {x : Symbol} (hx : p x = true) (S T : List Symbol) :
    splitText p (S ++ x :: T) = splitText p S ++ splitText p T := by
  induction S with
  | nil => exact splitText_sep hx T
  | cons y S ih =>
    cases hy : p y with
    | true => rw [List.cons_append, splitText_sep hy, ih, splitText_sep hy, List.cons_append]
    | false =>
      obtain ⟨piece, rest, hS⟩ := List.exists_cons_of_ne_nil (splitText_ne_nil p S)
      rw [hS, List.cons_append] at ih
      rw [List.cons_append, splitText_other hy ih, splitText_other hy hS, List.cons_append]

theorem splitText_of_no_sep {p : Symbol → Bool} {T : List Symbol} (h : ∀ x ∈ T, p x = false) :
    splitText p T = [T] := by
  induction T with
  | nil => rfl
  | cons x T ih =>
    obtain ⟨hx, hT⟩ := List.forall_mem_cons.1 h
    exact splitText_other hx (ih hT)

/-- A run after a space is one more token. -/
theorem tokens_append_token (S : List Symbol) {t : List Symbol} (hne : t ≠ [])
    (ht : ∀ x ∈ t, isWhitespace x = false) : tokens (S ++ [symSpace] ++ t) = tokens S ++ [t] := by
  obtain ⟨x, t, rfl⟩ := List.exists_cons_of_ne_nil hne
  rw [List.append_assoc, List.singleton_append, tokens_eq, splitText_append_sep rfl, splitText_of_no_sep ht,
    nonemptyPieces, List.filter_append]
  rfl

/-! ## Byte values (44_checksum.md R191, R196) -/

theorem hexDigits_getElem?_eq_some {d : Nat} {x : Symbol} : hexDigits[d]? = some x ↔ d < 16 ∧ x = hexsym d := by
  have hdigits : ∀ d < 16, hexDigits[d]? = some (hexsym d) := by decide
  by_cases hd : d < 16
  · rw [hdigits d hd, Option.some.injEq, eq_comm, and_iff_right hd]
  · rw [List.getElem?_eq_none (Nat.le_of_not_lt hd)]
    simp [hd]

theorem hexval_eq_some {x : Symbol} {d : Nat} : hexval x = some d ↔ hexDigits[d]? = some x := by
  have hvals : ∀ d < 16, hexval (hexsym d) = some d := by decide
  rw [hexDigits_getElem?_eq_some]
  constructor
  · intro h
    unfold hexval at h
    split_ifs at h with hdec hup <;> cases h
    · refine ⟨by omega, BitVec.eq_of_toNat_eq ?_⟩
      rw [hexsym, if_pos (by omega), BitVec.toNat_ofNat]
      omega
    · refine ⟨by omega, BitVec.eq_of_toNat_eq ?_⟩
      rw [hexsym, if_neg (by omega), BitVec.toNat_ofNat]
      omega
  · rintro ⟨hd, rfl⟩
    exact hvals d hd

theorem byteval_singleton (x : Symbol) : byteval [x] = hexval x := rfl

theorem byteval_pair {x y : Symbol} {b : Nat} :
    byteval [x, y] = some b ↔ ∃ d e, hexval x = some d ∧ hexval y = some e ∧ b = 16 * d + e := by
  cases hx : hexval x <;> cases hy : hexval y <;> simp [byteval, hx, hy, eq_comm]

theorem byteval_eq_some {t : List Symbol} {b : Nat} : byteval t = some b ↔
    (∃ x, hexDigits[b]? = some x ∧ t = [x]) ∨
    ∃ d e x y, hexDigits[d]? = some x ∧ hexDigits[e]? = some y ∧ t = [x, y] ∧ b = 16 * d + e := by
  simp only [← hexval_eq_some]
  match t with
  | [] => simp [byteval]
  | [x] => simp [byteval_singleton]
  | [x, y] => simp [byteval_pair]
  | x :: y :: z :: t => simp [byteval]

theorem byteval_lt {t : List Symbol} {b : Nat} (h : byteval t = some b) : b < 256 := by
  obtain ⟨x, hx, -⟩ | ⟨d, e, x, y, hd, he, -, rfl⟩ := byteval_eq_some.1 h
  · have := (hexDigits_getElem?_eq_some.1 hx).1
    omega
  · have := (hexDigits_getElem?_eq_some.1 hd).1
    have := (hexDigits_getElem?_eq_some.1 he).1
    omega

/-- The two symbols of a byte are its hex digits. -/
theorem hex2_eq (c : Nat) : hex2 c = [hexsym (c / 16), hexsym (c % 16)] := by
  rw [hex2, Nat.shiftRight_eq_div_pow, show (0xF : Nat) = 2 ^ 4 - 1 from rfl, Nat.and_two_pow_sub_one_eq_mod]

theorem hex2_length_lt (c : Nat) : (hex2 c).length < 2 ^ 32 := by simp [hex2]

theorem byteval_hex2 {c : Nat} (hc : c < 256) : byteval (hex2 c) = some c :=
  byteval_eq_some.2 (.inr ⟨c / 16, c % 16, _, _, hexDigits_getElem?_eq_some.2 ⟨by omega, rfl⟩,
    hexDigits_getElem?_eq_some.2 ⟨by omega, rfl⟩, hex2_eq c, by omega⟩)

theorem hex2_not_whitespace {c : Nat} (hc : c < 256) : ∀ x ∈ hex2 c, isWhitespace x = false := by
  have hdigits : ∀ d < 16, isWhitespace (hexsym d) = false := by decide
  rw [hex2_eq]
  simp [hdigits (c / 16) (by omega), hdigits (c % 16) (by omega)]

theorem bytevals_eq_some {ts : List (List Symbol)} {Bv : List Nat} :
    bytevals ts = some Bv ↔ ts.map byteval = Bv.map some := by
  induction ts generalizing Bv with
  | nil => cases Bv <;> simp [bytevals]
  | cons t ts ih =>
    cases Bv with
    | nil => cases ht : byteval t <;> cases hts : bytevals ts <;> simp [bytevals, ht, hts]
    | cons b Bv =>
      rw [List.map_cons, List.map_cons, List.cons.injEq, ← ih]
      cases ht : byteval t <;> cases hts : bytevals ts <;> simp [bytevals, ht, hts]

theorem bytevals_append_token {ts : List (List Symbol)} {Bv : List Nat} {t : List Symbol} {b : Nat}
    (hts : bytevals ts = some Bv) (ht : byteval t = some b) : bytevals (ts ++ [t]) = some (Bv ++ [b]) := by
  rw [bytevals_eq_some] at hts ⊢
  simp [hts, ht]

/-- A token list without a byte list has a token without a value. -/
theorem bytevals_eq_none {ts : List (List Symbol)} :
    bytevals ts = none ↔ ¬ ∀ t ∈ ts, (byteval t).isSome = true := by
  induction ts with
  | nil => simp [bytevals]
  | cons t ts ih =>
    rw [List.forall_mem_cons]
    cases ht : byteval t <;> cases hts : bytevals ts <;> simp [bytevals, ht, hts, ← ih]

theorem bytevals_isSome {ts : List (List Symbol)} {Bv : List Nat} (h : bytevals ts = some Bv) :
    ∀ t ∈ ts, (byteval t).isSome = true :=
  not_not.1 (mt bytevals_eq_none.2 (by simp [h]))

theorem bytevals_lt {ts : List (List Symbol)} {Bv : List Nat} (h : bytevals ts = some Bv) : ∀ b ∈ Bv, b < 256 := by
  intro b hb
  have hmem : some b ∈ ts.map byteval := bytevals_eq_some.1 h ▸ List.mem_map_of_mem hb
  obtain ⟨t, -, ht⟩ := List.mem_map.1 hmem
  exact byteval_lt ht

end Sys2Proof.Machine
end

section
/-! PROOFS. CSUM.GEN and CSUM.VER as commands (spec/44_checksum.md R192 to R200): which operands they refuse, what they
leave, and that a generated checksum token verifies clean. With it, the statements O30, O50, O51 and O53. -/

namespace Sys2Proof.Machine

/-! ## Byte operands (44_checksum.md R192) -/

theorem checkBytes_error_cases {n : Nat} {S : List Symbol} {e : ErrorCode} (h : checkBytes n S = .error e) :
    let allBytes := ∀ tok ∈ tokens S, (byteval tok).isSome = true
    (tokens S = [] ∧ e = .invalidEmpty) ∨
    (tokens S ≠ [] ∧ ¬ allBytes ∧ e = .invalidByte) ∨
    (tokens S ≠ [] ∧ allBytes ∧ (tokens S).length < n ∧ e = .tooFewTokens) := by
  unfold checkBytes at h
  split_ifs at h with hempty
  · cases h
    exact .inl ⟨List.length_eq_zero_iff.1 hempty, rfl⟩
  · have hne : tokens S ≠ [] := mt List.length_eq_zero_iff.2 hempty
    cases hB : bytevals (tokens S) with
    | none =>
      rw [hB] at h
      cases h
      exact .inr (.inl ⟨hne, bytevals_eq_none.1 hB, rfl⟩)
    | some Bv =>
      simp only [hB] at h
      split_ifs at h with hfew
      cases h
      exact .inr (.inr ⟨hne, bytevals_isSome hB, bytevals_length hB ▸ hfew, rfl⟩)

theorem checkBytes_of_bytevals {n : Nat} {S : List Symbol} {Bv : List Nat} (hB : bytevals (tokens S) = some Bv)
    (hne : Bv ≠ []) (hn : n ≤ Bv.length) : checkBytes n S = .ok Bv := by
  refine checkBytes_ok.2 ⟨fun h => hne ?_, hB, hn⟩
  rw [← List.length_eq_zero_iff, bytevals_length hB, h, List.length_nil]

/-- In range both commands raise what the byte check answers, CSUM.VER asking for two tokens, and nothing else. -/
theorem exec_csum_err {i : Instr} {v : ChecksumVariant} {s : State} {n : Nat}
    (hi : i = .csumGen v ∧ n = 1 ∨ i = .csumVer v ∧ n = 2) (hn : s.op.ilen.toNat ≤ s.params.imax) :
    (∀ e, checkBytes n (operand s.op) = .error e → ∃ t, exec i s = .next t ∧ t.res.status.err = e) ∧
    ∀ Bv, checkBytes n (operand s.op) = .ok Bv → ∃ t, exec i s = .next t ∧ t.res.status.err = .none := by
  obtain ⟨rfl, rfl⟩ | ⟨rfl, rfl⟩ := hi
  · exact ⟨fun e hc => ⟨_, exec_of_rule_error hn nofun (csumGenRule_of_error _ hc), rfl⟩,
      fun Bv hc => ⟨_, exec_of_rule_ok hn nofun (csumGenRule_of_ok _ hc), rfl⟩⟩
  · exact ⟨fun e hc => ⟨_, exec_of_rule_error hn nofun (csumVerRule_of_error _ hc), rfl⟩,
      fun Bv hc => ⟨_, exec_of_rule_ok hn nofun (csumVerRule_of_ok _ hc), rfl⟩⟩

/-! ## The bytes of an operand fit `SUM` and `TLEN` -/

section
variable {op : OperandState} {Bv : List Nat}

theorem byteList_length_lt (h : bytevals (tokens (operand op)) = some Bv) : Bv.length < 2 ^ 16 := by
  rw [bytevals_length h]
  exact (tokens_length_le _).trans_lt (operand_length op ▸ op.ilen.isLt)

theorem byteList_sum_lt (h : bytevals (tokens (operand op)) = some Bv) : Bv.sum < 2 ^ 32 := by
  have hlen := byteList_length_lt h
  have hsum := List.sum_le_card_nsmul Bv 255 fun b hb => Nat.le_of_lt_succ (bytevals_lt h b hb)
  rw [smul_eq_mul] at hsum
  omega

end

/-! ## What the commands leave (44_checksum.md R196, R197) -/

/-- A command changes nothing but the results it is listed for (10_state.md R22, R28, R37 to R39). -/
theorem exec_listed {i : Instr} {s t : State} (h : exec i s = .next t) : t = { s with res := t.res.listed i } := by
  obtain ⟨r1, hres⟩ := commandResult_listed i s.params s.op s.res
  rw [exec_next h, hres]
  cases i <;> rfl

/-- What a checksum command leaves of the bytes `Bv`: its outcome, the output `S`, the byte `c` in `CSUM`, the sum, the
reduced sum and the trace. -/
def csumLeft (v : ChecksumVariant) (Bv : List Nat) (o : OutcomeCode) (S : List Symbol) (c : BitVec 8)
    (r : ResultState) : ResultState :=
  setDone { emit S (traceAll (clearResults r) (csumRecords Bv)) with
    sum := BitVec.ofNat 32 Bv.sum
    fsum := BitVec.ofNat 8 (reduce Bv.sum v)
    csum := c
    status := (clearResults r).status.ok o }

section
variable {v : ChecksumVariant} {s : State} {Bv Bd : List Nat} {last : Nat} {o : OutcomeCode} {S : List Symbol}
  {c : BitVec 8} {r : ResultState}

theorem csumLeft_status : (csumLeft v Bv o S c r).status = finished o .none := rfl

theorem csumLeft_csum : (csumLeft v Bv o S c r).csum = c := rfl

theorem csumLeft_sum (h : Bv.sum < 2 ^ 32) : (csumLeft v Bv o S c r).sum.toNat = Bv.sum :=
  toNat_ofNat_of_le (Nat.le_refl _) h

theorem csumLeft_fsum : (csumLeft v Bv o S c r).fsum.toNat = reduce Bv.sum v :=
  toNat_ofNat_of_le (Nat.le_refl _) (reduce_lt _ v)

theorem csumLeft_holdsTrace (h : Bv.length < 2 ^ 32) : (csumLeft v Bv o S c r).holdsTrace (csumRecords Bv) :=
  holdsTrace_traceAll (r := clearResults r) rfl rfl _ ((csumRecords_length Bv).trans_lt h)

theorem csumLeft_holdsOutput (h : S.length < 2 ^ 32) : (csumLeft v Bv o S c r).holdsOutput S :=
  holdsOutput_emit (traceAll_obuf _ _) S h

theorem expectedChecksum_toNat : (BitVec.ofNat 8 (expectedChecksum Bd v)).toNat = expectedChecksum Bd v :=
  toNat_ofNat_of_le (Nat.le_refl _) (expectedChecksum_lt Bd v)

/-- CSUM.GEN on some bytes. -/
theorem exec_csumGen (hn : s.op.ilen.toNat ≤ s.params.imax) (h : checkBytes 1 (operand s.op) = .ok Bv) :
    exec (.csumGen v) s = .next { s with
      res := csumLeft v Bv .generated (hex2 (expectedChecksum Bv v)) (BitVec.ofNat 8 (expectedChecksum Bv v))
        s.res } := by
  rw [exec_of_rule_ok (i := .csumGen v) hn nofun (csumGenRule_of_ok _ h), csumLeft, expectedChecksum, accumulate_zero]

/-- CSUM.GEN that ends without error had bytes, and leaves the two symbols of their checksum. -/
theorem csumGen_output {t : State} (h : exec (.csumGen v) s = .next t) (he : t.res.status.err = .none) :
    ∃ Bv, checkBytes 1 (operand s.op) = .ok Bv ∧ output t.res = hex2 (expectedChecksum Bv v) := by
  obtain ⟨r1, hrule, hres⟩ := rule_ok_of_err_none h he
  change csumGenRule v s.op (clearResults s.res) = .ok r1 at hrule
  cases hc : checkBytes 1 (operand s.op) with
  | error e =>
    rw [csumGenRule_of_error _ hc] at hrule
    cases hrule
  | ok Bv =>
    rw [csumGenRule_of_ok _ hc] at hrule
    cases hrule
    rw [hres]
    exact ⟨Bv, rfl, output_emit _ _ (traceAll_obuf _ _) (hex2_length_lt _)⟩

/-- CSUM.VER on the data bytes `Bd` and a last byte. -/
theorem exec_csumVer (hn : s.op.ilen.toNat ≤ s.params.imax)
    (h : checkBytes 2 (operand s.op) = .ok (Bd ++ [last])) :
    let valid := reduce (Bd.sum + last) v == acceptedSum v
    exec (.csumVer v) s = .next { s with
      res := csumLeft v (Bd ++ [last]) (verdict valid) []
        (if valid then 0 else BitVec.ofNat 8 (expectedChecksum Bd v)) s.res } := by
  intro valid
  have hsum : (Bd ++ [last]).sum = Bd.sum + last := by simp
  rw [exec_of_rule_ok (i := .csumVer v) hn nofun (csumVerRule_of_ok _ h), csumLeft, accumulate_zero, hsum,
    List.dropLast_concat]

end

/-! ## The statements -/

/-- Settles O30: the tokens are the maximal runs (`tokenRuns_tokens`), the byte values those of `byteval_eq_some`, and
the errors those of the byte check (`checkBytes_error_cases`, `checkBytes_ok`). -/
theorem checksumOperandChecks : Obligations.ChecksumOperandChecks := by
  refine ⟨tokenRuns_tokens, fun _ _ => byteval_eq_some, fun _ _ => bytevals_eq_some, ?_⟩
  intro v s i hi hn ts allBytes
  obtain ⟨n, hin, hver⟩ : ∃ n, (i = .csumGen v ∧ n = 1 ∨ i = .csumVer v ∧ n = 2) ∧ (i = .csumVer v ↔ n = 2) := by
    obtain rfl | rfl := hi
    · exact ⟨1, .inl ⟨rfl, rfl⟩, by simp⟩
    · exact ⟨2, .inr ⟨rfl, rfl⟩, by simp⟩
  have hn12 : n = 1 ∨ n = 2 := hin.imp And.right And.right
  obtain ⟨hraise, hend⟩ := exec_csum_err hin hn
  have hts : tokens (operand s.op) = ts := rfl
  have hbytes : (∀ tok ∈ ts, (byteval tok).isSome = true) ↔ allBytes := Iff.rfl
  clear_value allBytes ts
  rw [hver]
  cases hc : checkBytes n (operand s.op) with
  | error e =>
    obtain ⟨t, hexec, ht⟩ := hraise e hc
    have hcases := checkBytes_error_cases hc
    rw [hts, hbytes] at hcases
    refine ⟨t, hexec, ?_⟩
    rw [ht]
    obtain ⟨hnil, rfl⟩ | ⟨hne, hall, rfl⟩ | ⟨hne, hall, hfew, rfl⟩ := hcases
    · simp [hnil]
    · simp [hne, hall]
    · have hpos := List.length_pos_of_ne_nil hne
      have hone : n = 2 ∧ ts.length = 1 := by omega
      simp [hne, hall, hone]
  | ok Bv =>
    obtain ⟨t, hexec, ht⟩ := hend Bv hc
    obtain ⟨hne, hB, hleast⟩ := checkBytes_ok.1 hc
    rw [bytevals_length hB, hts] at hleast
    rw [hts] at hne
    have hall : allBytes := hbytes.1 (hts ▸ bytevals_isSome hB)
    have htwo : n = 2 → 2 ≤ ts.length := fun h => h ▸ hleast
    have hone : n = 2 → ts.length ≠ 1 := fun h => Nat.ne_of_gt (htwo h)
    refine ⟨t, hexec, ?_⟩
    rw [ht]
    simpa [hne, hall] using And.intro hone htwo

/-- Settles O50: the result is the `csumLeft` of `exec_csumGen`; a checksum byte has two hex digits. -/
theorem csumGenEmitsTheChecksum : Obligations.CsumGenEmitsTheChecksum := by
  intro v s Bv _ hn hne hB
  have hc := checkBytes_of_bytevals hB hne (List.length_pos_of_ne_nil hne)
  have hlen : Bv.length < 2 ^ 32 := (byteList_length_lt hB).trans (by decide)
  have hlt := expectedChecksum_lt Bv v
  have hexec := exec_csumGen (v := v) hn hc
  refine ⟨_, expectedChecksum Bv v, hexec, csumLeft_sum (byteList_sum_lt hB), ?_, ?_,
    expectedChecksum_toNat, ?_, csumLeft_holdsTrace hlen, exec_listed hexec⟩
  · rw [csumLeft_fsum]
    cases v <;> rfl
  · rw [expectedChecksum_eq]
    cases v <;> rfl
  · refine ⟨_, _, hexDigits_getElem?_eq_some.2 ⟨by omega, rfl⟩, hexDigits_getElem?_eq_some.2 ⟨by omega, rfl⟩, ?_⟩
    rw [← hex2_eq]
    exact csumLeft_holdsOutput (hex2_length_lt _)

/-- Settles O51: the result is the `csumLeft` of `exec_csumVer`, whose verdict is whether the total is accepted. -/
theorem csumVerAcceptsOrReportsExpected : Obligations.CsumVerAcceptsOrReportsExpected := by
  intro v s Bd last _ hn hne hB total valid
  have htwo : 2 ≤ (Bd ++ [last]).length := by
    have hpos := List.length_pos_of_ne_nil hne
    rw [List.length_append, List.length_singleton]
    omega
  have hexec := exec_csumVer (v := v) hn (checkBytes_of_bytevals hB (by simp) htwo)
  have hlen : (Bd ++ [last]).length < 2 ^ 32 := (byteList_length_lt hB).trans (by decide)
  have hsum : (Bd ++ [last]).sum = total := by simp [total]
  have hvalid : valid ↔ reduce total v = acceptedSum v := by cases v <;> rfl
  refine ⟨_, hexec, (csumLeft_sum (byteList_sum_lt hB)).trans hsum, ?_, fun h => ?_, fun h => ?_,
    csumLeft_holdsTrace hlen, exec_listed hexec⟩
  · rw [csumLeft_fsum, hsum]
    cases v <;> rfl
  · rw [csumLeft_status, csumLeft_csum, beq_iff_eq.2 (hvalid.1 h)]
    exact ⟨rfl, rfl⟩
  · rw [csumLeft_status, csumLeft_csum, beq_false_of_ne (mt hvalid.2 h)]
    refine ⟨rfl, expectedChecksum_toNat.trans ?_⟩
    rw [expectedChecksum_eq]
    cases v <;> rfl

/-- Settles O53: the generated token is one more byte (`tokens_append_token`, `byteval_hex2`), which completes the sum
to an accepted one (`reduce_add_expectedChecksum`). -/
theorem checksumRoundTrip : Obligations.ChecksumRoundTrip := by
  intro v s t u _ hgen herr hop hn
  obtain ⟨Bv, hc, hout⟩ := csumGen_output hgen herr
  obtain ⟨-, hB, hlen⟩ := checkBytes_ok.1 hc
  have hlt := expectedChecksum_lt Bv v
  have hbytes : bytevals (tokens (operand u.op)) = some (Bv ++ [expectedChecksum Bv v]) := by
    rw [hop, hout, tokens_append_token _ (by simp [hex2]) (hex2_not_whitespace hlt)]
    exact bytevals_append_token hB (byteval_hex2 hlt)
  refine ⟨_, exec_csumVer hn (checkBytes_of_bytevals hbytes (by simp) (by simpa using hlen)), ?_⟩
  rw [csumLeft_status, reduce_add_expectedChecksum, beq_self_eq_true]
  rfl

end Sys2Proof.Machine
end

section
/-! PROOFS. Matrix operands (spec/45_twod_parity.md R220 to R222): the rows of a text, which operands P2D.GEN and
P2D.VER refuse, and that a grid is an operand with its own matrix. With it, the statement O31. -/

namespace Sys2Proof.Machine

/-! ## The rows of a text (45_twod_parity.md R220) -/

theorem rows_length (S : List Symbol) : (rows S).length = S.count symLF + 1 := splitText_length _ S

theorem symLF_notMem_rows {S r : List Symbol} (h : r ∈ rows S) : symLF ∉ r := fun hmem => by
  simpa using splitText_no_sep _ S r h symLF hmem

/-- The rows with a line feed between every two are the text again. -/
theorem intercalate_rows (S : List Symbol) : [symLF].intercalate (rows S) = S := by
  unfold rows
  induction S with
  | nil => rfl
  | cons x S ih =>
    cases hx : x == symLF with
    | true =>
      rw [splitText_sep (p := (· == symLF)) hx, List.intercalate_cons_of_ne_nil (splitText_ne_nil _ S), ih,
        eq_of_beq hx]
      rfl
    | false =>
      obtain ⟨piece, rest, hS⟩ := List.exists_cons_of_ne_nil (splitText_ne_nil (· == symLF) S)
      rw [splitText_other (p := (· == symLF)) hx hS]
      rw [hS] at ih
      cases rest with
      | nil => rw [List.intercalate_singleton] at ih ⊢; rw [ih]
      | cons piece' rest => rw [List.intercalate_cons_cons] at ih ⊢; rw [← ih]; rfl

/-! ## Matrix operands (45_twod_parity.md R221) -/

/-- The rows have one length when each has that of the first. -/
theorem equalLengths_iff {α : Type} {L : List (List α)} :
    (∀ r ∈ L, ∀ r' ∈ L, r.length = r'.length) ↔ ∀ r ∈ L, r.length = ncolsOf L := by
  refine ⟨fun h => ?_, fun h r hr r' hr' => (h r hr).trans (h r' hr').symm⟩
  cases L with
  | nil => exact fun r hr => nomatch hr
  | cons r₀ L => exact fun r hr => h r hr r₀ List.mem_cons_self

theorem checkMatrix_error_cases {S : List Symbol} {e : ErrorCode} (h : checkMatrix S = .error e) :
    let nonempty := S ≠ [] ∧ ∀ r ∈ rows S, r ≠ []
    let binary := ∀ x ∈ S, x = symLF ∨ isBin x = true
    let equalRows := ∀ r ∈ rows S, r.length = ncolsOf (rows S)
    (¬ nonempty ∧ e = .invalidEmpty) ∨
    (nonempty ∧ ¬ binary ∧ e = .invalidSymbol) ∨
    (nonempty ∧ binary ∧ ¬ equalRows ∧ e = .rowLengthMismatch) := by
  intro nonempty binary equalRows
  have hempty : (S.length = 0 ∨ (rows S).any (·.isEmpty) = true) ↔ ¬ nonempty := by
    simp [nonempty, imp_iff_not_or]
  have hbinary : (!S.all fun x => x == symLF || isBin x) = true ↔ ¬ binary := by simp [binary]
  have hequal : (!(rows S).all fun r => r.length == ncolsOf (rows S)) = true ↔ ¬ equalRows := by simp [equalRows]
  unfold checkMatrix at h
  split_ifs at h with h0 hb hr <;> cases h
  · exact .inl ⟨hempty.1 h0, rfl⟩
  · exact .inr (.inl ⟨not_not.1 (mt hempty.2 h0), hbinary.1 hb, rfl⟩)
  · exact .inr (.inr ⟨not_not.1 (mt hempty.2 h0), not_not.1 (mt hbinary.2 hb), hequal.1 hr, rfl⟩)

/-- In range both commands raise what the matrix check answers, and nothing else. -/
theorem exec_p2d_err {i : Instr} {s : State} (hi : i = .p2dGen ∨ i = .p2dVer)
    (hn : s.op.ilen.toNat ≤ s.params.imax) :
    (∀ e, checkMatrix (operand s.op) = .error e → ∃ t, exec i s = .next t ∧ t.res.status.err = e) ∧
    ∀ M, checkMatrix (operand s.op) = .ok M → ∃ t, exec i s = .next t ∧ t.res.status.err = .none := by
  obtain rfl | rfl := hi
  · exact ⟨fun e hc => ⟨_, exec_of_rule_error hn nofun (p2dGenRule_of_error _ hc), rfl⟩,
      fun M hc => ⟨_, exec_of_rule_ok hn nofun (p2dGenRule_of_ok _ hc), rfl⟩⟩
  · refine ⟨fun e hc => ⟨_, exec_of_rule_error hn nofun (p2dVerRule_of_error _ hc), rfl⟩, fun M hc => ?_⟩
    obtain ⟨-, hrule⟩ | ⟨-, hrule⟩ | ⟨-, -, hrule⟩ := p2dVerRule_cases (clearResults s.res) hc <;>
      exact ⟨_, exec_of_rule_ok (i := .p2dVer) hn nofun hrule, rfl⟩

/-! ## Grids (45_twod_parity.md R222) -/

theorem grid_eq_intercalate (A : List (List Bool)) : grid A = [symLF].intercalate (A.map syms) := by
  induction A with
  | nil => rfl
  | cons r A ih =>
    cases A with
    | nil => exact List.intercalate_singleton.symm
    | cons r' A =>
      rw [grid, ih, List.map_cons, List.map_cons, List.map_cons, List.intercalate_cons_cons, List.append_assoc]
      · rfl
      · simp

/-- A grid holds bit symbols and line feeds only. -/
theorem mem_grid {A : List (List Bool)} {x : Symbol} (h : x ∈ grid A) : x = symLF ∨ isBin x = true := by
  induction A with
  | nil => cases h
  | cons r A ih =>
    cases A with
    | nil => exact .inr (syms_all_bin r x h)
    | cons r' A =>
      rw [grid, List.mem_append, List.mem_cons] at h
      · obtain h | h | h := h
        · exact .inr (syms_all_bin r x h)
        · exact .inl h
        · exact ih h
      · simp

section
variable {M : List (List Bool)} {C : Nat}

theorem ncolsOf_eq_of_lengths (hM : M ≠ []) (hC : ∀ r ∈ M, r.length = C) : ncolsOf M = C := by
  obtain ⟨r, M, rfl⟩ := List.exists_cons_of_ne_nil hM
  exact hC r List.mem_cons_self

/-- The grid of a matrix is an operand with this matrix. -/
theorem checkMatrix_grid (hM : M ≠ []) (h1 : 1 ≤ C) (hC : ∀ r ∈ M, r.length = C) : checkMatrix (grid M) = .ok M := by
  have hrow : ∀ r ∈ M.map syms, r.length = C :=
    List.forall_mem_map.2 fun r hr => (syms_length r).trans (hC r hr)
  have hne : ∀ r ∈ M.map syms, r ≠ [] := fun r hr => List.ne_nil_of_length_pos (hrow r hr ▸ h1)
  rw [checkMatrix_ok, rows_grid hM]
  refine ⟨fun h0 => ?_, hne, fun _ => mem_grid, equalLengths_iff.1 fun r hr r' hr' => ?_, ?_⟩
  · have hrows := rows_grid hM
    rw [List.length_eq_zero_iff.1 h0] at hrows
    exact hne [] (hrows ▸ List.mem_singleton.2 rfl) rfl
  · rw [hrow r hr, hrow r' hr']
  · rw [List.map_map, show bits ∘ syms = id from funext bits_syms, List.map_id]

end

/-! ## The statement -/

/-- Settles O31: the rows are `intercalate_rows`, and the errors are those of the matrix check
(`checkMatrix_error_cases`, `checkMatrix_ok`). -/
theorem matrixOperandChecks : Obligations.MatrixOperandChecks := by
  refine ⟨fun S => ⟨rows_length S, fun _ => symLF_notMem_rows, intercalate_rows S⟩, ?_⟩
  intro s i hi hn S nonempty binary equalRows
  obtain ⟨hraise, hend⟩ := exec_p2d_err hi hn
  have hnonempty : (S ≠ [] ∧ ∀ r ∈ rows S, r ≠ []) ↔ nonempty := Iff.rfl
  have hbinary : (∀ x ∈ S, x = symLF ∨ isBin x = true) ↔ binary :=
    forall₂_congr fun _ _ => or_congr_right isBin_iff
  have hequal : (∀ r ∈ rows S, r.length = ncolsOf (rows S)) ↔ equalRows := equalLengths_iff.symm
  clear_value nonempty binary equalRows
  cases hc : checkMatrix S with
  | error e =>
    obtain ⟨t, hexec, ht⟩ := hraise e hc
    have hcases := checkMatrix_error_cases hc
    rw [hnonempty, hbinary, hequal] at hcases
    refine ⟨t, hexec, ?_⟩
    rw [ht]
    obtain ⟨h0, rfl⟩ | ⟨h0, hb, rfl⟩ | ⟨h0, hb, hr, rfl⟩ := hcases
    · simp [h0]
    · simp [h0, hb]
    · simp [h0, hb, hr]
  | ok M =>
    obtain ⟨t, hexec, ht⟩ := hend M hc
    obtain ⟨hlen, hrows, hb, hr, -⟩ := checkMatrix_ok.1 hc
    have h0 := hnonempty.1 ⟨mt List.length_eq_zero_iff.2 hlen, hrows⟩
    refine ⟨t, hexec, ?_⟩
    rw [ht]
    simp [h0, hbinary.1 hb, hequal.1 hr]

end Sys2Proof.Machine
end

section
/-! PROOFS. Matrices as bits (spec/45_twod_parity.md R224 to R227): the parities of a matrix's rows and of its columns
have one total, in a generated matrix they are all even, and a flipped cell inverts one of each. With it, the statement
O54. -/

namespace Sys2Proof.Machine

/-! ## Parities -/

@[simp] theorem ones_zeros (n : Nat) : ones (zeros n) = 0 := by simp [ones, zeros, List.count_replicate]

@[simp] theorem par_zeros (n : Nat) : par (zeros n) = false := by simp [par]

theorem eq_zeros {B : List Bool} {n : Nat} (hn : B.length = n) (h : ∀ b ∈ B, b = false) : B = zeros n :=
  List.eq_replicate_iff.2 ⟨hn, h⟩

/-- The parity of a XOR is the XOR of the parities. -/
theorem par_zipWith_xor {A B : List Bool} (h : A.length = B.length) :
    par (List.zipWith xor A B) = xor (par A) (par B) := by
  induction A generalizing B with
  | nil => rw [List.length_eq_zero_iff.1 h.symm]; rfl
  | cons a A ih =>
    cases B with
    | nil => cases h
    | cons b B => rw [List.zipWith_cons_cons, par_cons, ih (Nat.succ.inj h), par_cons, par_cons, Bool.xor_assoc,
        Bool.xor_assoc, Bool.xor_left_comm b]

/-! ## The parities of the columns -/

theorem column_append (A B : List (List Bool)) (j : Nat) : column (A ++ B) j = column A j ++ column B j :=
  List.map_append

theorem columnParities_getD (M : List (List Bool)) {n j : Nat} (h : j < n) :
    (columnParities M n).getD j false = par (column M j) := by
  simp [columnParities, h]

theorem columnParities_nil (n : Nat) : columnParities [] n = zeros n :=
  eq_zeros (columnParities_length [] n) (by simp [columnParities, column])

/-- One more row is XORed into the column parities. -/
theorem columnParities_cons (M : List (List Bool)) (r : List Bool) :
    columnParities (r :: M) r.length = List.zipWith xor r (columnParities M r.length) := by
  refine List.ext_getElem (by simp) fun j h _ => ?_
  rw [columnParities_length] at h
  simp [columnParities, column, par_cons, h]

/-- The rows' parities and the columns' parities have one total, the parity of the whole matrix
(45_twod_parity.md R226). -/
theorem par_columnParities {M : List (List Bool)} {n : Nat} (h : ∀ r ∈ M, r.length = n) :
    par (columnParities M n) = par (M.map par) := by
  induction M with
  | nil => rw [columnParities_nil, par_zeros]; rfl
  | cons r M ih =>
    obtain ⟨rfl, hM⟩ := List.forall_mem_cons.1 h
    rw [columnParities_cons, par_zipWith_xor (columnParities_length M _).symm, ih hM, List.map_cons, par_cons]

theorem ones_mod_two_eq {A B : List Bool} (h : par A = par B) : ones A % 2 = ones B % 2 := by
  have key (B : List Bool) : ones B % 2 = (par B).toNat := by
    rcases Nat.mod_two_eq_zero_or_one (ones B) with h | h <;> simp [par, h]
  rw [key, key, h]

/-! ## The generated matrix (45_twod_parity.md R224) -/

/-- All rows have `n` cells, and every row and every column has an even 1-count. -/
structure EvenMatrix (A : List (List Bool)) (n : Nat) : Prop where
  lengths : ∀ r ∈ A, r.length = n
  evenRows : ∀ r ∈ A, par r = false
  evenColumns : ∀ j, j < n → par (column A j) = false

theorem EvenMatrix.rowFlags {A : List (List Bool)} {n : Nat} (h : EvenMatrix A n) : A.map par = zeros A.length :=
  eq_zeros (List.length_map _) (List.forall_mem_map.2 h.evenRows)

theorem EvenMatrix.columnFlags {A : List (List Bool)} {n : Nat} (h : EvenMatrix A n) :
    columnParities A n = zeros n :=
  eq_zeros (columnParities_length A n) (List.forall_mem_map.2 fun j hj => h.evenColumns j (List.mem_range.1 hj))

@[simp] theorem augmentRow_length (r : List Bool) : (augmentRow r).length = r.length + 1 := by simp [augmentRow]

@[simp] theorem par_augmentRow (r : List Bool) : par (augmentRow r) = false := by
  rw [augmentRow, par_append, par_singleton, Bool.xor_self]

/-- A matrix with the row of its column parities has even columns. -/
theorem par_column_append_columnParities (A : List (List Bool)) {n j : Nat} (h : j < n) :
    par (column (A ++ [columnParities A n]) j) = false := by
  have hlast : column [columnParities A n] j = [par (column A j)] := congrArg (fun b => [b]) (columnParities_getD A h)
  rw [column_append, par_append, hlast, par_singleton, Bool.xor_self]

section
variable {M : List (List Bool)} {C : Nat}

theorem augmentMatrix_eq (hM : M ≠ []) (hC : ∀ r ∈ M, r.length = C) :
    augmentMatrix M = M.map augmentRow ++ [columnParities (M.map augmentRow) (C + 1)] := by
  rw [augmentMatrix, ncolsOf_eq_of_lengths hM hC]

theorem evenMatrix_augmentMatrix (hM : M ≠ []) (hC : ∀ r ∈ M, r.length = C) :
    EvenMatrix (augmentMatrix M) (C + 1) := by
  have hlen : ∀ r ∈ M.map augmentRow, r.length = C + 1 :=
    List.forall_mem_map.2 fun r hr => by rw [augmentRow_length, hC r hr]
  have hpar : ∀ r ∈ M.map augmentRow, par r = false := List.forall_mem_map.2 fun r _ => par_augmentRow r
  rw [augmentMatrix_eq hM hC]
  refine ⟨?_, ?_, fun j => par_column_append_columnParities _⟩
  · rw [List.forall_mem_append, List.forall_mem_singleton]
    exact ⟨hlen, columnParities_length _ _⟩
  · rw [List.forall_mem_append, List.forall_mem_singleton, par_columnParities hlen]
    exact ⟨hpar, by rw [eq_zeros rfl (List.forall_mem_map.2 hpar), par_zeros]⟩

end

/-- The data stand unchanged. -/
theorem augmentMatrix_data (M : List (List Bool)) : (augmentMatrix M).dropLast.map List.dropLast = M := by
  rw [augmentMatrix, List.dropLast_concat, List.map_map,
    show List.dropLast ∘ augmentRow = id from funext fun r => List.dropLast_concat, List.map_id]

/-! ## One flipped cell (45_twod_parity.md R225, R227) -/

theorem flipCell_eq {A : List (List Bool)} {i j : Nat} (hi : i < A.length) :
    flipCell A i j = A.set i (A[i].set j (!A[i].getD j false)) := by
  simp [flipCell, flipBit, List.getD_eq_getElem?_getD, List.getElem?_eq_getElem hi]

@[simp] theorem flipCell_length (A : List (List Bool)) (i j : Nat) : (flipCell A i j).length = A.length :=
  List.length_set

section
variable {A : List (List Bool)} {n i j : Nat}

theorem flipCell_lengths (h : ∀ r ∈ A, r.length = n) : ∀ r ∈ flipCell A i j, r.length = n := by
  rw [← List.forall_mem_map (f := List.length) (P := (· = n))] at h ⊢
  rwa [flipCell_shape]

theorem flipCell_flipCell (hi : i < A.length) (hj : j < A[i].length) : flipCell (flipCell A i j) i j = A := by
  rw [flipCell_eq ((flipCell_length A i j).symm ▸ hi)]
  simp [flipCell_eq hi, hj]

/-- A flipped cell inverts the parity of its row. -/
theorem map_par_flipCell (hi : i < A.length) (hj : j < A[i].length) :
    (flipCell A i j).map par = (A.map par).set i (!par A[i]) := by
  rw [flipCell_eq hi, List.map_set, par_set_not hj]

/-- A flipped cell is flipped in its column. -/
theorem column_flipCell_same (hi : i < A.length) (hj : j < A[i].length) :
    column (flipCell A i j) j = (column A j).set i (!(column A j).getD i false) := by
  rw [flipCell_eq hi, column, List.map_set, column]
  simp [hi, hj]

/-- A flipped cell leaves the other columns alone. -/
theorem column_flipCell_ne {k : Nat} (hi : i < A.length) (h : k ≠ j) : column (flipCell A i j) k = column A k := by
  have hcell : (A[i].set j (!A[i].getD j false)).getD k false = (column A k)[i]'(by simpa [column] using hi) := by
    simp [column, List.getD_eq_getElem?_getD, List.getElem?_set_ne h.symm]
  rw [flipCell_eq hi, column, List.map_set, hcell]
  exact List.set_getElem_self _

/-- A flipped cell inverts the parity of its column. -/
theorem columnParities_flipCell (hi : i < A.length) (hj : j < A[i].length) :
    columnParities (flipCell A i j) n = (columnParities A n).set j (!par (column A j)) := by
  refine List.ext_getElem (by simp) fun k hk _ => ?_
  rw [List.getElem_set]
  split_ifs with h
  · subst h
    rw [← par_set_not (by simpa [column] using hi), ← column_flipCell_same hi hj]
    simp [columnParities]
  · simp [columnParities, column_flipCell_ne hi (Ne.symm h)]

end

/-! ## One mismatch among the flags -/

theorem ones_zeros_set {n k : Nat} (h : k < n) : ones ((zeros n).set k true) = 1 := by
  rw [ones, List.count_set (by simpa [zeros] using h)]
  simp [zeros, List.count_replicate]

theorem idxOf_zeros_set {n k : Nat} (h : k < n) : ((zeros n).set k true).idxOf true = k := by
  have hmem : true ∈ (zeros n).set k true := List.mem_set (l := zeros n) (by simpa using h) true
  have hat := List.getElem?_idxOf hmem
  by_contra hne
  rw [List.getElem?_set_ne (Ne.symm hne)] at hat
  simpa [zeros] using List.mem_of_getElem? hat

section
variable {A : List (List Bool)} {n i j : Nat}

/-- In an even matrix a flipped cell makes its row the only odd one. -/
theorem EvenMatrix.rowFlags_flipCell (h : EvenMatrix A n) (hi : i < A.length) (hj : j < n) :
    (flipCell A i j).map par = (zeros A.length).set i true := by
  have hrow := List.getElem_mem hi
  rw [map_par_flipCell hi (h.lengths _ hrow ▸ hj), h.rowFlags, h.evenRows _ hrow, Bool.not_false]

/-- In an even matrix a flipped cell makes its column the only odd one. -/
theorem EvenMatrix.columnFlags_flipCell (h : EvenMatrix A n) (hi : i < A.length) (hj : j < n) :
    columnParities (flipCell A i j) n = (zeros n).set j true := by
  rw [columnParities_flipCell hi (h.lengths _ (List.getElem_mem hi) ▸ hj), h.columnFlags, h.evenColumns j hj,
    Bool.not_false]

end

/-! ## The statement -/

/-- Settles O54: the generated matrix is even (`evenMatrix_augmentMatrix`) and holds the data (`augmentMatrix_data`). -/
theorem generatedMatrixIsEven : Obligations.GeneratedMatrixIsEven := by
  intro M C hM hC
  obtain ⟨hlen, hrows, hcols⟩ := evenMatrix_augmentMatrix hM hC
  exact ⟨augmentMatrix_length M, fun r hr => ⟨hlen r hr, hrows r hr⟩, hcols, augmentMatrix_data M⟩

end Sys2Proof.Machine
end

section
/-! PROOFS. P2D.GEN and P2D.VER as commands (spec/45_twod_parity.md R224 to R227): what they leave, and that a generated
matrix verifies clean and one flipped cell is corrected. With it, the statements O55, O56 and O57. -/

namespace Sys2Proof.Machine

/-! ## The sizes of a matrix fit the result registers -/

section
variable {s : State} {M A : List (List Bool)} {C : Nat}

/-- The rows and columns of an operand, and of its generated matrix, fit `NROWS` and `NCOLS`. -/
theorem matrix_size_lt (hp : s.params.wf) (hn : s.op.ilen.toNat ≤ s.params.imax)
    (hc : checkMatrix (operand s.op) = .ok M) : M.length + 1 < 2 ^ 16 ∧ ncolsOf M + 1 < 2 ^ 16 := by
  obtain ⟨-, hsize⟩ := checkMatrix_size hc
  have hcols := ncolsOf_le_sum M
  have hmax := imax_add_two_lt hp
  rw [operand_length] at hsize
  omega

/-- The grid of a matrix of the operand's shape fits the count of `OLEN`. -/
theorem grid_length_lt (hc : checkMatrix (operand s.op) = .ok M) (hA : A.map List.length = M.map List.length) :
    (grid A).length < 2 ^ 32 := by
  obtain ⟨-, hsize⟩ := checkMatrix_size hc
  rw [grid_length_of_shape hA, grid_length, hsize, operand_length]
  omega

/-- The grid of the generated matrix fits the count of `OLEN`. -/
theorem grid_augmentMatrix_length_lt (hc : checkMatrix (operand s.op) = .ok M) :
    (grid (augmentMatrix M)).length < 2 ^ 32 := by
  obtain ⟨-, hsize⟩ := checkMatrix_size hc
  have hcols := ncolsOf_le_sum M
  rw [operand_length] at hsize
  rw [grid_augmentMatrix_length]
  omega

/-! ## P2D.GEN (45_twod_parity.md R224) -/

/-- What P2D.GEN leaves of the matrix `M`. -/
def p2dGenerated (M : List (List Bool)) : ResultState :=
  emitGrid (augmentMatrix M) { ResultState.zero with status := finished .generated .none }

theorem p2dGenerated_holdsOutput (h : (grid (augmentMatrix M)).length < 2 ^ 32) :
    (p2dGenerated M).holdsOutput (grid (augmentMatrix M)) :=
  holdsOutput_emit (r := ResultState.zero) rfl _ h

theorem p2dGenerated_nrows (h : M.length + 1 < 2 ^ 16) : (p2dGenerated M).nrows.toNat = M.length + 1 :=
  (toNat_ofNat_of_le (augmentMatrix_length M).le h).trans (augmentMatrix_length M)

theorem p2dGenerated_ncols (hM : M ≠ []) (h : ncolsOf M + 1 < 2 ^ 16) :
    (p2dGenerated M).ncols.toNat = ncolsOf M + 1 := by
  rw [← augmentMatrix_ncolsOf hM] at h ⊢
  exact toNat_ofNat_of_le (Nat.le_refl _) h

/-- P2D.GEN on a matrix. -/
theorem exec_p2dGen (hn : s.op.ilen.toNat ≤ s.params.imax) (hc : checkMatrix (operand s.op) = .ok M) :
    exec .p2dGen s = .next { s with res := p2dGenerated M } :=
  exec_of_rule_ok (i := .p2dGen) hn nofun (p2dGenRule_of_ok _ hc)

/-- P2D.GEN that ends without error on a matrix leaves the grid of its generated matrix. -/
theorem p2dGen_output {t : State} (h : exec .p2dGen s = .next t) (he : t.res.status.err = .none)
    (hc : checkMatrix (operand s.op) = .ok M) : output t.res = grid (augmentMatrix M) := by
  obtain ⟨r1, hrule, hres⟩ := rule_ok_of_err_none h he
  cases (p2dGenRule_of_ok _ hc).symm.trans hrule
  rw [hres]
  exact output_emit _ (clearResults s.res) rfl (grid_augmentMatrix_length_lt hc)

/-! ## P2D.VER (45_twod_parity.md R225) -/

/-- What P2D.VER leaves of the received matrix `M`: its mismatches, the grid of `A`, which is `M` or its correction at
row `i` and column `j`, and how it ended. -/
def p2dVerified (o : OutcomeCode) (d : DetailCode) (M A : List (List Bool)) (i j : Nat) : ResultState :=
  emitGrid A { withMismatches M ResultState.zero with
    erow := BitVec.ofNat 16 i, ecol := BitVec.ofNat 16 j, status := finished o d }

/-- P2D.VER on a matrix ends in one of three ways. -/
theorem exec_p2dVer_cases {rs cs : List Bool} (hn : s.op.ilen.toNat ≤ s.params.imax)
    (hc : checkMatrix (operand s.op) = .ok M) (hrs : M.map par = rs) (hcs : columnParities M (ncolsOf M) = cs) :
    ((ones rs = 0 ∧ ones cs = 0) ∧ exec .p2dVer s = .next { s with res := p2dVerified .clean .none M M 0 0 }) ∨
    ((ones rs = 1 ∧ ones cs = 1) ∧ exec .p2dVer s = .next { s with
      res := p2dVerified .corrected .none M (flipCell M (rs.idxOf true) (cs.idxOf true)) (rs.idxOf true)
        (cs.idxOf true) }) ∨
    (¬ (ones rs = 0 ∧ ones cs = 0) ∧ ¬ (ones rs = 1 ∧ ones cs = 1) ∧ exec .p2dVer s = .next { s with
      res := p2dVerified .uncorrectable .mismatchPattern M M 0 0 }) := by
  subst hrs hcs
  obtain ⟨h, hrule⟩ | ⟨h, hrule⟩ | ⟨h0, h1, hrule⟩ := p2dVerRule_cases (clearResults s.res) hc
  · exact .inl ⟨h, exec_of_rule_ok (i := .p2dVer) hn nofun hrule⟩
  · exact .inr (.inl ⟨h, exec_of_rule_ok (i := .p2dVer) hn nofun hrule⟩)
  · exact .inr (.inr ⟨h0, h1, exec_of_rule_ok (i := .p2dVer) hn nofun hrule⟩)

/-- Flags written into an empty mismatch array are what it holds. -/
theorem holdsFlags_writeSeq (fs : List Bool) :
    (Memory.writeSeq [] 0 (fs.map BitVec.ofBool)).holdsFlags fs := by
  intro k
  rw [Memory.read_writeSeq Memory.wf_nil]
  split_ifs with h
  · have hk : k < fs.length := by simpa using h
    simp [hk]
  · have hk : fs.length ≤ k := by simpa using h
    simp [hk]

section
variable {o : OutcomeCode} {d : DetailCode} {i j : Nat}

theorem p2dVerified_rmis : (p2dVerified o d M A i j).rmis.holdsFlags (M.map par) := holdsFlags_writeSeq _

theorem p2dVerified_cmis : (p2dVerified o d M A i j).cmis.holdsFlags (columnParities M (ncolsOf M)) :=
  holdsFlags_writeSeq _

theorem p2dVerified_rcnt (h : M.length < 2 ^ 16) : (p2dVerified o d M A i j).rcnt.toNat = ones (M.map par) :=
  toNat_ofNat_of_le ((ones_le_length _).trans (List.length_map _).le) h

theorem p2dVerified_ccnt (h : ncolsOf M < 2 ^ 16) :
    (p2dVerified o d M A i j).ccnt.toNat = ones (columnParities M (ncolsOf M)) :=
  toNat_ofNat_of_le ((ones_le_length _).trans (columnParities_length M _).le) h

theorem p2dVerified_nrows (h : M.length < 2 ^ 16) (hA : A.map List.length = M.map List.length) :
    (p2dVerified o d M A i j).nrows.toNat = M.length := by
  rw [← length_eq_of_map_length_eq hA] at h ⊢
  exact toNat_ofNat_of_le (Nat.le_refl _) h

theorem p2dVerified_ncols (h : ncolsOf M < 2 ^ 16) (hA : A.map List.length = M.map List.length) :
    (p2dVerified o d M A i j).ncols.toNat = ncolsOf M := by
  rw [ncolsOf_eq M, ← hA, ← ncolsOf_eq] at h ⊢
  exact toNat_ofNat_of_le (Nat.le_refl _) h

theorem p2dVerified_erow (hi : i < M.length) (h : M.length < 2 ^ 16) : (p2dVerified o d M A i j).erow.toNat = i :=
  toNat_ofNat_of_le hi.le h

theorem p2dVerified_ecol (hj : j < ncolsOf M) (h : ncolsOf M < 2 ^ 16) :
    (p2dVerified o d M A i j).ecol.toNat = j :=
  toNat_ofNat_of_le hj.le h

theorem p2dVerified_holdsOutput (hc : checkMatrix (operand s.op) = .ok M)
    (hA : A.map List.length = M.map List.length) : (p2dVerified o d M A i j).holdsOutput (grid A) :=
  holdsOutput_emit rfl _ (grid_length_lt hc hA)

end

/-- The only odd row or column is where the flag of index `idxOf true` stands. -/
theorem getElem?_idxOf_of_ones_eq_one {fs : List Bool} (h : ones fs = 1) : fs[fs.idxOf true]? = some true :=
  List.getElem?_idxOf (List.count_pos_iff.1 (Nat.one_pos.trans_eq h.symm))

theorem idxOf_lt_of_ones_eq_one {fs : List Bool} (h : ones fs = 1) : fs.idxOf true < fs.length :=
  (List.getElem?_eq_some_iff.1 (getElem?_idxOf_of_ones_eq_one h)).1

/-! ## A generated matrix, and one with a cell flipped (45_twod_parity.md R227) -/

/-- P2D.VER finds an even matrix clean. -/
theorem p2dVer_clean_of_evenMatrix (hn : s.op.ilen.toNat ≤ s.params.imax) (h : EvenMatrix A C) (hA : A ≠ [])
    (h1 : 1 ≤ C) (hop : operand s.op = grid A) :
    ∃ v, exec .p2dVer s = .next v ∧ v.res.status = finished .clean .none ∧ v.res.holdsOutput (grid A) := by
  have hc : checkMatrix (operand s.op) = .ok A := hop ▸ checkMatrix_grid hA h1 h.lengths
  obtain rfl := ncolsOf_eq_of_lengths hA h.lengths
  obtain ⟨-, hexec⟩ | ⟨⟨hone, -⟩, -⟩ | ⟨hzero, -⟩ := exec_p2dVer_cases hn hc h.rowFlags h.columnFlags
  · exact ⟨_, hexec, rfl, p2dVerified_holdsOutput hc rfl⟩
  · rw [ones_zeros] at hone
    cases hone
  · exact absurd ⟨ones_zeros _, ones_zeros _⟩ hzero

/-- P2D.VER flips the one cell back in which the operand differs from an even matrix. -/
theorem p2dVer_corrects_flipCell {i j : Nat} (hp : s.params.wf) (hn : s.op.ilen.toNat ≤ s.params.imax)
    (h : EvenMatrix A C) (hi : i < A.length) (hj : j < C) (hop : operand s.op = grid (flipCell A i j)) :
    ∃ v, exec .p2dVer s = .next v ∧ v.res.status = finished .corrected .none ∧
      v.res.erow.toNat = i ∧ v.res.ecol.toNat = j ∧ v.res.holdsOutput (grid A) := by
  have hlengths := flipCell_lengths (i := i) (j := j) h.lengths
  have hlen : i < (flipCell A i j).length := hi.trans_eq (flipCell_length A i j).symm
  have hne : flipCell A i j ≠ [] := List.ne_nil_of_length_pos (Nat.zero_lt_of_lt hlen)
  have hcols := ncolsOf_eq_of_lengths hne hlengths
  have hc : checkMatrix (operand s.op) = .ok (flipCell A i j) :=
    hop ▸ checkMatrix_grid hne (Nat.one_le_of_lt hj) hlengths
  obtain ⟨hR, hC⟩ := matrix_size_lt hp hn hc
  obtain ⟨⟨hzero, -⟩, -⟩ | ⟨-, hexec⟩ | ⟨-, hone, -⟩ := exec_p2dVer_cases hn hc (h.rowFlags_flipCell hi hj)
    ((congrArg _ hcols).trans (h.columnFlags_flipCell hi hj))
  · rw [ones_zeros_set hi] at hzero
    cases hzero
  · rw [idxOf_zeros_set hi, idxOf_zeros_set hj,
      flipCell_flipCell hi (h.lengths _ (List.getElem_mem hi) ▸ hj)] at hexec
    exact ⟨_, hexec, rfl, p2dVerified_erow hlen (Nat.lt_of_succ_lt hR),
      p2dVerified_ecol (hj.trans_eq hcols.symm) (Nat.lt_of_succ_lt hC),
      p2dVerified_holdsOutput hc (flipCell_shape A i j).symm⟩
  · exact absurd ⟨ones_zeros_set hi, ones_zeros_set hj⟩ hone

end

/-! ## The statements -/

/-- Settles O55: the grid is `grid_eq_intercalate`, and the result that of `exec_p2dGen`. -/
theorem p2dGenEmitsTheMatrix : Obligations.P2dGenEmitsTheMatrix := by
  refine ⟨grid_eq_intercalate, ?_⟩
  intro s M C hp hn hM h1 hC hop
  have hc : checkMatrix (operand s.op) = .ok M := hop ▸ checkMatrix_grid hM h1 hC
  obtain ⟨hrows, hcols⟩ := matrix_size_lt hp hn hc
  have hexec := exec_p2dGen hn hc
  refine ⟨_, hexec, p2dGenerated_holdsOutput (grid_augmentMatrix_length_lt hc), p2dGenerated_nrows hrows, ?_, rfl⟩
  rw [← ncolsOf_eq_of_lengths hM hC]
  exact p2dGenerated_ncols hM hcols

/-- Settles O56: each way `exec_p2dVer_cases` allows leaves a `p2dVerified` result; the two counts have the parity of
the whole matrix (`par_columnParities`). -/
theorem p2dVerThreeWayPolicy : Obligations.P2dVerThreeWayPolicy := by
  intro s M C hp hn hM h1 hC hop rs cs
  have hc : checkMatrix (operand s.op) = .ok M := hop ▸ checkMatrix_grid hM h1 hC
  obtain ⟨hrows, hcols⟩ := matrix_size_lt hp hn hc
  replace hrows : M.length < 2 ^ 16 := Nat.lt_of_succ_lt hrows
  replace hcols : ncolsOf M < 2 ^ 16 := Nat.lt_of_succ_lt hcols
  have hparity : ones rs % 2 = ones cs % 2 := ones_mod_two_eq (par_columnParities hC).symm
  obtain rfl := ncolsOf_eq_of_lengths hM hC
  obtain ⟨hcount, hexec⟩ | ⟨hcount, hexec⟩ | ⟨hcount₀, hcount₁, hexec⟩ :=
      exec_p2dVer_cases (rs := rs) (cs := cs) hn hc rfl rfl <;>
    refine ⟨_, hexec, p2dVerified_rmis, p2dVerified_cmis, p2dVerified_rcnt hrows, p2dVerified_ccnt hcols, hparity,
      p2dVerified_nrows hrows (by simp only [flipCell_shape]), p2dVerified_ncols hcols (by simp only [flipCell_shape]),
      ?_, ?_, ?_, exec_listed hexec⟩
  · exact fun _ => ⟨rfl, rfl, rfl, p2dVerified_holdsOutput hc rfl⟩
  · exact fun h => absurd (h.1.symm.trans hcount.1) (by decide)
  · exact fun h => absurd hcount h.1
  · exact fun h => absurd (h.1.symm.trans hcount.1) (by decide)
  · have hi : rs.idxOf true < M.length := (idxOf_lt_of_ones_eq_one hcount.1).trans_eq (List.length_map _)
    have hj : cs.idxOf true < ncolsOf M := (idxOf_lt_of_ones_eq_one hcount.2).trans_eq (columnParities_length M _)
    dsimp only
    rw [p2dVerified_erow hi hrows, p2dVerified_ecol hj hcols]
    exact fun _ => ⟨rfl, getElem?_idxOf_of_ones_eq_one hcount.1, getElem?_idxOf_of_ones_eq_one hcount.2,
      p2dVerified_holdsOutput hc (flipCell_shape M _ _)⟩
  · exact fun h => absurd hcount h.2
  · exact fun h => absurd h hcount₀
  · exact fun h => absurd h hcount₁
  · exact fun _ => ⟨rfl, rfl, rfl, p2dVerified_holdsOutput hc rfl⟩

/-- Settles O57: the generated matrix is even (`evenMatrix_augmentMatrix`), so it verifies clean
(`p2dVer_clean_of_evenMatrix`), and with one cell flipped it is corrected there (`p2dVer_corrects_flipCell`). -/
theorem twoDParityCorrectsOneCell : Obligations.TwoDParityCorrectsOneCell := by
  intro s t u M C _ hp hM h1 hC hop hgen herr hn
  have heven := evenMatrix_augmentMatrix hM hC
  have hne : augmentMatrix M ≠ [] := by simp [augmentMatrix]
  rw [p2dGen_output hgen herr (hop ▸ checkMatrix_grid hM h1 hC)]
  refine ⟨p2dVer_clean_of_evenMatrix hn heven hne (Nat.le_add_left 1 C), fun i j hi hj => ?_⟩
  exact p2dVer_corrects_flipCell hp hn heven (augmentMatrix_length M ▸ Nat.lt_succ_of_le hi) (Nat.lt_succ_of_le hj)

end Sys2Proof.Machine
end

section
/-! PROOFS. Which commands end in an error, which errors those are, and what such an end leaves
(spec/60_exceptions.md R250 to R254). With it, the statements O21, O23 and O25. -/

namespace Sys2Proof.Machine

/-! ## What an end in an error leaves (60_exceptions.md R250, R252) -/

/-- A command that ended in an error raised one of its list, and left that error's result state. -/
theorem exec_raised {i : Instr} {s t : State} (h : exec i s = .next t) (he : t.res.status.err ≠ .none) :
    t.res.status.err ∈ errorsOf i ∧ t.res = raised t.res.status.err := by
  rw [exec_res h] at he ⊢
  rcases commandResult_ends i s.params s.op s.res with ⟨e, hmem, hr⟩ | ⟨r1, ⟨⟨herr, -⟩, -, -⟩, hr⟩ <;>
    rw [hr] at he ⊢
  · exact ⟨hmem, rfl⟩
  · exact absurd herr he

/-- A write of any word to `CMD`, legal or not, that ended in an error left that error's result state. -/
theorem writeCmd_raised {w : Word} {s t : State} (h : writeCmd w s = .next t) (he : t.res.status.err ≠ .none) :
    t.res = raised t.res.status.err := by
  cases hw : decode w with
  | error e =>
    rw [writeCmd_of_error s hw] at h
    cases h
    rfl
  | ok i =>
    rw [writeCmd_of_ok s hw] at h
    exact (exec_raised h he).2

/-! ## BUFFER_RANGE (60_exceptions.md R254) -/

theorem isCrc_iff {i : Instr} : isCrc i = true ↔ i = .crcGen ∨ i = .crcChk := by
  cases i <;> simp [isCrc]

/-- The range check of a command, in the words of R254. -/
theorem outOfRange_iff {i : Instr} {p : Params} {op : OperandState} : outOfRange (isCrc i) p op = true ↔
    p.imax < op.ilen.toNat ∨ ((i = .crcGen ∨ i = .crcChk) ∧ p.dmax < op.dlen.toNat) := by
  simp [outOfRange, isCrc_iff]

/-! No operand check raises BUFFER_RANGE. -/

theorem checkBits_ne_bufferRange (S : List Symbol) : checkBits S ≠ .error .bufferRange :=
  fun h => absurd (checkBits_error_mem h) (by decide)

theorem checkHamming_ne_bufferRange (S : List Symbol) : checkHamming S ≠ .error .bufferRange :=
  fun h => absurd (checkHamming_error_mem h) (by decide)

theorem checkCrc_ne_bufferRange (S G : List Symbol) : checkCrc S G ≠ .error .bufferRange :=
  fun h => absurd (checkCrc_error_mem h) (by decide)

theorem checkBytes_ne_bufferRange (n : Nat) (S : List Symbol) : checkBytes n S ≠ .error .bufferRange := by
  intro h
  rcases checkBytes_error_mem h with hmem | ⟨-, he⟩
  · exact absurd hmem (by decide)
  · cases he

theorem checkMatrix_ne_bufferRange (S : List Symbol) : checkMatrix S ≠ .error .bufferRange :=
  fun h => absurd (checkMatrix_error_mem h) (by decide)

section
variable {i : Instr} {s : State}

/-- A command that raises what its operand check answers, and nothing else, does not raise BUFFER_RANGE where the
check does not. -/
theorem err_ne_bufferRange_of_check {α : Type} {check : Except ErrorCode α} (hcheck : check ≠ .error .bufferRange)
    (h : (∀ e, check = .error e → ∃ t, exec i s = .next t ∧ t.res.status.err = e) ∧
      ∀ a, check = .ok a → ∃ t, exec i s = .next t ∧ t.res.status.err = .none) :
    ∃ t, exec i s = .next t ∧ t.res.status.err ≠ .bufferRange := by
  obtain ⟨hraise, hend⟩ := h
  cases hc : check with
  | error e =>
    obtain ⟨t, hexec, rfl⟩ := hraise e hc
    exact ⟨t, hexec, fun he => hcheck (he ▸ hc)⟩
  | ok a =>
    obtain ⟨t, hexec, ht⟩ := hend a hc
    exact ⟨t, hexec, ht ▸ nofun⟩

/-- A command in range does not raise BUFFER_RANGE: it raises what its operand check answers. -/
theorem exec_inRange_ne_bufferRange (hr : outOfRange (isCrc i) s.params s.op = false) :
    ∃ t, exec i s = .next t ∧ t.res.status.err ≠ .bufferRange := by
  obtain ⟨hn, hd⟩ := outOfRange_eq_false.1 hr
  cases i with
  | parGen m => exact err_ne_bufferRange_of_check (checkBits_ne_bufferRange _) (exec_parity_err (.inl rfl) hn)
  | parChk m => exact err_ne_bufferRange_of_check (checkBits_ne_bufferRange _) (exec_parity_err (.inr rfl) hn)
  | hamEnc => exact err_ne_bufferRange_of_check (checkHamming_ne_bufferRange _) (exec_hamming_err (.inl rfl) hn)
  | hamDec => exact err_ne_bufferRange_of_check (checkHamming_ne_bufferRange _) (exec_hamming_err (.inr rfl) hn)
  | crcGen => exact err_ne_bufferRange_of_check (checkCrc_ne_bufferRange _ _) (exec_crc_err (.inl rfl) hn (hd rfl))
  | crcChk => exact err_ne_bufferRange_of_check (checkCrc_ne_bufferRange _ _) (exec_crc_err (.inr rfl) hn (hd rfl))
  | csumGen v =>
    exact err_ne_bufferRange_of_check (checkBytes_ne_bufferRange _ _) (exec_csum_err (.inl ⟨rfl, rfl⟩) hn)
  | csumVer v =>
    exact err_ne_bufferRange_of_check (checkBytes_ne_bufferRange _ _) (exec_csum_err (.inr ⟨rfl, rfl⟩) hn)
  | p2dGen => exact err_ne_bufferRange_of_check (checkMatrix_ne_bufferRange _) (exec_p2d_err (.inl rfl) hn)
  | p2dVer => exact err_ne_bufferRange_of_check (checkMatrix_ne_bufferRange _) (exec_p2d_err (.inr rfl) hn)

/-- A command out of range raises BUFFER_RANGE, whatever its operand. -/
theorem exec_outOfRange (hr : outOfRange (isCrc i) s.params s.op = true) :
    exec i s = .next { s with res := raised .bufferRange } := by
  rw [exec_eq, commandResult, if_pos hr, raise_clearResults]

end

/-! ## The statements -/

/-- Settles O21: the write changes `CMD` and the result state only, and the latter is that of the error
(`writeCmd_raised`). -/
theorem errorLeavesNothingElse : Obligations.ErrorLeavesNothingElse := by
  intro w s t h he
  obtain ⟨t', h', ht⟩ := writeCmd_next w s
  obtain rfl : t' = t := Host.Outcome.next.inj (h'.symm.trans h)
  calc t' = { s with cmd := w, res := t'.res } := ht
    _ = { s with cmd := w, res := raised t'.res.status.err } := by rw [← writeCmd_raised h he]

/-- Settles O23: the range check and every rule raise errors of the command's list (`exec_raised`). -/
theorem errorsRaisedOnlyByTheirCommands : Obligations.ErrorsRaisedOnlyByTheirCommands :=
  fun _ _ _ h he => (exec_raised h he).1

/-- Settles O25: out of range the range check raises BUFFER_RANGE, and in range no operand check does. -/
theorem bufferRangeExactlyBeyondCapacity : Obligations.BufferRangeExactlyBeyondCapacity := by
  intro i s
  cases hr : outOfRange (isCrc i) s.params s.op with
  | true => exact ⟨_, exec_outOfRange hr, fun _ => outOfRange_iff.1 hr, fun _ => rfl⟩
  | false =>
    obtain ⟨t, hexec, hne⟩ := exec_inRange_ne_bufferRange hr
    refine ⟨t, hexec, fun he => absurd he hne, fun hbeyond => ?_⟩
    rw [outOfRange_iff.2 hbeyond] at hr
    cases hr

end Sys2Proof.Machine
end

section
/-! PROOFS. Reset, and commands on operands nothing has written (spec/70_reset_and_hazards.md R280, R282, R288): an empty
operand ends INVALID_EMPTY, and one of symbols 0x00 is no text any check accepts. With it, the statements O7, O17 and
O32. -/

namespace Sys2Proof.Machine

/-! ## The empty operand (70_reset_and_hazards.md R282) -/

/-- While `ILEN` is 0 every command ends INVALID_EMPTY; the CRC commands ask for a `DLEN` in range. -/
theorem exec_of_ilen_eq_zero {i : Instr} {s : State} (h0 : s.op.ilen.toNat = 0)
    (hd : s.op.dlen.toNat ≤ s.params.dmax) : ∃ t, exec i s = .next t ∧ t.res.status.err = .invalidEmpty := by
  have hop : operand s.op = [] := List.length_eq_zero_iff.1 ((operand_length s.op).trans h0)
  have hn : s.op.ilen.toNat ≤ s.params.imax := h0 ▸ Nat.zero_le _
  cases hi : i with
  | parGen m | parChk m =>
    obtain ⟨t, hexec, hempty, -⟩ := parityOperandChecks m s i (by simp [hi]) hn
    exact ⟨t, hi ▸ hexec, hempty.2 h0⟩
  | hamEnc | hamDec =>
    obtain ⟨t, hexec, hempty, -⟩ := hammingOperandChecks s i (by simp [hi]) hn
    exact ⟨t, hi ▸ hexec, hempty.2 h0⟩
  | crcGen | crcChk =>
    obtain ⟨t, hexec, hempty, -⟩ := crcOperandChecks s i (by simp [hi]) hn hd
    exact ⟨t, hi ▸ hexec, hempty.2 fun h => h.1 h0⟩
  | csumGen v | csumVer v =>
    obtain ⟨t, hexec, hempty, -⟩ := checksumOperandChecks.2.2.2 v s i (by simp [hi]) hn
    exact ⟨t, hi ▸ hexec, hempty.2 (by rw [hop]; rfl)⟩
  | p2dGen | p2dVer =>
    obtain ⟨t, hexec, hempty, -⟩ := matrixOperandChecks.2 s i (by simp [hi]) hn
    exact ⟨t, hi ▸ hexec, hempty.2 fun h => h.1 hop⟩

/-! ## Symbols 0x00 (70_reset_and_hazards.md R282) -/

/-- The operand string of an `IBUF` nothing has written. -/
theorem operand_of_ibuf_nil {op : OperandState} (h : op.ibuf = []) : operand op = List.replicate op.ilen.toNat 0 :=
  List.eq_replicate_iff.2 ⟨operand_length op, fun x hx => by
    rw [operand, h] at hx
    obtain ⟨k, -, rfl⟩ := List.mem_map.1 hx
    rfl⟩

/-- A text with no separator in it is one piece. -/
theorem splitText_replicate {p : Symbol → Bool} {x : Symbol} (hx : p x = false) (n : Nat) :
    splitText p (List.replicate n x) = [List.replicate n x] :=
  splitText_of_no_sep fun _ hy => List.eq_of_mem_replicate hy ▸ hx

/-- A token that has a value is made of hex digits. -/
theorem mem_hexDigits_of_byteval {t : List Symbol} (h : (byteval t).isSome = true) : ∀ x ∈ t, x ∈ hexDigits := by
  obtain ⟨b, hb⟩ := Option.isSome_iff_exists.1 h
  obtain ⟨x, hx, rfl⟩ | ⟨d, e, x, y, hx, hy, rfl, -⟩ := byteval_eq_some.1 hb
  · simpa using List.mem_of_getElem? hx
  · simpa using And.intro (List.mem_of_getElem? hx) (List.mem_of_getElem? hy)

section
variable {n : Nat}

theorem tokens_replicate_zero (h : n ≠ 0) : tokens (List.replicate n 0) = [List.replicate n 0] := by
  rw [tokens, splitText_replicate (by decide)]
  simp [h]

theorem rows_replicate_zero (n : Nat) : rows (List.replicate n 0) = [List.replicate n 0] :=
  splitText_replicate (p := (· == symLF)) (by decide) n

theorem byteval_replicate_zero (h : n ≠ 0) : ¬ (byteval (List.replicate n 0)).isSome = true := fun hb =>
  absurd (mem_hexDigits_of_byteval hb 0 (List.mem_replicate.2 ⟨h, rfl⟩)) (by decide)

end

/-- How a command ends on a non-empty operand nothing has written, with `DLEN = d` (70_reset_and_hazards.md R282). -/
def unwrittenError (d : BitVec 16) : Instr → ErrorCode
  | .csumGen _ | .csumVer _ => .invalidByte
  | .crcGen | .crcChk => if d = 0 then .invalidEmpty else .invalidSymbol
  | .parGen _ | .parChk _ | .hamEnc | .hamDec | .p2dGen | .p2dVer => .invalidSymbol

theorem exec_of_ibuf_nil {i : Instr} {s : State} (hb : s.op.ibuf = []) (h0 : s.op.ilen.toNat ≠ 0)
    (hn : s.op.ilen.toNat ≤ s.params.imax) (hd : s.op.dlen.toNat ≤ s.params.dmax) :
    ∃ t, exec i s = .next t ∧ t.res.status.err = unwrittenError s.op.dlen i := by
  have hop := operand_of_ibuf_nil hb
  have hmem : 0 ∈ operand s.op := hop ▸ List.mem_replicate.2 ⟨h0, rfl⟩
  have hbin : ¬ s.binaryOperand := fun h => absurd (h 0 hmem) (by decide)
  cases hi : i with
  | parGen m | parChk m =>
    obtain ⟨t, hexec, -, hsymbol, -⟩ := parityOperandChecks m s i (by simp [hi]) hn
    exact ⟨t, hi ▸ hexec, hsymbol.2 ⟨h0, hbin⟩⟩
  | hamEnc | hamDec =>
    obtain ⟨t, hexec, -, hsymbol, -⟩ := hammingOperandChecks s i (by simp [hi]) hn
    exact ⟨t, hi ▸ hexec, hsymbol.2 ⟨h0, hbin⟩⟩
  | crcGen | crcChk =>
    obtain ⟨t, hexec, hempty, hsymbol, -⟩ := crcOperandChecks s i (by simp [hi]) hn hd
    refine ⟨t, hi ▸ hexec, ?_⟩
    rw [unwrittenError]
    split_ifs with hd0
    · exact hempty.2 fun h => h.2 (hd0 ▸ rfl)
    · exact hsymbol.2 ⟨⟨h0, fun h => hd0 (BitVec.eq_of_toNat_eq h)⟩, fun h => hbin h.1⟩
  | csumGen v | csumVer v =>
    obtain ⟨t, hexec, -, hbyte, -⟩ := checksumOperandChecks.2.2.2 v s i (by simp [hi]) hn
    rw [hop, tokens_replicate_zero h0] at hbyte
    exact ⟨t, hi ▸ hexec, hbyte.2 ⟨by simp, fun h => byteval_replicate_zero h0 (h _ List.mem_cons_self)⟩⟩
  | p2dGen | p2dVer =>
    obtain ⟨t, hexec, -, hsymbol, -⟩ := matrixOperandChecks.2 s i (by simp [hi]) hn
    refine ⟨t, hi ▸ hexec, hsymbol.2 ⟨⟨List.ne_nil_of_mem hmem, ?_⟩, fun h => absurd (h 0 hmem) (by decide)⟩⟩
    rw [hop, rows_replicate_zero]
    simp [h0]

/-! ## The statements -/

/-- Settles O32: the reset operand is empty (`exec_of_ilen_eq_zero`), and one nothing has written is symbols 0x00
(`exec_of_ibuf_nil`). -/
theorem commandsOnUnwrittenOperands : Obligations.CommandsOnUnwrittenOperands := by
  intro p _
  refine ⟨fun w r hw => ⟨_, writeCmd_of_error _ hw, rfl⟩, fun i => ⟨?_, fun n d g h0 hn hd => ?_⟩⟩
  · exact exec_of_ilen_eq_zero rfl (Nat.zero_le _)
  · obtain ⟨t, hexec, ht⟩ := exec_of_ibuf_nil (i := i)
      (s := { State.resetWith p with op := { ilen := n, dlen := d, ibuf := [], dbuf := g } })
      rfl (fun h => h0 (BitVec.eq_of_toNat_eq h)) hn hd
    refine ⟨t, hexec, ht.trans ?_⟩
    cases i <;> rfl

/-- Settles O7: the step performs the reset, from any state. -/
theorem resetInputRestoresTheResetState : Obligations.ResetInputRestoresTheResetState :=
  fun _ _ hpend => step_action hpend

/-- Settles O17: a command replaces the result state (`exec_eq`) by one with `DONE` (`commandResult_done`). -/
theorem commandsCompleteAndWriteOnlyResults : Obligations.CommandsCompleteAndWriteOnlyResults :=
  fun i s => ⟨_, exec_eq i s, commandResult_done _ _ _ _ _, rfl⟩

end Sys2Proof.Machine
end
